-- ==== Sys2Proof/Word.lean ====
section
/-! DEFINITION. The words of the interface: every operand, result and command of BCQ is one whole 32-bit word
(30_encoding.md R55, R56; 20_memory.md R46), and a frame is a finite sequence of them. -/

namespace Sys2Proof

/-- One frame word: bit 31 is the sign bit of a binary32 pattern, bit 0 the least significant (20_memory.md R43). -/
abbrev Word := BitVec 32

/-- An input frame `W[0], W[1], ...` (30_encoding.md R56). -/
abbrev Frame := List Word

end Sys2Proof
end

