-- ==== Sys2Proof/Syntax.lean ====
section
/-! DEFINITION. The ten host-visible operations of BCQ: one constructor per row of spec/opcode_table.json
(30_encoding.md R64). Operand words are kept as the host sent them: range handling, NaN handling and unit conversion
are semantics, not syntax (30_encoding.md R63). -/

namespace Sys2Proof

/-- The BCQ command set, version 1. The operands of a PROC row stand in frame order `W[1] .. W[5]` (`W[6]`):
`bitDepth gammaParam smoothing gainDb xL (xR)` (30_encoding.md R60). -/
inductive Instr where
  /-- `INIT sr` (44_stereo_engine.md R151). -/
  | init (sr : Word)
  /-- `PROC.ASYM.MAN.MONO` (44_stereo_engine.md R161). -/
  | procAsymManMono (bitDepth gammaParam smoothing gainDb xL : Word)
  /-- `PROC.SYM.MAN.MONO` (44_stereo_engine.md R162). -/
  | procSymManMono (bitDepth gammaParam smoothing gainDb xL : Word)
  /-- `PROC.ASYM.AUTO.MONO` (44_stereo_engine.md R163). -/
  | procAsymAutoMono (bitDepth gammaParam smoothing gainDb xL : Word)
  /-- `PROC.SYM.AUTO.MONO` (44_stereo_engine.md R164). -/
  | procSymAutoMono (bitDepth gammaParam smoothing gainDb xL : Word)
  /-- `PROC.ASYM.MAN.ST` (44_stereo_engine.md R165). -/
  | procAsymManSt (bitDepth gammaParam smoothing gainDb xL xR : Word)
  /-- `PROC.SYM.MAN.ST` (44_stereo_engine.md R166). -/
  | procSymManSt (bitDepth gammaParam smoothing gainDb xL xR : Word)
  /-- `PROC.ASYM.AUTO.ST` (44_stereo_engine.md R167). -/
  | procAsymAutoSt (bitDepth gammaParam smoothing gainDb xL xR : Word)
  /-- `PROC.SYM.AUTO.ST` (44_stereo_engine.md R168). -/
  | procSymAutoSt (bitDepth gammaParam smoothing gainDb xL xR : Word)
  /-- `TDWN` (44_stereo_engine.md R160). -/
  | tdwn
  deriving DecidableEq, Repr

end Sys2Proof
end

