-- ==== Sys2Proof/WellFormed.lean ====
section
/-! DEFINITION. Which frames the encoding admits, and which commands a host that keeps its duties sends.

The operands of an `Instr` are whole words and any 32-bit pattern is an acceptable PROC operand (30_encoding.md R63), so
nothing about a PROC command can be ill formed. What can be: the shape of a frame (30_encoding.md R58, R66), and the
sample rate of an INIT, which the host owes finite and positive (60_exceptions.md R190). -/

namespace Sys2Proof

/-- The words of a frame that has a command word have the form 30_encoding.md R57 and R58 give: a known `OPC`, `RSV`
zero, the low bits zero but in PROC, and the exact length. -/
def wellFormedFrame : Frame → Bool
  | [] => false
  | w :: ops =>
    let opc := w.toNat / 2 ^ 24
    let rsv := w.toNat / 2 ^ 3 % 2 ^ 21
    let low := w.toNat % 2 ^ 3
    (rsv == 0) &&
      ((opc == 1 && low == 0 && ops.length == 1) ||
       (opc == 2 && ops.length == 5 + low / 4) ||
       (opc == 3 && low == 0 && ops.length == 0))

/-- A word that is a finite binary32 above zero: sign bit clear, not all zero, exponent field not all ones. -/
def positiveFiniteWord (w : Word) : Bool := 0 < w.toNat && w.toNat < 0x7F800000

/-- The operands a host that keeps its duties sends: `INIT` with a finite `sr > 0` (60_exceptions.md R190); any operand
words otherwise (60_exceptions.md R187). -/
def wellFormed : Instr → Bool
  | .init sr => positiveFiniteWord sr
  | .procAsymManMono _ _ _ _ _ => true
  | .procSymManMono _ _ _ _ _ => true
  | .procAsymAutoMono _ _ _ _ _ => true
  | .procSymAutoMono _ _ _ _ _ => true
  | .procAsymManSt _ _ _ _ _ _ => true
  | .procSymManSt _ _ _ _ _ _ => true
  | .procAsymAutoSt _ _ _ _ _ _ => true
  | .procSymAutoSt _ _ _ _ _ _ => true
  | .tdwn => true

end Sys2Proof
end

