-- ==== Sys2Proof/Decode.lean ====
section
/-! DEFINITION. Decoding of input frames (30_encoding.md R57 to R67), total on every finite sequence of words and
rejecting by name, and the encoder written from the same tables. -/

namespace Sys2Proof

/-- Why the decoder refuses a frame (60_exceptions.md R186). -/
inductive DecodeReject where
  /-- The frame is empty, or its length is not the one its command word requires. -/
  | frameLength
  /-- `W[0][31:24]` is not 0x01, 0x02 or 0x03. -/
  | reservedOpcode
  /-- `W[0][23:3]` is not 0, or INIT or TDWN has a nonzero `W[0][2:0]`. -/
  | reservedBits
  deriving DecidableEq, Repr

/-- The field `OPC` of a command word, bits 31 to 24 (30_encoding.md R57). -/
def fieldOpc (w : Word) : BitVec 8 := w.extractLsb' 24 8

/-- The field `RSV`, bits 23 to 3 (30_encoding.md R57). -/
def fieldRsv (w : Word) : BitVec 21 := w.extractLsb' 3 21

/-- The three low bits `RP`, `AUTO`, `SYM` (30_encoding.md R57). -/
def fieldLow (w : Word) : BitVec 3 := w.extractLsb' 0 3

/-- The field `RP`, bit 2: a right input sample is present. -/
def fieldRp (w : Word) : Bool := w.getLsbD 2

/-- The field `AUTO`, bit 1. -/
def fieldAuto (w : Word) : Bool := w.getLsbD 1

/-- The field `SYM`, bit 0. -/
def fieldSym (w : Word) : Bool := w.getLsbD 0

/-- How many words the frame of an admitted command word has, a function of `OPC` and `RP` alone (30_encoding.md R58). -/
def needWords (w : Word) : Nat :=
  if fieldOpc w = 0x01#8 then 2
  else if fieldOpc w = 0x03#8 then 1
  else if fieldRp w then 7 else 6

/-- The PROC row of a mono source with the given flags (30_encoding.md R64). -/
def procMono (sym auto : Bool) (bd gp sm gdb xL : Word) : Instr :=
  match auto, sym with
  | false, false => .procAsymManMono bd gp sm gdb xL
  | false, true => .procSymManMono bd gp sm gdb xL
  | true, false => .procAsymAutoMono bd gp sm gdb xL
  | true, true => .procSymAutoMono bd gp sm gdb xL

/-- The PROC row of a stereo source with the given flags (30_encoding.md R64). -/
def procStereo (sym auto : Bool) (bd gp sm gdb xL xR : Word) : Instr :=
  match auto, sym with
  | false, false => .procAsymManSt bd gp sm gdb xL xR
  | false, true => .procSymManSt bd gp sm gdb xL xR
  | true, false => .procAsymAutoSt bd gp sm gdb xL xR
  | true, true => .procSymAutoSt bd gp sm gdb xL xR

/-- The command of a frame whose command word is admitted: the operand words are taken whole, and any other number of
them is refused (30_encoding.md R58, R67). -/
def decodeOperands (w : Word) (ops : List Word) : Except DecodeReject Instr :=
  if fieldOpc w = 0x01#8 then
    match ops with
    | [sr] => .ok (.init sr)
    | _ => .error .frameLength
  else if fieldOpc w = 0x03#8 then
    match ops with
    | [] => .ok .tdwn
    | _ => .error .frameLength
  else if fieldRp w then
    match ops with
    | [bd, gp, sm, gdb, xL, xR] => .ok (procStereo (fieldSym w) (fieldAuto w) bd gp sm gdb xL xR)
    | _ => .error .frameLength
  else
    match ops with
    | [bd, gp, sm, gdb, xL] => .ok (procMono (fieldSym w) (fieldAuto w) bd gp sm gdb xL)
    | _ => .error .frameLength

/-- The decoder, its checks in the order of 30_encoding.md R67: empty frame, opcode, reserved bits, length. -/
def decode : Frame → Except DecodeReject Instr
  | [] => .error .frameLength
  | w :: ops =>
    if fieldOpc w ≠ 0x01#8 ∧ fieldOpc w ≠ 0x02#8 ∧ fieldOpc w ≠ 0x03#8 then .error .reservedOpcode
    else if fieldRsv w ≠ 0#21 then .error .reservedBits
    else if fieldOpc w ≠ 0x02#8 ∧ fieldLow w ≠ 0#3 then .error .reservedBits
    else decodeOperands w ops

/-- A command word with `RSV` zero (30_encoding.md R57). -/
def commandWord (opc : BitVec 8) (rp auto sym : Bool) : Word :=
  opc ++ 0#21 ++ BitVec.ofBool rp ++ BitVec.ofBool auto ++ BitVec.ofBool sym

/-- The frame of a command (30_encoding.md R59, R60, R62). -/
def encode : Instr → Frame
  | .init sr => [commandWord 0x01 false false false, sr]
  | .procAsymManMono bd gp sm gdb xL => [commandWord 0x02 false false false, bd, gp, sm, gdb, xL]
  | .procSymManMono bd gp sm gdb xL => [commandWord 0x02 false false true, bd, gp, sm, gdb, xL]
  | .procAsymAutoMono bd gp sm gdb xL => [commandWord 0x02 false true false, bd, gp, sm, gdb, xL]
  | .procSymAutoMono bd gp sm gdb xL => [commandWord 0x02 false true true, bd, gp, sm, gdb, xL]
  | .procAsymManSt bd gp sm gdb xL xR => [commandWord 0x02 true false false, bd, gp, sm, gdb, xL, xR]
  | .procSymManSt bd gp sm gdb xL xR => [commandWord 0x02 true false true, bd, gp, sm, gdb, xL, xR]
  | .procAsymAutoSt bd gp sm gdb xL xR => [commandWord 0x02 true true false, bd, gp, sm, gdb, xL, xR]
  | .procSymAutoSt bd gp sm gdb xL xR => [commandWord 0x02 true true true, bd, gp, sm, gdb, xL, xR]
  | .tdwn => [commandWord 0x03 false false false]

/-- The frame whose bits, numbered as spec/opcode_table.json numbers them (word 0 lowest), are the low `nbits` bits of
`w`, every later operand word zero; its length is the one its command word requires. -/
def tableFrame (nbits w : Nat) : Frame :=
  let bits := w % 2 ^ nbits
  (List.range (needWords (BitVec.ofNat 32 bits))).map fun k => BitVec.ofNat 32 (bits / 2 ^ (32 * k))

/-- What the decoder reads from a row's bits. -/
def decodeTableWord (nbits w : Nat) : Option Instr :=
  match decode (tableFrame nbits w) with
  | .ok i => some i
  | .error _ => none

end Sys2Proof
end

