-- ==== Sys2Proof/Config.lean ====
section
/-! DEFINITION. What an implementation of BCQ fixes and the spec does not: the open parameters as a structure that every
function of the datapath takes as an argument (00_scope.md R10, "stays a named argument of the model"), and the free
values of the machine, constants with no body, so that no proof can see what they are. -/

namespace Sys2Proof

/-- The parameter snapshot of a PROC frame, over the number system the reading uses (10_state.md R28). -/
structure Snapshot (α : Type) where
  bitDepth : α
  gammaParam : α
  smoothing : α
  gainDb : α
  autoGain : Bool
  symmetric : Bool
  deriving DecidableEq, Repr

/-- The three registers of one lane's envelope follower: `ENV[c]`, `ATK[c]`, `REL[c]` (10_state.md R20). -/
structure Follower (α : Type) where
  env : α
  atk : α
  rel : α
  deriving DecidableEq, Repr

/-- Whether the manual drive acts while auto-gain is on (00_scope.md R10, 43_bitcrusher_channel.md R129). -/
inductive PregainInAuto where
  /-- The reading the spec takes: stage S1 runs whatever `AUTO` is. -/
  | applied
  /-- The named alternative: S1 uses `g = 1` when `AUTO = 1`. -/
  | bypassed
  deriving DecidableEq, Repr

/-- In which order an outer transport serialises the bytes of a frame word (20_memory.md R43). -/
inductive WireEndian where
  /-- The least significant byte first. -/
  | little
  /-- The most significant byte first. -/
  | big
  deriving DecidableEq, Repr, Inhabited

/-- The open parameters of 00_scope.md R10, arguments of every datapath function and of the step. -/
structure Config (α : Type) where
  /-- `POW(b, e)`, for `b ≥ 0`, `e > 0`. -/
  pow : α → α → α
  /-- `EXP(v)`. -/
  exp : α → α
  /-- `EXP10(v)`. -/
  exp10 : α → α
  /-- `ZX(w, L, s)` (43_bitcrusher_channel.md R134, R135). -/
  zx : α → Nat → α → α
  /-- `GAIN_CEIL` (42_envelope_follower.md R116). -/
  gainCeil : α
  /-- `NANP`: what a NaN parameter of the range `[lo, hi]` becomes (43_bitcrusher_channel.md R128). -/
  nanp : α → α → α
  /-- `PREGAIN_IN_AUTO`. -/
  pregainInAuto : PregainInAuto
  /-- `WIRE_ENDIAN`, for a transport outside the block; no rule of the block depends on it (00_scope.md R10). -/
  wireEndian : WireEndian

/-- FREE: the instance of `POW` before the named properties of 00_scope.md R15 are imposed (log entry 2). -/
opaque Config.powRaw : Word → Word → Word

/-- FREE: the instance of `EXP` before its named properties are imposed (log entry 2). -/
opaque Config.expRaw : Word → Word

/-- FREE: the instance of `EXP10` before its named properties are imposed (log entry 2). -/
opaque Config.exp10Raw : Word → Word

/-- FREE: the instance of `ZX` inside the zone, before its named properties are imposed (log entry 3). -/
opaque Config.zxRaw : Word → Nat → Word → Word

/-- FREE: the byte order of an outer transport (93_implementation_defined.md U12; log entry 23). -/
opaque Config.wireOrder : WireEndian

/-- FREE: the sign bit of an output word whose value is zero (93_implementation_defined.md U7; log entry 9). It may
depend on what the lane's output may depend on and on nothing else (10_state.md R24): the clamped snapshot, the lane's
sanitised sample, and, when `AUTO = 1`, the lane's follower registers. -/
opaque Config.zeroSign : Snapshot Word → Word → Option (Follower Word) → Bool

/-- FREE: the words of registers that hardware reset or `TDWN` leaves unspecified, one per draw
(10_state.md R34, 93_implementation_defined.md U4; log entry 8). -/
opaque Config.freeWord : Nat → Word

end Sys2Proof
end

