-- ==== Sys2Proof/Machine/Num.lean ====
section
/-! DEFINITION. The number system NUM as an argument, and the primitives of 00_scope.md R17 over it. 00_scope.md R12
defines two readings of every formula; each formula of the spec is therefore written ONCE, over a `NumSys`, and read
with `b32` (the datapath reading, Machine/Float.lean: the machine's) or with `exactNum` (the reference reading,
Machine/Exact.lean). -/

namespace Sys2Proof.Machine

/-- The operations of NUM that the pseudocode uses (00_scope.md R12, R13, R17). -/
structure NumSys (α : Type) where
  /-- `num / den` as a value of NUM: the literals of the spec, and `toF n` as `lit n 1`. -/
  lit : Int → Nat → α
  add : α → α → α
  sub : α → α → α
  mul : α → α → α
  div : α → α → α
  /-- Unary minus. -/
  neg : α → α
  /-- Magnitude; clears the sign. -/
  abs : α → α
  /-- `<`, false when an operand is a NaN. -/
  lt : α → α → Bool
  /-- `≤`, false when an operand is a NaN. -/
  le : α → α → Bool
  /-- Greatest integer not above. -/
  floor : α → Int
  /-- Least integer not below. -/
  ceil : α → Int
  /-- Neither NaN nor an infinity. -/
  isFinite : α → Bool
  /-- A NaN. -/
  isNaN : α → Bool

variable {α : Type}

/-- `toF(n)`: integer to NUM (00_scope.md R17). -/
def toF (N : NumSys α) (n : Int) : α := N.lit n 1

/-- `clamp(v, lo, hi)` (00_scope.md R17). -/
def clamp (N : NumSys α) (v lo hi : α) : α :=
  if N.lt v lo then lo else if N.lt hi v then hi else v

/-- `clampP(v, lo, hi)`: the parameter clamp, a NaN replaced as `NANP` says (00_scope.md R17). -/
def clampP (N : NumSys α) (nanp : α → α → α) (v lo hi : α) : α :=
  if N.isNaN v then nanp lo hi else if N.lt v lo then lo else if N.lt hi v then hi else v

/-- `lerp(a, b, t) = a + t × (b − a)` (00_scope.md R17). -/
def lerp (N : NumSys α) (a b t : α) : α := N.add a (N.mul t (N.sub b a))

/-- `sign(v)`: `−1`, `+1` or `0` (00_scope.md R17). -/
def sign (N : NumSys α) (v : α) : α :=
  if N.lt v (toF N 0) then toF N (-1) else if N.lt (toF N 0) v then toF N 1 else toF N 0

/-- `frac(v) = v − toF(floor(v))` (00_scope.md R17). -/
def frac (N : NumSys α) (v : α) : α := N.sub v (toF N (N.floor v))

end Sys2Proof.Machine
end

