-- ==== Sys2Proof/Machine/Flags.lean ====
section
/-! DEFINITION. The predicates that select between formulas (43_bitcrusher_channel.md R145), each with the owner of its
boundary. BCQ has no condition codes: these are recomputed inside a sample and stored nowhere; its one stored flag is
`READY` (10_state.md R27), a field of State. -/

namespace Sys2Proof.Machine

variable {α : Type}

/-- A sample rate `INIT` accepts: finite and above zero (44_stereo_engine.md R152). -/
def rateValid (N : NumSys α) (sr : α) : Bool := N.isFinite sr && N.lt (toF N 0) sr

/-- The step of the grid of `L` levels, `2 ÷ toF(L − 1)` (40_quantizer.md R84). -/
def gridStep (N : NumSys α) (L : Nat) : α := N.div (toF N 2) (toF N ((L : Int) - 1))

/-- R145 row 9: `p < 0.5`; the half step belongs to the upper side. -/
def belowHalf (N : NumSys α) (p : α) : Bool := N.lt p (N.lit 1 2)

/-- R145 row 10: `s ≤ 0.5`; `s == 0.5` uses the first branch. -/
def softHalf (N : NumSys α) (s : α) : Bool := N.le s (N.lit 1 2)

/-- R145 row 12: `abs(w) ≥ step`; equality is outside the zone. -/
def outsideZone (N : NumSys α) (w : α) (L : Nat) : Bool := N.le (gridStep N L) (N.abs w)

/-- R145 row 15: `target > e`; equality takes the release branch (42_envelope_follower.md R115). -/
def attackTaken (N : NumSys α) (target e : α) : Bool := N.lt e target

/-- `GATE_THRESHOLD` (00_scope.md R9). -/
def gateThreshold (N : NumSys α) : α := N.lit 5 1000

/-- R145 row 16: `e1 < 0.005`; equality is ungated (42_envelope_follower.md R116). -/
def gateClosed (N : NumSys α) (e1 : α) : Bool := N.lt e1 (gateThreshold N)

end Sys2Proof.Machine
end

