-- ==== Sys2Proof/Machine/Operands.lean ====
section
/-! DEFINITION. The operand forms of a PROC frame and stage S0: the sample of each lane, sanitised, and the parameter
snapshot, clamped (43_bitcrusher_channel.md R127, R128; 44_stereo_engine.md R154, R155). -/

namespace Sys2Proof.Machine

variable {α : Type}

/-- S0, samples: a sample that is not finite becomes `0` (43_bitcrusher_channel.md R127). -/
def sanitiseSample (N : NumSys α) (x : α) : α := if N.isFinite x then x else toF N 0

/-- S0, `bitDepth` clamped to `[1, 16]` (10_state.md R28). -/
def clampBitDepth (N : NumSys α) (cfg : Config α) (v : α) : α := clampP N cfg.nanp v (toF N 1) (toF N 16)

/-- S0, `gammaParam` clamped to `[−1, 1]` (10_state.md R28). -/
def clampGamma (N : NumSys α) (cfg : Config α) (v : α) : α := clampP N cfg.nanp v (toF N (-1)) (toF N 1)

/-- S0, `smoothing` clamped to `[0, 1]` (10_state.md R28). -/
def clampSmoothing (N : NumSys α) (cfg : Config α) (v : α) : α := clampP N cfg.nanp v (toF N 0) (toF N 1)

/-- S0, `gainDb` clamped to `[0, 20]` (10_state.md R28). -/
def clampGainDb (N : NumSys α) (cfg : Config α) (v : α) : α := clampP N cfg.nanp v (toF N 0) (toF N 20)

/-- S0, parameters: the four numeric fields clamped, the two flags as they are (43_bitcrusher_channel.md R128). -/
def clampSnapshot (N : NumSys α) (cfg : Config α) (P : Snapshot α) : Snapshot α where
  bitDepth := clampBitDepth N cfg P.bitDepth
  gammaParam := clampGamma N cfg P.gammaParam
  smoothing := clampSmoothing N cfg P.smoothing
  gainDb := clampGainDb N cfg P.gainDb
  autoGain := P.autoGain
  symmetric := P.symmetric

/-- The raw sample of lane R: `xR` when the frame carries one, else the duplicated `xL`, before any sanitising
(44_stereo_engine.md R154). -/
def rightInput (xL : Word) (xR : Option Word) : Word := xR.getD xL

end Sys2Proof.Machine
end

