-- ==== Sys2Proof/Machine/Envelope.lean ====
section
/-! DEFINITION. The EnvelopeFollower (42_envelope_follower.md): coefficients, the one-pole update, and the gate. -/

namespace Sys2Proof.Machine

variable {α : Type}

/-- `coeff(tc, sr) = 1 − EXP(−(1 ÷ (tc × sr)))` (42_envelope_follower.md R111). -/
def coeff (N : NumSys α) (cfg : Config α) (tc sr : α) : α :=
  N.sub (toF N 1) (cfg.exp (N.neg (N.div (toF N 1) (N.mul tc sr))))

/-- `TC_ATTACK`, 0.0005 s (00_scope.md R9). -/
def tcAttack (N : NumSys α) : α := N.lit 5 10000

/-- `TC_RELEASE`, 0.05 s (00_scope.md R9). -/
def tcRelease (N : NumSys α) : α := N.lit 5 100

/-- `ENV_INIT(c, sr)`: what the lane's three registers become (42_envelope_follower.md R111). -/
def envInit (N : NumSys α) (cfg : Config α) (sr : α) : Follower α where
  env := toF N 0
  atk := coeff N cfg (tcAttack N) sr
  rel := coeff N cfg (tcRelease N) sr

/-- The level after one update: attack when `target > e` strictly, else release (42_envelope_follower.md R113, R115). -/
def envLevel (N : NumSys α) (f : Follower α) (target : α) : α :=
  if attackTaken N target f.env then N.add f.env (N.mul f.atk (N.sub target f.env))
  else N.add f.env (N.mul f.rel (N.sub target f.env))

/-- The gain returned for the updated level `e1`: the ceiling while the gate is closed, else `TARGET_LEVEL ÷ e1` with
`TARGET_LEVEL = 1.0` (42_envelope_follower.md R116, R117). -/
def envGain (N : NumSys α) (cfg : Config α) (e1 : α) : α :=
  if gateClosed N e1 then cfg.gainCeil else N.div (toF N 1) e1

/-- The level `ENV_UPDATE(c, x)` stores in `ENV[c]`; a non-finite `x` counts as `0` (42_envelope_follower.md R113,
R118). -/
def envUpdateLevel (N : NumSys α) (f : Follower α) (x : α) : α := envLevel N f (N.abs (sanitiseSample N x))

end Sys2Proof.Machine
end

