-- ==== Sys2Proof/Machine/GammaWarp.lean ====
section
/-! DEFINITION. GammaWarp: the stateless, sign-preserving power law (41_gammawarp.md). -/

namespace Sys2Proof.Machine

variable {α : Type}

/-- `gv = EXP10(gp)` (41_gammawarp.md R100). -/
def gammaValue (cfg : Config α) (gp : α) : α := cfg.exp10 gp

/-- `sign(x) × POW(abs(x), e)`: the power of the magnitude, the sign restored (41_gammawarp.md R103 (b)). -/
def signedPow (N : NumSys α) (cfg : Config α) (x e : α) : α := N.mul (sign N x) (cfg.pow (N.abs x) e)

/-- The forward direction, with exponent `1 ÷ gv` (41_gammawarp.md R101). -/
def warp (N : NumSys α) (cfg : Config α) (x gv : α) : α := signedPow N cfg x (N.div (toF N 1) gv)

/-- The inverse direction, with exponent `gv` (41_gammawarp.md R102). -/
def unwarp (N : NumSys α) (cfg : Config α) (x gv : α) : α := signedPow N cfg x gv

end Sys2Proof.Machine
end

