-- ==== Sys2Proof/Machine/Quantizer.lean ====
section
/-! DEFINITION. The Quantizer: the transition blend `T` and `quantize` (40_quantizer.md), and the two named instances of
the zero-crossing function (43_bitcrusher_channel.md R135, R136). -/

namespace Sys2Proof.Machine

variable {α : Type}

/-- `smoothstep(p) = ((3 × p) × p) − (((2 × p) × p) × p)` (40_quantizer.md R81). -/
def smoothstep (N : NumSys α) (p : α) : α :=
  N.sub (N.mul (N.mul (toF N 3) p) p) (N.mul (N.mul (N.mul (toF N 2) p) p) p)

/-- `hardstep(p) = 0 if p < 0.5 else 1` (40_quantizer.md R81). -/
def hardstep (N : NumSys α) (p : α) : α := if belowHalf N p then toF N 0 else toF N 1

/-- The transition blend `T(p, s)` (40_quantizer.md R81). -/
def blend (N : NumSys α) (p s : α) : α :=
  if softHalf N s then lerp N p (smoothstep N p) (N.mul s (toF N 2))
  else lerp N (smoothstep N p) (hardstep N p) (N.mul (N.sub s (N.lit 1 2)) (toF N 2))

/-- The grid index `k = floor(x ÷ step)` (40_quantizer.md R84). -/
def gridIndex (N : NumSys α) (x : α) (L : Nat) : Int := N.floor (N.div x (gridStep N L))

/-- The level of grid index `k`, clamped to `[−1, 1]` (40_quantizer.md R84). -/
def gridLevel (N : NumSys α) (k : Int) (L : Nat) : α :=
  clamp N (N.mul (toF N k) (gridStep N L)) (toF N (-1)) (toF N 1)

/-- The lower candidate level `low` (40_quantizer.md R84). -/
def gridLow (N : NumSys α) (x : α) (L : Nat) : α := gridLevel N (gridIndex N x L) L

/-- The upper candidate level `high`; named by the source, not used by the result (40_quantizer.md R84). -/
def gridHigh (N : NumSys α) (x : α) (L : Nat) : α := gridLevel N (gridIndex N x L + 1) L

/-- The local phase `p = (x − low) ÷ step` (40_quantizer.md R85). -/
def gridPhase (N : NumSys α) (x : α) (L : Nat) : α := N.div (N.sub x (gridLow N x L)) (gridStep N L)

/-- `quantize(x, L, s)` (40_quantizer.md R82): the single level gives `0`, else `low + (T(p, s) × step)`. -/
def quantize (N : NumSys α) (x : α) (L : Nat) (s : α) : α :=
  if L = 1 then toF N 0
  else N.add (gridLow N x L) (N.mul (blend N (gridPhase N x L) s) (gridStep N L))

/-- `ZX_ID`, the plain quantizer as an instance of `ZX` (43_bitcrusher_channel.md R135). -/
def zxId (N : NumSys α) (w : α) (L : Nat) (s : α) : α := quantize N w L s

/-- `ZX_REF`, the spec's reference instance of `ZX`, with `ZX_DEPTH = 0.25` (43_bitcrusher_channel.md R136). -/
def zxRef (N : NumSys α) (w : α) (L : Nat) (s : α) : α :=
  if L = 1 then toF N 0
  else if outsideZone N w L then quantize N w L s
  else
    let r := N.div (N.abs w) (gridStep N L)
    quantize N w L (N.mul s (N.add (N.lit 3 4) (N.mul (N.lit 1 4) r)))

end Sys2Proof.Machine
end

