-- ==== Sys2Proof/Machine/Channel.lean ====
section
/-! DEFINITION. InterpolatedBitCrusher: the per-channel operation `PROCESS_CH`, stages S0 to S7
(43_bitcrusher_channel.md R126). The snapshot `P` each stage takes is the clamped one of stage S0, but for `processCh`,
which takes the raw one. -/

namespace Sys2Proof.Machine

variable {α : Type}

/-- S1, the drive gain `g = EXP10(gdb ÷ 20)`; under the alternative `PREGAIN_IN_AUTO = bypassed`, `1` when `AUTO = 1`
(43_bitcrusher_channel.md R129). -/
def driveGain (N : NumSys α) (cfg : Config α) (P : Snapshot α) : α :=
  if cfg.pregainInAuto = .bypassed ∧ P.autoGain = true then toF N 1
  else cfg.exp10 (N.div P.gainDb (toF N 20))

/-- S1: `x1 = clamp(x0 × g, −1, 1)` (43_bitcrusher_channel.md R129). -/
def drive (N : NumSys α) (cfg : Config α) (P : Snapshot α) (x0 : α) : α :=
  clamp N (N.mul x0 (driveGain N cfg P)) (toF N (-1)) (toF N 1)

/-- S2: the warped sample `w` (43_bitcrusher_channel.md R130). -/
def warped (N : NumSys α) (cfg : Config α) (P : Snapshot α) (x0 : α) : α :=
  warp N cfg (drive N cfg P x0) (gammaValue cfg P.gammaParam)

/-- The level count of a bit count, `2^b − 1` (43_bitcrusher_channel.md R132). -/
def levelsOf (b : Int) : Nat := 2 ^ b.toNat - 1

/-- S3: `Ll` (43_bitcrusher_channel.md R132). -/
def levelsLow (N : NumSys α) (bd : α) : Nat := levelsOf (N.floor bd)

/-- S3: `Lh` (43_bitcrusher_channel.md R132). -/
def levelsHigh (N : NumSys α) (bd : α) : Nat := levelsOf (N.ceil bd)

/-- S3 and S4: a quantizer evaluated at both level counts and crossfaded by `wt = frac(bd)`
(43_bitcrusher_channel.md R132). -/
def crossfade (N : NumSys α) (quant : α → Nat → α → α) (P : Snapshot α) (x : α) : α :=
  lerp N (quant x (levelsLow N P.bitDepth) P.smoothing) (quant x (levelsHigh N P.bitDepth) P.smoothing)
    (frac N P.bitDepth)

/-- S4, symmetric mode: sign and magnitude split, the magnitude quantized on the same grid
(43_bitcrusher_channel.md R133). -/
def crushSym (N : NumSys α) (P : Snapshot α) (w : α) : α :=
  N.mul (sign N w) (crossfade N (quantize N) P (N.abs w))

/-- S4, asymmetric mode: the full bipolar range through `ZX` (43_bitcrusher_channel.md R134). -/
def crushAsym (N : NumSys α) (cfg : Config α) (P : Snapshot α) (w : α) : α := crossfade N cfg.zx P w

/-- S4 (43_bitcrusher_channel.md R126). -/
def crush (N : NumSys α) (cfg : Config α) (P : Snapshot α) (w : α) : α :=
  if P.symmetric then crushSym N P w else crushAsym N cfg P w

/-- S5: `u`, the quantized signal unwarped (43_bitcrusher_channel.md R139). -/
def crushed (N : NumSys α) (cfg : Config α) (P : Snapshot α) (w : α) : α :=
  unwarp N cfg (crush N cfg P w) (gammaValue cfg P.gammaParam)

/-- S6, state: `ENV[c]` after the sample, written only when `AUTO = 1` (43_bitcrusher_channel.md R140). -/
def nextEnv (N : NumSys α) (f : Follower α) (P : Snapshot α) (w : α) : α :=
  if P.autoGain then envUpdateLevel N f w else f.env

/-- S6, signal: `y = u × gain` when `AUTO = 1`, else `y = u` (43_bitcrusher_channel.md R140). -/
def gainStage (N : NumSys α) (cfg : Config α) (f : Follower α) (P : Snapshot α) (w u : α) : α :=
  if P.autoGain then N.mul u (envGain N cfg (envUpdateLevel N f w)) else u

/-- `PROCESS_CH(c, x, P)`: the new level of the lane and its output sample (43_bitcrusher_channel.md R126). -/
def processCh (N : NumSys α) (cfg : Config α) (f : Follower α) (x : α) (P : Snapshot α) : α × α :=
  let x0 := sanitiseSample N x
  let Q := clampSnapshot N cfg P
  let w := warped N cfg Q x0
  let u := crushed N cfg Q w
  let y := gainStage N cfg f Q w u
  (nextEnv N f Q w, clamp N y (toF N (-1)) (toF N 1))

end Sys2Proof.Machine
end

