-- ==== Sys2Proof/Machine/Float.lean ====
section
/-! DEFINITION. IEEE 754 binary32, the datapath reading's NUM (00_scope.md R13): every operator rounds once, to nearest,
ties to even; subnormals are kept; comparisons are the ordered ones; no flags, no traps.

A finite value is an integer multiple of 2^-149, so magnitudes are natural numbers in that unit. The low 31 bits of a
word, as a number, grow with the magnitude they stand for; `magVal` reads them and `roundMag` is its rounding inverse. -/

namespace Sys2Proof.Machine

/-- The low 31 bits: exponent and fraction fields. -/
def magBits (w : Word) : Nat := w.toNat % 2 ^ 31

/-- The sign bit. -/
def signBit (w : Word) : Bool := w.getLsbD 31

/-- The low 31 bits of an infinity: exponent field all ones, fraction zero. -/
def infBits : Nat := 0x7F800000

/-- A NaN: exponent field all ones, fraction not zero. -/
def fIsNaN (w : Word) : Bool := infBits < magBits w

/-- Neither NaN nor an infinity (43_bitcrusher_channel.md R145 row 1). -/
def fIsFinite (w : Word) : Bool := magBits w < infBits

/-- An infinity of either sign. -/
def fIsInf (w : Word) : Bool := magBits w == infBits

/-- A zero of either sign. -/
def fIsZero (w : Word) : Bool := magBits w == 0

/-- The quiet NaN an invalid operation gives; never produced after stage S0 (00_scope.md R14; log entry 15). -/
def qNaN : Word := 0x7FC00000#32

/-- The magnitude of the low 31 bits `m`, in units of 2^-149: subnormals (exponent field 0) are their fraction; a normal
one is its 24-bit significand scaled. The bits of an infinity read as 2^277, above every finite magnitude. -/
def magVal (m : Nat) : Nat :=
  if m / 2 ^ 23 = 0 then m else (2 ^ 23 + m % 2 ^ 23) * 2 ^ (m / 2 ^ 23 - 1)

/-- The value of a word that is not a NaN, in units of 2^-149. -/
def fVal (w : Word) : Int := if signBit w then -(magVal (magBits w) : Int) else (magVal (magBits w) : Int)

/-- `n / d` rounded to the nearest integer, ties to even. -/
def roundHalfEven (n d : Nat) : Nat :=
  let q := n / d
  let r := n % d
  if 2 * r < d then q else if d < 2 * r then q + 1 else q + q % 2

/-- The low 31 bits of the binary32 magnitude nearest to `n / d` (in units of 2^-149), ties to even, overflowing to the
infinity: `k` is the number of low bits a 24-bit significand cannot keep. -/
def roundMag (n d : Nat) : Nat :=
  let k := Nat.log2 (n / d) - 23
  min (k * 2 ^ 23 + roundHalfEven n (d * 2 ^ k)) infBits

/-- A word from its sign and its low 31 bits. -/
def ofSignMag (neg : Bool) (m : Nat) : Word := BitVec.ofNat 32 (if neg then 2 ^ 31 + m else m)

/-- Unary minus flips the sign bit. -/
def fNeg (a : Word) : Word := ofSignMag (!signBit a) (magBits a)

/-- Magnitude clears the sign bit (00_scope.md R17). -/
def fAbs (a : Word) : Word := ofSignMag false (magBits a)

/-- Addition. An exact zero sum is `+0` unless both operands are negative (a sum of two `−0`). -/
def fAdd (a b : Word) : Word :=
  if fIsNaN a || fIsNaN b then qNaN
  else if fIsInf a then (if fIsInf b && (signBit a != signBit b) then qNaN else a)
  else if fIsInf b then b
  else
    let z := fVal a + fVal b
    if z = 0 then ofSignMag (signBit a && signBit b) 0
    else ofSignMag (decide (z < 0)) (roundMag z.natAbs 1)

/-- Subtraction. -/
def fSub (a b : Word) : Word := fAdd a (fNeg b)

/-- Multiplication. -/
def fMul (a b : Word) : Word :=
  if fIsNaN a || fIsNaN b then qNaN
  else if fIsInf a || fIsInf b then
    if fIsZero a || fIsZero b then qNaN else ofSignMag (signBit a != signBit b) infBits
  else ofSignMag (signBit a != signBit b) (roundMag (magVal (magBits a) * magVal (magBits b)) (2 ^ 149))

/-- Division. -/
def fDiv (a b : Word) : Word :=
  if fIsNaN a || fIsNaN b then qNaN
  else if fIsInf a then (if fIsInf b then qNaN else ofSignMag (signBit a != signBit b) infBits)
  else if fIsInf b then ofSignMag (signBit a != signBit b) 0
  else if fIsZero b then (if fIsZero a then qNaN else ofSignMag (signBit a != signBit b) infBits)
  else ofSignMag (signBit a != signBit b) (roundMag (magVal (magBits a) * 2 ^ 149) (magVal (magBits b)))

/-- `<`, the ordered comparison; `−0 < +0` is false. -/
def fLt (a b : Word) : Bool := !fIsNaN a && !fIsNaN b && decide (fVal a < fVal b)

/-- `≤`, the ordered comparison; `+0 ≤ −0` is true. -/
def fLe (a b : Word) : Bool := !fIsNaN a && !fIsNaN b && decide (fVal a ≤ fVal b)

/-- `==`, the ordered comparison; `−0 == +0`. Samples are compared by it (92_eei_decisions.md D31). -/
def fEq (a b : Word) : Bool := !fIsNaN a && !fIsNaN b && decide (fVal a = fVal b)

/-- Greatest integer not above a finite value. -/
def fFloor (a : Word) : Int := fVal a / 2 ^ 149

/-- Least integer not below a finite value. -/
def fCeil (a : Word) : Int := -(-fVal a / 2 ^ 149)

/-- The binary32 nearest to the fraction `n / d`: literals, and integers with `d = 1` (00_scope.md R13, R17). -/
def fLit (n : Int) (d : Nat) : Word := ofSignMag (decide (n < 0)) (roundMag (n.natAbs * 2 ^ 149) d)

/-- The datapath reading's number system (00_scope.md R13). -/
def b32 : NumSys Word where
  lit := fLit
  add := fAdd
  sub := fSub
  mul := fMul
  div := fDiv
  neg := fNeg
  abs := fAbs
  lt := fLt
  le := fLe
  floor := fFloor
  ceil := fCeil
  isFinite := fIsFinite
  isNaN := fIsNaN

end Sys2Proof.Machine
end

