-- ==== Sys2Proof/Machine/Hardware.lean ====
section
/-! DEFINITION. The machine's configuration: binary32, the free instances of `POW`, `EXP`, `EXP10`, `ZX` with the named
properties of 00_scope.md R15 and 43_bitcrusher_channel.md R135 imposed on them, and the values the spec takes for the
other open parameters (00_scope.md R10); and one lane's work on a frame, with the configuration as its argument.

Each `...Of raw` is a conforming instance whatever `raw` is, and is `raw` itself, as a function of values, where `raw`
conforms: nothing is chosen but where the spec fixes the value. Monotonicity is imposed by running along the words in the
order of their magnitudes and keeping the greatest (the least) value met so far, which changes no monotone instance.
[ZX-bound] is not imposed: the spec states it for the reference reading (log entries 2 and 3). -/

namespace Sys2Proof.Machine

/-- `v` with a negative zero read as zero: the two zeros are one operand value (00_scope.md R13, `−0 == +0`). -/
def plusZero (v : Word) : Word := if fIsZero v then 0#32 else v

/-- The nearest value to `v` in `[lo, hi]`; a NaN gives `lo`. -/
def limitTo (v lo hi : Word) : Word := clampP b32 (fun l _ => l) v lo hi

/-- The largest finite binary32. -/
def maxFinite : Word := 0x7F7FFFFF#32

/-- The greatest of the values `f 0 .. f m`. -/
def runMax (f : Nat → Word) : Nat → Word
  | 0 => f 0
  | m + 1 => if fLe (f (m + 1)) (runMax f m) then runMax f m else f (m + 1)

/-- The least of the values `f 0 .. f m`. -/
def runMin (f : Nat → Word) : Nat → Word
  | 0 => f 0
  | m + 1 => if fLt (f (m + 1)) (runMin f m) then f (m + 1) else runMin f m

/-- The power of the base whose bits are `m` (a base that is not negative), before monotonicity is imposed: [POW-zero],
[POW-one], [POW-range], [POW-finite]; a base above one has a power of at least one, by [POW-mono] and [POW-one]. -/
def powAt (raw : Word → Word → Word) (e : Word) (m : Nat) : Word :=
  if m = 0 then 0#32
  else if m < magBits (fLit 1 1) then limitTo (raw (ofSignMag false m) e) 0#32 (fLit 1 1)
  else if m = magBits (fLit 1 1) then fLit 1 1
  else limitTo (raw (ofSignMag false m) e) (fLit 1 1) maxFinite

/-- `POW` over a free instance: all the named properties hold (00_scope.md R15). -/
def powOf (raw : Word → Word → Word) (b e : Word) : Word :=
  if fIsZero b then 0#32
  else if fEq b (fLit 1 1) then fLit 1 1
  else if fEq e (fLit 1 1) then b
  else runMax (powAt raw e) (magBits b)

/-- `EXP10` of the operand above zero whose bits are `m`, before monotonicity is imposed: at least `EXP10(0) = 1`. -/
def exp10Above (raw : Word → Word) (m : Nat) : Word :=
  if m = 0 then fLit 1 1 else limitTo (raw (ofSignMag false m)) (fLit 1 1) (fLit 10 1)

/-- `EXP10` of the operand below zero whose magnitude bits are `m`, before monotonicity is imposed: at most `EXP10(0)`. -/
def exp10Below (raw : Word → Word) (m : Nat) : Word :=
  if m = 0 then fLit 1 1 else limitTo (raw (ofSignMag true m)) (fLit 1 10) (fLit 1 1)

/-- `EXP10` over a free instance: all the named properties hold (00_scope.md R15). An operand outside `[−1, 1]` never
occurs (43_bitcrusher_channel.md R129, 41_gammawarp.md R100). -/
def exp10Of (raw : Word → Word) (v : Word) : Word :=
  if fIsZero v then fLit 1 1
  else if signBit v then runMin (exp10Below raw) (magBits v)
  else runMax (exp10Above raw) (magBits v)

/-- `EXP` over a free instance: [EXP-range] holds (00_scope.md R15). An operand above zero never occurs. -/
def expOf (raw : Word → Word) (v : Word) : Word :=
  if fIsZero v then fLit 1 1
  else if fIsInf v && signBit v then 0#32
  else if fLt v 0#32 then limitTo (raw v) 0#32 (fLit 1 1)
  else raw v

/-- `ZX` over a free instance: [ZX-det], [ZX-one], [ZX-local] hold, and [ZX-range] inside the zone
(43_bitcrusher_channel.md R135). -/
def zxOf (raw : Word → Nat → Word → Word) (w : Word) (L : Nat) (s : Word) : Word :=
  if L = 1 then 0#32
  else if outsideZone b32 w L then quantize b32 w L s
  else limitTo (raw (plusZero w) L (plusZero s)) (fLit (-1) 1) (fLit 1 1)

/-- The configuration of the machine. `GAIN_CEIL = 200`, `NANP` the lower bound and `PREGAIN_IN_AUTO = applied` are the
values the spec takes (00_scope.md R10; log entries 4, 5 and 6); the byte order of an outer transport is free. Every
operation up to the step takes the configuration as an argument (`laneStepWith` .. `stepWith`), and this is the one
`exec` and `step` give it. -/
def hw : Config Word where
  pow := powOf Config.powRaw
  exp := expOf Config.expRaw
  exp10 := exp10Of Config.exp10Raw
  zx := zxOf Config.zxRaw
  gainCeil := fLit 200 1
  nanp := fun lo _ => lo
  pregainInAuto := .applied
  wireEndian := Config.wireOrder

/-- What decides the sign bit of a zero output of a lane: the operands as stage S0 leaves them (nothing reads them before:
43_bitcrusher_channel.md R127, R128), and the follower only when `AUTO = 1` (10_state.md R24, 44_stereo_engine.md
R161). -/
def zeroSignOf (cfg : Config Word) (f : Follower Word) (x : Word) (P : Snapshot Word) : Bool :=
  Config.zeroSign (clampSnapshot b32 cfg P) (sanitiseSample b32 x) (if P.autoGain then some f else none)

/-- An output word: a zero's sign bit is not specified (93_implementation_defined.md U7), every other word is as
computed. -/
def settleZero (neg : Bool) (y : Word) : Word := if fIsZero y then ofSignMag neg 0 else y

/-- One lane's work on one PROC frame under the configuration `cfg`: `PROCESS_CH` in the datapath reading
(43_bitcrusher_channel.md R126). The lane's identity is no argument (10_state.md R24). -/
def laneStepWith (cfg : Config Word) (f : Follower Word) (x : Word) (P : Snapshot Word) : Follower Word × Word :=
  let r := processCh b32 cfg f x P
  ({ f with env := r.1 }, settleZero (zeroSignOf cfg f x P) r.2)

/-- One lane's work on one PROC frame of the machine. -/
def laneStep (f : Follower Word) (x : Word) (P : Snapshot Word) : Follower Word × Word := laneStepWith hw f x P

end Sys2Proof.Machine
end

