-- ==== Sys2Proof/Machine/State.lean ====
section
/-! DEFINITION. State: everything the spec gives BCQ (10_state.md R20), and what stands around it at the interface. -/

namespace Sys2Proof.Machine

/-- What the host does at a frame boundary (60_exceptions.md R190). -/
inductive HostEvent where
  /-- It presents one complete input frame on `CMD` (30_encoding.md R55). -/
  | frame (words : Frame)
  /-- It asserts the hardware reset pin (70_reset_and_hazards.md R200). -/
  | hardReset
  deriving DecidableEq, Repr

/-- The output frame of a PROC frame (30_encoding.md R61). -/
structure OutFrame where
  /-- `Y[0]`, the left output sample. -/
  y0 : Word
  /-- `Y[1]`, the right output sample. -/
  y1 : Word
  deriving DecidableEq, Repr

structure State where
  /-- `READY` (10_state.md R21). -/
  ready : Bool
  /-- `ENV[L]`, `ATK[L]`, `REL[L]` (10_state.md R22, R23). -/
  laneL : Follower Word
  /-- `ENV[R]`, `ATK[R]`, `REL[R]` (10_state.md R22, R23). -/
  laneR : Follower Word
  /-- `CMD`: what the host issues from here on, the next first (10_state.md R25; log entry 10). -/
  cmd : List HostEvent
  /-- `OUT`: the output frame of the frame executed last, if it had one (30_encoding.md R55; log entry 11). -/
  out : Option OutFrame
  /-- The stream index: how many frames were accepted; bookkeeping that no operation reads (10_state.md R25). -/
  n : Nat
  /-- The model's own: how many free words were drawn (log entry 8). -/
  draws : Nat
  deriving DecidableEq, Repr

/-- BCQ raises nothing (60_exceptions.md R180): no step ends in a fault. -/
inductive Fault where
  deriving DecidableEq, Repr

/-- Why a frame has no meaning (60_exceptions.md R186): it takes no step, changes nothing and gives no output. Each is
safe: the spec gives the frame no behaviour, and no claim covers a run that holds one. -/
inductive Refusal where
  /-- The decoder: an empty frame, or a length its command word does not have. Safe. -/
  | frameLength
  /-- The decoder: `OPC` is not 0x01, 0x02 or 0x03. Safe. -/
  | reservedOpcode
  /-- The decoder: a reserved bit is set. Safe. -/
  | reservedBits
  /-- `INIT` with a sample rate that is NaN, infinite, zero or negative (44_stereo_engine.md R152). Safe. -/
  | badSampleRate
  /-- `PROC` or `TDWN` while `READY = 0` (44_stereo_engine.md R156, R160). Safe. -/
  | notReady
  /-- An instruction whose arm of exec has no meaning yet: none. Safe. -/
  | notModelled (mnemonic : String)
  deriving DecidableEq, Repr

/-- The registers of a lane at power-on. The spec leaves them unspecified (10_state.md R34); DESIGN CHOICE zero (log
entry 7). -/
def resetLane : Follower Word := { env := 0, atk := 0, rel := 0 }

/-- The machine right after hardware reset (10_state.md R34): `READY = 0`, `n = 0`, nothing issued, nothing on `OUT`. -/
def State.reset : State :=
  { ready := false, laneL := resetLane, laneR := resetLane, cmd := [], out := none, n := 0, draws := 0 }

end Sys2Proof.Machine
end

