-- ==== Sys2Proof/Machine/Ops.lean ====
section
/-! DEFINITION. The named operations on State that the meanings share: lane and flag writes, the common part of PROC, and
what happens at a frame boundary. There is no memory (20_memory.md R40), and taking an exception does not exist here
(60_exceptions.md R180, R185): what the spec has in its place is the refusal (60_exceptions.md R186). -/

namespace Sys2Proof.Machine

/-- What a meaning answers. -/
abbrev Result := Host.Outcome State Fault Refusal

/-- The two lanes (20_memory.md R41). -/
inductive Lane where
  | L
  | R
  deriving DecidableEq, Repr

/-- The follower registers of lane `c`. -/
def State.lane (s : State) : Lane → Follower Word
  | .L => s.laneL
  | .R => s.laneR

/-- The sample a frame gives lane `c` (44_stereo_engine.md R154). -/
def laneInput (xL : Word) (xR : Option Word) : Lane → Word
  | .L => xL
  | .R => rightInput xL xR

/-- Both lanes and the output of a frame written together (20_memory.md R44). -/
def State.withLanes (s : State) (l r : Follower Word) (out : Option OutFrame) : State :=
  { s with laneL := l, laneR := r, out := out }

/-- `READY` written. -/
def State.withReady (s : State) (b : Bool) : State := { s with ready := b }

/-- A follower whose three registers are free words, three draws from `d` on. -/
def freeLane (d : Nat) : Follower Word :=
  { env := Config.freeWord d, atk := Config.freeWord (d + 1), rel := Config.freeWord (d + 2) }

/-- The six follower registers left unspecified, six draws (10_state.md R34). -/
def State.losingLanes (s : State) : State :=
  { s with laneL := freeLane s.draws, laneR := freeLane (s.draws + 3), out := none, draws := s.draws + 6 }

/-- The lanes' work on a PROC frame with snapshot `P` (44_stereo_engine.md R153): each lane runs on its own follower and
its own copy of the sample; the states and the two output words are written together. -/
def State.afterProcWith (cfg : Config Word) (s : State) (P : Snapshot Word) (xL : Word) (xR : Option Word) : State :=
  let l := laneStepWith cfg s.laneL (laneInput xL xR .L) P
  let r := laneStepWith cfg s.laneR (laneInput xL xR .R) P
  s.withLanes l.1 r.1 (some { y0 := l.2, y1 := r.2 })

/-- The lanes' work on a PROC frame of the machine. -/
def State.afterProc (s : State) (P : Snapshot Word) (xL : Word) (xR : Option Word) : State :=
  s.afterProcWith hw P xL xR

/-- `INIT sr` under the configuration `cfg` (44_stereo_engine.md R151): accepted whatever `READY` is; a sample rate that
is not finite and above zero is refused (R152). -/
def execInitWith (cfg : Config Word) (sr : Word) (s : State) : Result :=
  if rateValid b32 sr then
    .next ((s.withLanes (envInit b32 cfg sr) (envInit b32 cfg sr) none).withReady true)
  else .refused .badSampleRate

/-- The common part of every PROC row under the configuration `cfg`, with the three flag bits as arguments
(44_stereo_engine.md R153). -/
def execProcWith (cfg : Config Word) (sym auto : Bool) (bd gp sm gdb xL : Word) (xR : Option Word) (s : State) :
    Result :=
  if s.ready then
    .next (s.afterProcWith cfg { bitDepth := bd, gammaParam := gp, smoothing := sm, gainDb := gdb, autoGain := auto,
                                 symmetric := sym } xL xR)
  else .refused .notReady

/-- The common part of every PROC row of the machine. -/
def execProc (sym auto : Bool) (bd gp sm gdb xL : Word) (xR : Option Word) (s : State) : Result :=
  execProcWith hw sym auto bd gp sm gdb xL xR s

/-- The refusal a rejected frame ends in (60_exceptions.md R186). -/
def refusalOf : DecodeReject → Refusal
  | .frameLength => .frameLength
  | .reservedOpcode => .reservedOpcode
  | .reservedBits => .reservedBits

/-- What the host presents at a frame boundary. -/
inductive Fetched where
  /-- Nothing: the block holds its state (60_exceptions.md R192). -/
  | nothing
  /-- The reset pin. -/
  | pin
  /-- A frame the decoder refuses. -/
  | rejected (r : DecodeReject)
  /-- A command. -/
  | command (i : Instr)
  deriving DecidableEq, Repr

/-- The next thing on `CMD`, decoded (30_encoding.md R67). -/
def State.fetch (s : State) : Fetched :=
  match s.cmd with
  | [] => .nothing
  | .hardReset :: _ => .pin
  | .frame ws :: _ =>
    match decode ws with
    | .ok i => .command i
    | .error r => .rejected r

/-- The event at the head of `CMD` consumed. -/
def State.consumed (s : State) : State := { s with cmd := s.cmd.tail }

/-- An accepted frame consumed: the stream index advances by exactly 1 (10_state.md R25). -/
def State.accepted (s : State) : State := { s.consumed with n := s.n + 1 }

/-- Hardware reset (70_reset_and_hazards.md R200, 10_state.md R34). -/
def State.hardReset (s : State) : State := { s.losingLanes with ready := false, n := 0 }

/-- The state a meaning ends in, with the frame accepted; a refused frame has none. -/
def acceptResult : Result → Result
  | .next t => .next t.accepted
  | .fault r => .fault r
  | .refused r => .refused r

/-- One step of a machine whose commands mean `run`: nothing presented, the block holds its state (60_exceptions.md
R192); the reset pin, hardware reset (70_reset_and_hazards.md R200); a frame, refused by the decoder, or its command
executed and, if not refused, accepted (60_exceptions.md R187). -/
def stepBy (run : Instr → State → Result) (s : State) : Result :=
  match s.fetch with
  | .nothing => .next s
  | .pin => .next s.hardReset.consumed
  | .rejected r => .refused (refusalOf r)
  | .command i => acceptResult (run i s)

end Sys2Proof.Machine
end

