-- ==== Sys2Proof/Machine/Engine.lean ====
section
/-! DEFINITION. The meanings of the ten commands (44_stereo_engine.md R151, R160 to R168), one definition each, and the whole
engine with the open parameters as an argument. -/

namespace Sys2Proof.Machine

/-- `INIT sr` (44_stereo_engine.md R151, R152). -/
def execInit (sr : Word) (s : State) : Result := execInitWith hw sr s

/-- `PROC.ASYM.MAN.MONO` (44_stereo_engine.md R161). -/
def execProcAsymManMono (bd gp sm gdb xL : Word) (s : State) : Result :=
  execProc false false bd gp sm gdb xL none s

/-- `PROC.SYM.MAN.MONO` (44_stereo_engine.md R162). -/
def execProcSymManMono (bd gp sm gdb xL : Word) (s : State) : Result :=
  execProc true false bd gp sm gdb xL none s

/-- `PROC.ASYM.AUTO.MONO` (44_stereo_engine.md R163). -/
def execProcAsymAutoMono (bd gp sm gdb xL : Word) (s : State) : Result :=
  execProc false true bd gp sm gdb xL none s

/-- `PROC.SYM.AUTO.MONO` (44_stereo_engine.md R164). -/
def execProcSymAutoMono (bd gp sm gdb xL : Word) (s : State) : Result :=
  execProc true true bd gp sm gdb xL none s

/-- `PROC.ASYM.MAN.ST` (44_stereo_engine.md R165). -/
def execProcAsymManSt (bd gp sm gdb xL xR : Word) (s : State) : Result :=
  execProc false false bd gp sm gdb xL (some xR) s

/-- `PROC.SYM.MAN.ST` (44_stereo_engine.md R166). -/
def execProcSymManSt (bd gp sm gdb xL xR : Word) (s : State) : Result :=
  execProc true false bd gp sm gdb xL (some xR) s

/-- `PROC.ASYM.AUTO.ST` (44_stereo_engine.md R167). -/
def execProcAsymAutoSt (bd gp sm gdb xL xR : Word) (s : State) : Result :=
  execProc false true bd gp sm gdb xL (some xR) s

/-- `PROC.SYM.AUTO.ST` (44_stereo_engine.md R168). -/
def execProcSymAutoSt (bd gp sm gdb xL xR : Word) (s : State) : Result :=
  execProc true true bd gp sm gdb xL (some xR) s

/-- `TDWN` (44_stereo_engine.md R160): refused when there is nothing to tear down. -/
def execTdwn (s : State) : Result :=
  if s.ready then .next (s.losingLanes.withReady false) else .refused .notReady

/-- Every command under the configuration `cfg`: the open parameters of 00_scope.md R10 stay an argument, and `exec` is
the case of the machine's configuration. -/
def execWith (cfg : Config Word) : Instr → State → Result
  | .init sr => execInitWith cfg sr
  | .procAsymManMono bd gp sm gdb xL => execProcWith cfg false false bd gp sm gdb xL none
  | .procSymManMono bd gp sm gdb xL => execProcWith cfg true false bd gp sm gdb xL none
  | .procAsymAutoMono bd gp sm gdb xL => execProcWith cfg false true bd gp sm gdb xL none
  | .procSymAutoMono bd gp sm gdb xL => execProcWith cfg true true bd gp sm gdb xL none
  | .procAsymManSt bd gp sm gdb xL xR => execProcWith cfg false false bd gp sm gdb xL (some xR)
  | .procSymManSt bd gp sm gdb xL xR => execProcWith cfg true false bd gp sm gdb xL (some xR)
  | .procAsymAutoSt bd gp sm gdb xL xR => execProcWith cfg false true bd gp sm gdb xL (some xR)
  | .procSymAutoSt bd gp sm gdb xL xR => execProcWith cfg true true bd gp sm gdb xL (some xR)
  | .tdwn => execTdwn

/-- One step under the configuration `cfg`; `step` is the case of the machine's configuration. -/
def stepWith (cfg : Config Word) (s : State) : Result := stepBy (execWith cfg) s

end Sys2Proof.Machine
end

