-- ==== Sys2Proof/Machine/Dispatch.lean ====
section
/-! DEFINITION. The dispatch of a command to its meaning: one arm per row of spec/opcode_table.json. -/

namespace Sys2Proof.Machine

def exec (i : Instr) (s : State) : Host.Outcome State Fault Refusal :=
  match i with
  | .init sr => Sys2Proof.Machine.execInit sr s
  | .procAsymManMono bd gp sm gdb xL => Sys2Proof.Machine.execProcAsymManMono bd gp sm gdb xL s
  | .procSymManMono bd gp sm gdb xL => Sys2Proof.Machine.execProcSymManMono bd gp sm gdb xL s
  | .procAsymAutoMono bd gp sm gdb xL => Sys2Proof.Machine.execProcAsymAutoMono bd gp sm gdb xL s
  | .procSymAutoMono bd gp sm gdb xL => Sys2Proof.Machine.execProcSymAutoMono bd gp sm gdb xL s
  | .procAsymManSt bd gp sm gdb xL xR => Sys2Proof.Machine.execProcAsymManSt bd gp sm gdb xL xR s
  | .procSymManSt bd gp sm gdb xL xR => Sys2Proof.Machine.execProcSymManSt bd gp sm gdb xL xR s
  | .procAsymAutoSt bd gp sm gdb xL xR => Sys2Proof.Machine.execProcAsymAutoSt bd gp sm gdb xL xR s
  | .procSymAutoSt bd gp sm gdb xL xR => Sys2Proof.Machine.execProcSymAutoSt bd gp sm gdb xL xR s
  | .tdwn => Sys2Proof.Machine.execTdwn s

end Sys2Proof.Machine
end

