-- ==== Sys2Proof/Machine/Step.lean ====
section
/-! DEFINITION. One step: what the host presents at a frame boundary is consumed whole and executed to completion
(20_memory.md R44, R47). -/

namespace Sys2Proof.Machine

/-- One step of the machine. -/
def step (s : State) : Host.Outcome State Fault Refusal := stepBy exec s

/-- The row's frame, operand words of zeros, as the next thing the host presents; nothing else changes. -/
def State.withFetchWord (s : State) (nbits w : Nat) : State :=
  { s with cmd := .frame (tableFrame nbits w) :: s.cmd }

end Sys2Proof.Machine
end

