-- ==== Sys2Proof/Machine/Exact.lean ====
section
/-! DEFINITION. The reference reading's NUM (00_scope.md R12): exact `+ − × ÷`, exact `floor`, `ceil` and comparisons,
over any ordered field with a floor (the real numbers in statements; the rationals in tests, where it computes). Every
value is finite and none is a NaN: NaN and infinities are frame operands of the datapath reading only (00_scope.md R14).
The machine does not use this file; statements "in the reference reading" do. -/

namespace Sys2Proof.Machine

/-- The reference reading's number system over an ordered field. -/
def exactNum (K : Type) [Field K] [LinearOrder K] [FloorRing K] : NumSys K where
  lit n d := (n : K) / (d : K)
  add a b := a + b
  sub a b := a - b
  mul a b := a * b
  div a b := a / b
  neg a := -a
  abs a := if a < 0 then -a else a
  lt a b := decide (a < b)
  le a b := decide (a ≤ b)
  floor a := ⌊a⌋
  ceil a := ⌈a⌉
  isFinite _ := true
  isNaN _ := false

end Sys2Proof.Machine
end

