-- ==== Sys2Proof/Machine/Conforming.lean ====
section
/-! DEFINITION. The named properties of the open functions, which are all that a claim may assume of them (00_scope.md
R15, 43_bitcrusher_channel.md R135), for either reading, and the configurations of the reference reading. The machine does
not use this file: statements for every conforming instance do. -/

namespace Sys2Proof.Machine

variable {α : Type}

/-- Equal values: `a ≤ b` and `b ≤ a`. The two zeros are one value, a NaN is none (00_scope.md R13). -/
def sameValue (N : NumSys α) (a b : α) : Bool := N.le a b && N.le b a

/-- `lo ≤ v ≤ hi`. -/
def within (N : NumSys α) (v lo hi : α) : Bool := N.le lo v && N.le v hi

/-- A level count BCQ uses, `2^b − 1` with `b` in `1 .. 16` (00_scope.md R16). -/
def IsLevelCount (L : Nat) : Prop := ∃ b : Nat, 1 ≤ b ∧ b ≤ 16 ∧ L = 2 ^ b - 1

/-- The named properties of `POW` that concern one power (00_scope.md R15). -/
structure PowNamed (N : NumSys α) (pow : α → α → α) : Prop where
  /-- [POW-zero] -/
  zero : ∀ b e, sameValue N b (toF N 0) = true → N.lt (toF N 0) e = true → sameValue N (pow b e) (toF N 0) = true
  /-- [POW-one] -/
  one : ∀ b e, sameValue N b (toF N 1) = true → N.lt (toF N 0) e = true → sameValue N (pow b e) (toF N 1) = true
  /-- [POW-id] -/
  id : ∀ b e, N.le (toF N 0) b = true → sameValue N e (toF N 1) = true → sameValue N (pow b e) b = true
  /-- [POW-range] -/
  range : ∀ b e, within N b (toF N 0) (toF N 1) = true → N.lt (toF N 0) e = true →
    within N (pow b e) (toF N 0) (toF N 1) = true
  /-- [POW-finite] -/
  finite : ∀ b e, N.isFinite b = true → N.le (toF N 0) b = true → within N e (N.lit 1 10) (toF N 10) = true →
    N.isFinite (pow b e) = true

/-- [POW-mono] (00_scope.md R15). -/
def PowMono (N : NumSys α) (pow : α → α → α) : Prop :=
  ∀ b₁ b₂ e, N.le (toF N 0) b₁ = true → N.le b₁ b₂ = true → N.lt (toF N 0) e = true →
    N.le (pow b₁ e) (pow b₂ e) = true

/-- [EXP10-zero] and [EXP10-range] (00_scope.md R15). -/
structure Exp10Named (N : NumSys α) (exp10 : α → α) : Prop where
  /-- [EXP10-zero] -/
  zero : ∀ v, sameValue N v (toF N 0) = true → sameValue N (exp10 v) (toF N 1) = true
  /-- [EXP10-range] -/
  range : ∀ v, within N v (toF N (-1)) (toF N 1) = true →
    within N (exp10 v) (N.lit 1 10) (toF N 10) = true ∧ N.isFinite (exp10 v) = true

/-- [EXP10-mono] (00_scope.md R15). -/
def Exp10Mono (N : NumSys α) (exp10 : α → α) : Prop :=
  ∀ v₁ v₂, N.le v₁ v₂ = true → N.le (exp10 v₁) (exp10 v₂) = true

/-- [EXP-range] (00_scope.md R15); the one value that is not above zero and not finite is `−∞`. -/
structure ExpNamed (N : NumSys α) (exp : α → α) : Prop where
  range : ∀ v, N.le v (toF N 0) = true → within N (exp v) (toF N 0) (toF N 1) = true
  negInf : ∀ v, N.le v (toF N 0) = true → N.isFinite v = false → sameValue N (exp v) (toF N 0) = true
  zero : ∀ v, sameValue N v (toF N 0) = true → sameValue N (exp v) (toF N 1) = true

/-- The operands of `ZX` that BCQ uses (43_bitcrusher_channel.md R135). -/
def ZxDomain (N : NumSys α) (w : α) (L : Nat) (s : α) : Prop :=
  within N w (toF N (-1)) (toF N 1) = true ∧ IsLevelCount L ∧ within N s (toF N 0) (toF N 1) = true

/-- [ZX-one], [ZX-local], and [ZX-range] inside the zone (43_bitcrusher_channel.md R135); [ZX-det] is that `zx` is a
function. Outside the zone [ZX-local] gives the value, which in binary32 can exceed the range by a rounding error
(43_bitcrusher_channel.md R146). -/
structure ZxNamed (N : NumSys α) (zx : α → Nat → α → α) : Prop where
  one : ∀ w s, sameValue N (zx w 1 s) (toF N 0) = true
  locality : ∀ w L s, ZxDomain N w L s → 3 ≤ L → outsideZone N w L = true →
    sameValue N (zx w L s) (quantize N w L s) = true
  range : ∀ w L s, ZxDomain N w L s → 3 ≤ L → outsideZone N w L = false →
    within N (zx w L s) (toF N (-1)) (toF N 1) = true ∧ N.isFinite (zx w L s) = true

/-- [ZX-bound], which the spec states for the reference reading (43_bitcrusher_channel.md R135). -/
def ZxBound (zx : ℝ → Nat → ℝ → ℝ) : Prop :=
  ∀ w L s, ZxDomain (exactNum ℝ) w L s → 3 ≤ L → |w| < gridStep (exactNum ℝ) L →
    |zx w L s - w| ≤ gridStep (exactNum ℝ) L / 2

/-- A configuration of the datapath reading that the spec allows: the named properties of the open functions, a ceiling
that is finite and at least 1, and a `NANP` that gives a value of the range (00_scope.md R10, R14, R15;
93_implementation_defined.md U6, U8). `PREGAIN_IN_AUTO` and `WIRE_ENDIAN` are any. -/
structure ConfigConforms (cfg : Config Word) : Prop where
  pow : PowNamed b32 cfg.pow
  powMono : PowMono b32 cfg.pow
  exp : ExpNamed b32 cfg.exp
  exp10 : Exp10Named b32 cfg.exp10
  exp10Mono : Exp10Mono b32 cfg.exp10
  zx : ZxNamed b32 cfg.zx
  gainCeilFinite : fIsFinite cfg.gainCeil = true
  gainCeilAtLeastOne : fLe (fLit 1 1) cfg.gainCeil = true
  nanp : ∀ lo hi, fLe lo hi = true → within b32 (cfg.nanp lo hi) lo hi = true

/-- A configuration of the reference reading: `POW`, `EXP`, `EXP10` are the real functions, and the other parameters have
the values the spec takes (00_scope.md R10, R12). `ZX` stays open, under its properties. -/
structure ReferenceConfig (cfg : Config ℝ) : Prop where
  pow : ∀ b e, cfg.pow b e = b ^ e
  exp : ∀ v, cfg.exp v = Real.exp v
  exp10 : ∀ v, cfg.exp10 v = (10 : ℝ) ^ v
  zx : ZxNamed (exactNum ℝ) cfg.zx
  zxBound : ZxBound cfg.zx
  gainCeil : cfg.gainCeil = 200
  nanp : ∀ lo hi, cfg.nanp lo hi = lo
  pregain : cfg.pregainInAuto = .applied

end Sys2Proof.Machine
end

