-- ==== Sys2Proof/Safety.lean ====
section
/-! DEFINITION. What counts as a safe state and a safe run, in the terms statements use: the follower invariant
(10_state.md R22, 42_envelope_follower.md R114), the output range (43_bitcrusher_channel.md R141), and a host that keeps
its duties (60_exceptions.md R190). -/

namespace Sys2Proof.Machine

/-- A word whose value is in `[0, 1]`. -/
def inUnit (v : Word) : Bool := fLe 0#32 v && fLe v (fLit 1 1)

/-- A finite word in `[−1, 1]`: what every output sample is (43_bitcrusher_channel.md R125, R141). -/
def inFullScale (y : Word) : Bool := fIsFinite y && fLe (fLit (-1) 1) y && fLe y (fLit 1 1)

/-- The follower invariant of a lane: the level finite and not negative, the coefficients in `[0, 1]`
(10_state.md R22). -/
def followerSafe (f : Follower Word) : Bool :=
  fIsFinite f.env && fLe 0#32 f.env && inUnit f.atk && inUnit f.rel

/-- The output frame on OUT, if there is one, is in range (30_encoding.md R61). -/
def outSafe : Option OutFrame → Bool
  | none => true
  | some y => inFullScale y.y0 && inFullScale y.y1

/-- The invariant of the machine: while `READY = 1` both followers are safe, and the output frame is in range. With
`READY = 0` the follower registers are unspecified and nothing is said of them (10_state.md R34). -/
def State.inv (s : State) : Bool :=
  (!s.ready || (followerSafe s.laneL && followerSafe s.laneR)) && outSafe s.out

/-- A PROC command. -/
def isProc : Instr → Bool
  | .init _ => false
  | .tdwn => false
  | .procAsymManMono _ _ _ _ _ => true
  | .procSymManMono _ _ _ _ _ => true
  | .procAsymAutoMono _ _ _ _ _ => true
  | .procSymAutoMono _ _ _ _ _ => true
  | .procAsymManSt _ _ _ _ _ _ => true
  | .procSymManSt _ _ _ _ _ _ => true
  | .procAsymAutoSt _ _ _ _ _ _ => true
  | .procSymAutoSt _ _ _ _ _ _ => true

/-- A PROC command with `AUTO = 0`. -/
def isManual : Instr → Bool
  | .init _ => false
  | .tdwn => false
  | .procAsymManMono _ _ _ _ _ => true
  | .procSymManMono _ _ _ _ _ => true
  | .procAsymAutoMono _ _ _ _ _ => false
  | .procSymAutoMono _ _ _ _ _ => false
  | .procAsymManSt _ _ _ _ _ _ => true
  | .procSymManSt _ _ _ _ _ _ => true
  | .procAsymAutoSt _ _ _ _ _ _ => false
  | .procSymAutoSt _ _ _ _ _ _ => false

/-- A PROC command of a mono source. -/
def isMono : Instr → Bool
  | .init _ => false
  | .tdwn => false
  | .procAsymManMono _ _ _ _ _ => true
  | .procSymManMono _ _ _ _ _ => true
  | .procAsymAutoMono _ _ _ _ _ => true
  | .procSymAutoMono _ _ _ _ _ => true
  | .procAsymManSt _ _ _ _ _ _ => false
  | .procSymManSt _ _ _ _ _ _ => false
  | .procAsymAutoSt _ _ _ _ _ _ => false
  | .procSymAutoSt _ _ _ _ _ _ => false

/-- The parameter snapshot of a PROC frame (44_stereo_engine.md R153). -/
def snapshotOf (sym auto : Bool) (bd gp sm gdb : Word) : Snapshot Word :=
  { bitDepth := bd, gammaParam := gp, smoothing := sm, gainDb := gdb, autoGain := auto, symmetric := sym }

/-- The warped signal of a lane with raw sample `x` and raw snapshot `P`: stages S0 to S2 (43_bitcrusher_channel.md
R126). -/
def laneWarped (x : Word) (P : Snapshot Word) : Word :=
  warped b32 hw (clampSnapshot b32 hw P) (sanitiseSample b32 x)

/-- The unwarped, quantized signal of a lane: stages S0 to S5 (43_bitcrusher_channel.md R126). -/
def laneCrushed (x : Word) (P : Snapshot Word) : Word := crushed b32 hw (clampSnapshot b32 hw P) (laneWarped x P)

/-- The output of a lane while `AUTO = 0`: stage S7 after S5 (43_bitcrusher_channel.md R140, R141). -/
def manualOut (x : Word) (P : Snapshot Word) : Word :=
  settleZero (Config.zeroSign (clampSnapshot b32 hw P) (sanitiseSample b32 x) none)
    (clamp b32 (laneCrushed x P) (fLit (-1) 1) (fLit 1 1))

/-- The follower of a lane after a frame with `AUTO = 1`: `ENV` alone is written, from the warped signal
(43_bitcrusher_channel.md R140). -/
def autoFollower (f : Follower Word) (x : Word) (P : Snapshot Word) : Follower Word :=
  { f with env := envUpdateLevel b32 f (laneWarped x P) }

/-- The output of a lane while `AUTO = 1`: the gain of the updated level, then stage S7 (43_bitcrusher_channel.md R140,
R141). -/
def autoOut (f : Follower Word) (x : Word) (P : Snapshot Word) : Word :=
  settleZero (Config.zeroSign (clampSnapshot b32 hw P) (sanitiseSample b32 x) (some f))
    (clamp b32 (fMul (laneCrushed x P) (envGain b32 hw (autoFollower f x P).env)) (fLit (-1) 1) (fLit 1 1))

/-- `READY` after an accepted command: `INIT` sets it, `TDWN` clears it, PROC keeps it (60_exceptions.md R189). -/
def readyAfter : Instr → Bool → Bool
  | .init _, _ => true
  | .tdwn, _ => false
  | .procAsymManMono _ _ _ _ _, b => b
  | .procSymManMono _ _ _ _ _, b => b
  | .procAsymAutoMono _ _ _ _ _, b => b
  | .procSymAutoMono _ _ _ _ _, b => b
  | .procAsymManSt _ _ _ _ _ _, b => b
  | .procSymManSt _ _ _ _ _ _, b => b
  | .procAsymAutoSt _ _ _ _ _ _, b => b
  | .procSymAutoSt _ _ _ _ _ _, b => b

/-- In which lifecycle state a command is accepted: `UNINIT` takes only `INIT`, `READY` takes all three, an `INIT` always
with a valid rate (60_exceptions.md R189). -/
def admitted (ready : Bool) (i : Instr) : Bool :=
  match i with
  | .init sr => positiveFiniteWord sr
  | .tdwn => ready
  | .procAsymManMono _ _ _ _ _ => ready
  | .procSymManMono _ _ _ _ _ => ready
  | .procAsymAutoMono _ _ _ _ _ => ready
  | .procSymAutoMono _ _ _ _ _ => ready
  | .procAsymManSt _ _ _ _ _ _ => ready
  | .procSymManSt _ _ _ _ _ _ => ready
  | .procAsymAutoSt _ _ _ _ _ _ => ready
  | .procSymAutoSt _ _ _ _ _ _ => ready

/-- A host that keeps its duties, from lifecycle state `ready` on: every frame it issues is the encoding of a command
that state admits; hardware reset it may assert at any boundary (60_exceptions.md R190). -/
def dutiful (ready : Bool) : List HostEvent → Prop
  | [] => True
  | .hardReset :: rest => dutiful false rest
  | .frame ws :: rest => ∃ i, ws = encode i ∧ admitted ready i = true ∧ dutiful (readyAfter i ready) rest

/-- A command as lane `c` sees it: the mono row of the same flags with the lane's own sample; `INIT` and `TDWN` are the
same to both lanes (44_stereo_engine.md R154, R157). -/
def laneView (c : Lane) : Instr → Instr
  | .init sr => .init sr
  | .procAsymManMono bd gp sm gdb xL => .procAsymManMono bd gp sm gdb xL
  | .procSymManMono bd gp sm gdb xL => .procSymManMono bd gp sm gdb xL
  | .procAsymAutoMono bd gp sm gdb xL => .procAsymAutoMono bd gp sm gdb xL
  | .procSymAutoMono bd gp sm gdb xL => .procSymAutoMono bd gp sm gdb xL
  | .procAsymManSt bd gp sm gdb xL xR => .procAsymManMono bd gp sm gdb (laneInput xL (some xR) c)
  | .procSymManSt bd gp sm gdb xL xR => .procSymManMono bd gp sm gdb (laneInput xL (some xR) c)
  | .procAsymAutoSt bd gp sm gdb xL xR => .procAsymAutoMono bd gp sm gdb (laneInput xL (some xR) c)
  | .procSymAutoSt bd gp sm gdb xL xR => .procSymAutoMono bd gp sm gdb (laneInput xL (some xR) c)
  | .tdwn => .tdwn

/-- Two host events that lane `c` cannot tell apart. -/
def sameForLane (c : Lane) : HostEvent → HostEvent → Prop
  | .hardReset, .hardReset => True
  | .frame a, .frame b => ∃ i j, a = encode i ∧ b = encode j ∧ laneView c i = laneView c j
  | .hardReset, .frame _ => False
  | .frame _, .hardReset => False

/-- The output word of lane `c`. -/
def OutFrame.lane (y : OutFrame) : Lane → Word
  | .L => y.y0
  | .R => y.y1

/-- `v` is the binary32 nearest the fraction `n / d` of units `2^-149`: no finite word is nearer, and of two equally near
values the one with an even significand is taken. An infinity counts as the next power of two, as rounding to nearest
has it. -/
def NearestTo (v : Word) (n : Int) (d : Nat) : Prop :=
  fIsNaN v = false ∧ ∀ w : Word, fIsFinite w = true →
    |fVal v * d - n| ≤ |fVal w * d - n| ∧ (|fVal v * d - n| = |fVal w * d - n| → fVal w ≠ fVal v → magBits v % 2 = 0)

end Sys2Proof.Machine
end

