-- ==== Sys2Proof/Certificates/Slice0/Obligations.lean ====
section
/-! DEFINITION. The statements for the provers. "Model's choice" in a docstring marks a clause that rests on an entry of
the assumption log and not on a rule of the spec. -/

open Sys2Proof Sys2Proof.Machine

/-! ### Encoding -/

/-- Decoding and encoding agree on every frame and every command: a frame decodes to `i` exactly when it is the frame of
`i`, so no bit of a frame is dropped and no two frames mean one command (30_encoding.md R57, R63, R64, R66). -/
def Obligations.DecodeAcceptsExactlyEncodings : Prop :=
  ∀ (ws : Frame) (i : Instr), decode ws = .ok i ↔ ws = encode i

/-- The decoder accepts exactly the frames of the form 30_encoding.md R57 and R58 give. -/
def Obligations.DecodeAcceptsExactlyWellFormedFrames : Prop :=
  ∀ ws : Frame, (∃ i, decode ws = .ok i) ↔ wellFormedFrame ws = true

/-- The decoding procedure of 30_encoding.md R67, its checks in their order and its operand words, with the fields of the
command word as numbers. -/
def Obligations.DecodingProcedure : Prop :=
  decode [] = .error .frameLength ∧
  ∀ (w : Word) (ops : List Word) (opc rsv low : Nat),
    opc = w.toNat / 2 ^ 24 → rsv = w.toNat / 2 ^ 3 % 2 ^ 21 → low = w.toNat % 2 ^ 3 →
    (opc ≠ 1 → opc ≠ 2 → opc ≠ 3 → decode (w :: ops) = .error .reservedOpcode) ∧
    (opc = 1 ∨ opc = 2 ∨ opc = 3 → rsv ≠ 0 → decode (w :: ops) = .error .reservedBits) ∧
    (opc = 1 ∨ opc = 3 → rsv = 0 → low ≠ 0 → decode (w :: ops) = .error .reservedBits) ∧
    (opc = 1 ∧ low = 0 ∨ opc = 2 ∨ opc = 3 ∧ low = 0 → rsv = 0 →
      ops.length + 1 ≠ (if opc = 1 then 2 else if opc = 3 then 1 else 6 + low / 4) →
      decode (w :: ops) = .error .frameLength) ∧
    (opc = 1 → rsv = 0 → low = 0 → ∀ sr, ops = [sr] → decode (w :: ops) = .ok (.init sr)) ∧
    (opc = 3 → rsv = 0 → low = 0 → ops = [] → decode (w :: ops) = .ok .tdwn) ∧
    (opc = 2 → rsv = 0 → low / 4 = 0 → ∀ bd gp sm gdb xL, ops = [bd, gp, sm, gdb, xL] →
      decode (w :: ops) = .ok (procMono (decide (low % 2 = 1)) (decide (low / 2 % 2 = 1)) bd gp sm gdb xL)) ∧
    (opc = 2 → rsv = 0 → low / 4 = 1 → ∀ bd gp sm gdb xL xR, ops = [bd, gp, sm, gdb, xL, xR] →
      decode (w :: ops) = .ok (procStereo (decide (low % 2 = 1)) (decide (low / 2 % 2 = 1)) bd gp sm gdb xL xR))

/-- The ten command words of 30_encoding.md R64, with operand words that tell the positions apart. -/
def Obligations.TableWordsDecode : Prop :=
  decode [0x01000000, 0x473B8000] = .ok (.init 0x473B8000) ∧
  decode [0x02000000, 1, 2, 3, 4, 5] = .ok (.procAsymManMono 1 2 3 4 5) ∧
  decode [0x02000001, 1, 2, 3, 4, 5] = .ok (.procSymManMono 1 2 3 4 5) ∧
  decode [0x02000002, 1, 2, 3, 4, 5] = .ok (.procAsymAutoMono 1 2 3 4 5) ∧
  decode [0x02000003, 1, 2, 3, 4, 5] = .ok (.procSymAutoMono 1 2 3 4 5) ∧
  decode [0x02000004, 1, 2, 3, 4, 5, 6] = .ok (.procAsymManSt 1 2 3 4 5 6) ∧
  decode [0x02000005, 1, 2, 3, 4, 5, 6] = .ok (.procSymManSt 1 2 3 4 5 6) ∧
  decode [0x02000006, 1, 2, 3, 4, 5, 6] = .ok (.procAsymAutoSt 1 2 3 4 5 6) ∧
  decode [0x02000007, 1, 2, 3, 4, 5, 6] = .ok (.procSymAutoSt 1 2 3 4 5 6) ∧
  decode [0x03000000] = .ok .tdwn

/-! ### The step -/

/-- A step runs the decoded command: `exec` of it, then the frame leaves `CMD` and the stream index advances by 1; a
refusal of `exec` is the step's (20_memory.md R44, 10_state.md R25). That what the host issues stands in the field `cmd`
is the model's choice (log entry 10). -/
def Obligations.StepRunsDecodedCommand : Prop :=
  ∀ (s : State) (ws : Frame) (rest : List HostEvent) (i : Instr),
    s.cmd = .frame ws :: rest → decode ws = .ok i →
    (∀ t, exec i s = .next t → step s = .next { t with cmd := rest, n := s.n + 1 }) ∧
    (∀ r, exec i s = .refused r → step s = .refused r)

/-- A frame the decoder rejects takes no step, with its reason (60_exceptions.md R186). -/
def Obligations.StepRefusesRejectedFrames : Prop :=
  ∀ (s : State) (ws : Frame) (rest : List HostEvent), s.cmd = .frame ws :: rest →
    (decode ws = .error .frameLength → step s = .refused .frameLength) ∧
    (decode ws = .error .reservedOpcode → step s = .refused .reservedOpcode) ∧
    (decode ws = .error .reservedBits → step s = .refused .reservedBits)

/-- Between frames the block holds its state (60_exceptions.md R192). That this is a step is the model's choice (log
entry 10). -/
def Obligations.StepHoldsStateWhenIdle : Prop := ∀ s : State, s.cmd = [] → step s = .next s

/-- Hardware reset at a frame boundary: `READY` and the stream index are 0, the six follower registers are something
(70_reset_and_hazards.md R200, 10_state.md R34). That the pin is a host event, and that `OUT` is empty after it, are the
model's choices (log entries 11 and 12). -/
def Obligations.HardwareResetStep : Prop :=
  ∀ (s : State) (rest : List HostEvent), s.cmd = .hardReset :: rest →
    ∃ l r d, step s =
      .next { s with ready := false, laneL := l, laneR := r, cmd := rest, out := none, n := 0, draws := d }

/-- No operation reads the stream index (10_state.md R25). That a reset or `TDWN` draws the same free words whatever the
index is, and a zero output the same sign bit, is the model's choice (log entries 8 and 9). -/
def Obligations.StreamIndexIsNeverRead : Prop :=
  ∀ (s : State) (m : Nat),
    (∀ t, step s = .next t → ∃ k, step { s with n := m } = .next { t with n := k }) ∧
    (∀ r, step s = .refused r → step { s with n := m } = .refused r)

/-- While `READY = 0` the follower registers are unobservable: whatever they hold, a command is refused for the same
reason or leaves the same state (70_reset_and_hazards.md R201). The counter `draws` is the model's own (log entry 8). -/
def Obligations.UnspecifiedRegistersAreUnobservable : Prop :=
  ∀ (i : Instr) (s : State) (l r : Follower Word) (d : Nat), s.ready = false →
    (∀ t, exec i s = .next t →
      exec i { s with laneL := l, laneR := r, draws := d } = .next { t with draws := d }) ∧
    (∀ q, exec i s = .refused q → exec i { s with laneL := l, laneR := r, draws := d } = .refused q)

/-! ### INIT, TDWN and the lifecycle -/

/-- `INIT sr` (44_stereo_engine.md R151, R152): its frame; for a finite `sr > 0`, whatever `READY` is, both lanes get the
coefficients of `coeff(tc, sr) = 1 − EXP(−(1 ÷ (tc × sr)))` with the words of 0.0005 and 0.05, level `+0`, and `READY` is
set, without an output; any other `sr` is refused. The worked example at 48000 Hz, in the reference reading. -/
def Obligations.InitResult : Prop :=
  (∀ (sr : Word) (s : State),
    encode (.init sr) = [0x01000000#32, sr] ∧
    (positiveFiniteWord sr = true → ∀ E : Follower Word,
      E = { env := 0#32,
            atk := fSub 0x3F800000#32 (hw.exp (fNeg (fDiv 0x3F800000#32 (fMul 0x3A03126F#32 sr)))),
            rel := fSub 0x3F800000#32 (hw.exp (fNeg (fDiv 0x3F800000#32 (fMul 0x3D4CCCCD#32 sr)))) } →
      exec (.init sr) s = .next { s with ready := true, laneL := E, laneR := E, out := none }) ∧
    (positiveFiniteWord sr = false → exec (.init sr) s = .refused .badSampleRate)) ∧
  ∀ (cfg : Config ℝ) (f : Follower ℝ), ReferenceConfig cfg → f = envInit (exactNum ℝ) cfg 48000 →
    f.env = 0 ∧ |f.atk - 408105429 / 10 ^ 10| < 1 / 10 ^ 10 ∧ |f.rel - 416579873 / 10 ^ 12| < 1 / 10 ^ 12

/-- A coefficient lies in `[0, 1]` for every finite positive rate; it is 0 where `tc × sr` overflows and 1 where it
underflows to zero (42_envelope_follower.md R111). -/
def Obligations.CoefficientsInUnit : Prop :=
  ∀ tc sr : Word, positiveFiniteWord tc = true → positiveFiniteWord sr = true →
    inUnit (coeff b32 hw tc sr) = true ∧
    (fIsInf (fMul tc sr) = true → fIsZero (coeff b32 hw tc sr) = true) ∧
    (fIsZero (fMul tc sr) = true → coeff b32 hw tc sr = 0x3F800000#32)

/-- Repeating a frame (20_memory.md R46): a second identical `INIT` or PROC frame with `AUTO = 0` leaves the same state and
output, a second `TDWN` is refused, and a second PROC frame with `AUTO = 1` can leave another state. PROC with `AUTO = 0`
reads no state but `READY`. That a repeated output is the same word, where its value is zero, is the model's choice (log
entry 9). -/
def Obligations.RepeatedFrames : Prop :=
  (∀ sr s t, exec (.init sr) s = .next t → exec (.init sr) t = .next t) ∧
  (∀ i s t, isManual i = true → exec i s = .next t → exec i t = .next t ∧
    ∀ s' : State, s'.ready = s.ready → exec i s' = .next { s' with out := t.out }) ∧
  (∃ i s t u, isProc i = true ∧ exec i s = .next t ∧ exec i t = .next u ∧ u ≠ t) ∧
  (∀ s t, exec .tdwn s = .next t → exec .tdwn t = .refused .notReady)

/-- What a command leaves unchanged (10_state.md R20, R22, R23, R27): every command, what the host issues and the stream
index; a PROC row, `READY` and all four coefficients; a PROC row with `AUTO = 0`, both levels too. Which rows have an
output frame (30_encoding.md R55). -/
def Obligations.InstructionFrame : Prop :=
  ∀ (i : Instr) (s t : State), exec i s = .next t →
    t.cmd = s.cmd ∧ t.n = s.n ∧
    (isProc i = true → t.ready = s.ready ∧ t.draws = s.draws ∧ t.laneL.atk = s.laneL.atk ∧
      t.laneL.rel = s.laneL.rel ∧ t.laneR.atk = s.laneR.atk ∧ t.laneR.rel = s.laneR.rel ∧ t.out.isSome = true) ∧
    (isManual i = true → t.laneL = s.laneL ∧ t.laneR = s.laneR) ∧
    (isProc i = false → t.out = none) ∧
    (∀ sr, i = .init sr → t.draws = s.draws)

/-- The lifecycle (60_exceptions.md R189): `UNINIT` accepts only `INIT`, `READY` accepts all three commands, `INIT` (with
a valid rate) enters `READY` from either, `TDWN` returns to `UNINIT`, PROC keeps `READY`, hardware reset enters
`UNINIT`. -/
def Obligations.LifecycleAcceptance : Prop :=
  (∀ (i : Instr) (s : State),
    ((∃ t, exec i s = .next t) ↔ admitted s.ready i = true) ∧
    ∀ t, exec i s = .next t → t.ready = readyAfter i s.ready) ∧
  ∀ (s : State) (rest : List HostEvent), s.cmd = .hardReset :: rest → ∃ t, step s = .next t ∧ t.ready = false

/-- A PROC frame while `READY = 0` is refused, `NotReady` (44_stereo_engine.md R156). -/
def Obligations.ProcIsRefusedBeforeInit : Prop :=
  ∀ (i : Instr) (s : State), isProc i = true → s.ready = false → exec i s = .refused .notReady

/-- `TDWN` (44_stereo_engine.md R160): its frame; refused while `READY = 0`; else `READY` is cleared, the six follower
registers are something, nothing is output, after it every command but `INIT` is refused, and an `INIT` after it starts
with level 0. -/
def Obligations.TdwnResult : Prop :=
  encode .tdwn = [0x03000000#32] ∧
  ∀ s : State,
    (s.ready = false → exec .tdwn s = .refused .notReady) ∧
    (s.ready = true → ∃ l r d,
      exec .tdwn s = .next { s with ready := false, laneL := l, laneR := r, out := none, draws := d }) ∧
    ∀ t, exec .tdwn s = .next t →
      (∀ i, (∀ sr, i ≠ .init sr) → exec i t = .refused .notReady) ∧
      ∀ sr, positiveFiniteWord sr = true →
        ∃ u, exec (.init sr) t = .next u ∧ u.laneL.env = 0#32 ∧ u.laneR.env = 0#32

/-- A host that keeps its duties is never refused, however long it runs (60_exceptions.md R188, R190, R209): it issues
encodings of commands that the lifecycle state admits, and resets when it likes. -/
def Obligations.DutifulHostIsNeverRefused : Prop :=
  ∀ (k : Nat) (s : State), dutiful s.ready s.cmd → ∃ t : State, Sys2Proof.core.run k s = .next t

/-! ### PROC -/

/-- The four rows with `AUTO = 0` complete while `READY = 1`: `OUT` gets one pure function of the snapshot and the lane's
sample, the same for both lanes, and nothing else changes (44_stereo_engine.md R153, R161, R162, R165, R166;
43_bitcrusher_channel.md R126, R140). That the sign bit of a zero output is such a function too is the model's choice (log
entry 9). -/
def Obligations.ManualRowsResult : Prop :=
  ∀ (s : State) (bd gp sm gdb xL xR : Word), s.ready = true →
    ∀ P Q : Snapshot Word, P = snapshotOf false false bd gp sm gdb → Q = snapshotOf true false bd gp sm gdb →
    exec (.procAsymManMono bd gp sm gdb xL) s =
      .next { s with out := some { y0 := manualOut xL P, y1 := manualOut xL P } } ∧
    exec (.procSymManMono bd gp sm gdb xL) s =
      .next { s with out := some { y0 := manualOut xL Q, y1 := manualOut xL Q } } ∧
    exec (.procAsymManSt bd gp sm gdb xL xR) s =
      .next { s with out := some { y0 := manualOut xL P, y1 := manualOut xR P } } ∧
    exec (.procSymManSt bd gp sm gdb xL xR) s =
      .next { s with out := some { y0 := manualOut xL Q, y1 := manualOut xR Q } }

/-- The four rows with `AUTO = 1` complete while `READY = 1`: each lane's level is updated from its own warped sample, its
output multiplied by the gain of the updated level, one function of the lane's own registers, sample and snapshot, the same
for both lanes (44_stereo_engine.md R153, R163, R164, R167, R168; 43_bitcrusher_channel.md R140; 10_state.md R24). That the
sign bit of a zero output is such a function too is the model's choice (log entry 9). -/
def Obligations.AutoRowsResult : Prop :=
  ∀ (s : State) (bd gp sm gdb xL xR : Word), s.ready = true →
    ∀ P Q : Snapshot Word, P = snapshotOf false true bd gp sm gdb → Q = snapshotOf true true bd gp sm gdb →
    exec (.procAsymAutoMono bd gp sm gdb xL) s =
      .next { s with laneL := autoFollower s.laneL xL P, laneR := autoFollower s.laneR xL P,
                     out := some { y0 := autoOut s.laneL xL P, y1 := autoOut s.laneR xL P } } ∧
    exec (.procSymAutoMono bd gp sm gdb xL) s =
      .next { s with laneL := autoFollower s.laneL xL Q, laneR := autoFollower s.laneR xL Q,
                     out := some { y0 := autoOut s.laneL xL Q, y1 := autoOut s.laneR xL Q } } ∧
    exec (.procAsymAutoSt bd gp sm gdb xL xR) s =
      .next { s with laneL := autoFollower s.laneL xL P, laneR := autoFollower s.laneR xR P,
                     out := some { y0 := autoOut s.laneL xL P, y1 := autoOut s.laneR xR P } } ∧
    exec (.procSymAutoSt bd gp sm gdb xL xR) s =
      .next { s with laneL := autoFollower s.laneL xL Q, laneR := autoFollower s.laneR xR Q,
                     out := some { y0 := autoOut s.laneL xL Q, y1 := autoOut s.laneR xR Q } }

/-- A mono frame is the stereo frame with the sample twice (44_stereo_engine.md R154). That a zero output then has the same
sign bit is the model's choice (log entry 9). -/
def Obligations.MonoIsStereoDuplicated : Prop :=
  ∀ (sym auto : Bool) (bd gp sm gdb xL : Word) (s : State),
    exec (procMono sym auto bd gp sm gdb xL) s = exec (procStereo sym auto bd gp sm gdb xL xL) s

/-- On a mono frame lanes with equal registers stay equal and give equal outputs, and with `AUTO = 0` the outputs are
equal whatever the registers hold (44_stereo_engine.md R154, R161). That two outputs of value zero are the same word is the
model's choice (log entry 9). -/
def Obligations.EqualLanesGiveEqualOutputs : Prop :=
  ∀ (i : Instr) (s t : State), isMono i = true → exec i s = .next t →
    (s.laneL = s.laneR → t.laneL = t.laneR ∧ ∃ y, t.out = some { y0 := y, y1 := y }) ∧
    (isManual i = true → ∃ y, t.out = some { y0 := y, y1 := y })

/-- While `READY = 1` the two lanes hold equal coefficients, an invariant of every step (10_state.md R23). -/
def Obligations.CoefficientCopiesStayEqual : Prop :=
  ∀ s t : State, (s.ready = true → s.laneL.atk = s.laneR.atk ∧ s.laneL.rel = s.laneR.rel) → step s = .next t →
    t.ready = true → t.laneL.atk = t.laneR.atk ∧ t.laneL.rel = t.laneR.rel

/-- The invariant of the machine is kept by every step, and by every step under any other configuration the spec allows:
while `READY = 1` both levels are finite and not negative and the coefficients lie in `[0, 1]`, and an output frame is
finite and of full scale (10_state.md R22, 42_envelope_follower.md R114, 43_bitcrusher_channel.md R141). The configurations
are those of 00_scope.md R10 and R15: any conforming `POW`, `EXP`, `EXP10`, `ZX`, any ceiling, any `NANP`. -/
def Obligations.InvariantKeptByEveryStep : Prop :=
  (∀ s t : State, s.inv = true → step s = .next t → t.inv = true) ∧
  ∀ cfg : Config Word, ConfigConforms cfg → ∀ s t : State, s.inv = true → stepWith cfg s = .next t → t.inv = true

/-- The invariant holds right after reset. The registers' reset values are the model's choice (log entry 7); the invariant
says nothing of them while `READY = 0`. -/
def Obligations.InvariantHoldsAtReset : Prop := State.reset.inv = true ∧ State.reset.ready = false

/-- Every PROC frame in a state of the invariant with `READY = 1`, whatever its operand words, completes with two output
words, each a finite binary32 in `[−1, 1]` (30_encoding.md R61). -/
def Obligations.ProcOutputsAreFullScale : Prop :=
  ∀ (i : Instr) (s : State), s.inv = true → s.ready = true → isProc i = true →
    ∃ t y, exec i s = .next t ∧ t.out = some y ∧ inFullScale y.y0 = true ∧ inFullScale y.y1 = true

/-- Stereo independence (44_stereo_engine.md R157): two runs whose frames give lane `c` the same samples, whatever the
other lane gets and whether the source is mono or stereo, and which have drawn equally many free words, agree on lane `c`
after every number of steps: its registers, its output, and whether and why the host is refused. Two agreements are the
model's choice: of the registers after `TDWN` or a hardware reset, where the spec allows any words (log entry 8: the free
words are a function of how many were drawn), and of a zero output's sign bit (log entry 9). -/
def Obligations.LaneIndependence : Prop :=
  ∀ (c : Lane) (k : Nat) (s t : State), s.ready = t.ready → s.lane c = t.lane c → s.draws = t.draws →
    s.out.map (·.lane c) = t.out.map (·.lane c) → List.Forall₂ (sameForLane c) s.cmd t.cmd →
    (∀ u : State, Sys2Proof.core.run k s = .next u → ∃ v : State, Sys2Proof.core.run k t = .next v ∧
      u.ready = v.ready ∧ u.lane c = v.lane c ∧ u.out.map (·.lane c) = v.out.map (·.lane c)) ∧
    (∀ r : Refusal, Sys2Proof.core.run k s = .refused r → Sys2Proof.core.run k t = .refused r)

/-! ### The datapath reading -/

/-- Stage S0, samples (43_bitcrusher_channel.md R127): a word whose exponent field is all ones becomes `+0`, every other
word passes unchanged, and a lane cannot tell a non-finite sample from `+0`. That it cannot by a zero output's sign bit is
the model's choice (log entry 9). -/
def Obligations.NonFiniteSampleActsAsZero : Prop :=
  (∀ x : Word, x.toNat / 2 ^ 23 % 2 ^ 8 = 255 → sanitiseSample b32 x = 0#32) ∧
  (∀ x : Word, x.toNat / 2 ^ 23 % 2 ^ 8 ≠ 255 → sanitiseSample b32 x = x) ∧
  ∀ (f : Follower Word) (x : Word) (P : Snapshot Word), x.toNat / 2 ^ 23 % 2 ^ 8 = 255 →
    laneStep f x P = laneStep f 0#32 P

/-- Stage S0, parameters (43_bitcrusher_channel.md R128, 10_state.md R28): a word beyond a bound (an infinity too) becomes
the bound, every other word that is no NaN passes; and a lane sees the clamped snapshot only. That a NaN becomes the lower
bound is the model's choice, the spec's default for the open parameter `NANP` (log entry 5), and that a zero output's sign
bit sees no more than the clamped snapshot is one too (log entry 9). -/
def Obligations.ParametersAreClamped : Prop :=
  (∀ (g : Word → Word) (lo hi : Word),
    (g, lo, hi) ∈ [(clampBitDepth b32 hw, 0x3F800000#32, 0x41800000#32),
                   (clampGamma b32 hw, 0xBF800000#32, 0x3F800000#32),
                   (clampSmoothing b32 hw, 0x00000000#32, 0x3F800000#32),
                   (clampGainDb b32 hw, 0x00000000#32, 0x41A00000#32)] →
    ∀ v : Word, (fIsNaN v = true → g v = lo) ∧ (fLt v lo = true → g v = lo) ∧ (fLt hi v = true → g v = hi) ∧
      (fLe lo v = true → fLe v hi = true → g v = v) ∧ fIsFinite (g v) = true ∧ fLe lo (g v) = true ∧
      fLe (g v) hi = true) ∧
  ∀ (f : Follower Word) (x : Word) (P : Snapshot Word), laneStep f x P = laneStep f x (clampSnapshot b32 hw P)

/-- One bit of depth silences a lane in both crush modes and both gain modes, whatever the sample, and the follower is
still updated when `AUTO = 1` (43_bitcrusher_channel.md R142 (a), R128). So does a NaN bit depth: that is the model's
choice, the spec's default of `NANP` being the lower bound (log entry 5). -/
def Obligations.OneBitDepthSilences : Prop :=
  ∀ (f : Follower Word) (x : Word) (P : Snapshot Word), followerSafe f = true →
    fIsNaN P.bitDepth = true ∨ fLe P.bitDepth 0x3F800000#32 = true →
    fIsZero (laneStep f x P).2 = true ∧ (P.autoGain = true → (laneStep f x P).1 = autoFollower f x P)

/-- Symmetric mode: a zero or non-finite sample gives a zero output; with auto-gain from level 0 the level stays 0 and the
gain is the ceiling (42_envelope_follower.md R121, 43_bitcrusher_channel.md R143). That the ceiling is 200 is the model's
choice, the spec's default of `GAIN_CEIL` (log entry 4). -/
def Obligations.SymmetricSilence : Prop :=
  ∀ (f : Follower Word) (x : Word) (P : Snapshot Word), followerSafe f = true → P.symmetric = true →
    fIsFinite x = false ∨ fIsZero x = true →
    fIsZero (laneStep f x P).2 = true ∧
    (fIsZero f.env = true → fIsZero (laneStep f x P).1.env = true ∧
      envGain b32 hw (laneStep f x P).1.env = 0x43480000#32)

/-- The gate (42_envelope_follower.md R116): a level below the word of 0.005 gives the ceiling, that word itself and every
level above give the reciprocal. That the ceiling is 200 is the model's choice, the spec's default of `GAIN_CEIL` (log entry
4). -/
def Obligations.GateBoundary : Prop :=
  (∀ e1 : Word, fLt e1 0x3BA3D70A#32 = true → envGain b32 hw e1 = 0x43480000#32) ∧
  (∀ e1 : Word, fLe 0x3BA3D70A#32 e1 = true → envGain b32 hw e1 = fDiv 0x3F800000#32 e1) ∧
  envGain b32 hw 0x3BA3D70A#32 = fDiv 0x3F800000#32 0x3BA3D70A#32

/-- Branch ownership (42_envelope_follower.md R115): attack only when the target is strictly above the level; at equality
the release branch changes nothing; below it the release branch lowers the level. -/
def Obligations.BranchOwnership : Prop :=
  ∀ (f : Follower Word) (t : Word), followerSafe f = true → inUnit t = true →
    (fLt f.env t = true → envLevel b32 f t = fAdd f.env (fMul f.atk (fSub t f.env))) ∧
    (fLe t f.env = true → envLevel b32 f t = fAdd f.env (fMul f.rel (fSub t f.env))) ∧
    (sameValue b32 t f.env = true → sameValue b32 (envLevel b32 f t) f.env = true) ∧
    (fLt t f.env = true → fLe (envLevel b32 f t) f.env = true)

/-- With `gainDb` at 0 the drive is the clamp alone, and the two readings of the manual gain under auto-gain agree
(43_bitcrusher_channel.md R129, R148). -/
def Obligations.ZeroGainDrivesNothing : Prop :=
  ∀ (f : Follower Word) (x : Word) (P : Snapshot Word), fIsZero (clampGainDb b32 hw P.gainDb) = true →
    (fIsFinite x = true → drive b32 hw (clampSnapshot b32 hw P) x = clamp b32 x (fLit (-1) 1) (fLit 1 1)) ∧
    processCh b32 hw f x P = processCh b32 { hw with pregainInAuto := .bypassed } f x P

/-- The drive gain lies in `[1, 10]` for every instance of `EXP10` with the named properties (43_bitcrusher_channel.md
R129). -/
def Obligations.DriveGainRange : Prop :=
  ∀ (cfg : Config Word) (P : Snapshot Word), Exp10Named b32 cfg.exp10 → Exp10Mono b32 cfg.exp10 →
    within b32 P.gainDb (fLit 0 1) (fLit 20 1) = true →
    within b32 (driveGain b32 cfg P) (fLit 1 1) (fLit 10 1) = true

/-- The crush mode and the gain mode are independent selections: `SYM` does not reach the follower, `AUTO` does not reach
the stages before the gain stage (43_bitcrusher_channel.md R144). That `AUTO` does not reach stage S1 is the model's choice,
`PREGAIN_IN_AUTO = applied` being the reading the spec takes (log entry 6). -/
def Obligations.ModeSelectionsAreIndependent : Prop :=
  ∀ (f : Follower Word) (x : Word) (P : Snapshot Word) (b : Bool),
    (laneStep f x { P with symmetric := b }).1 = (laneStep f x P).1 ∧
    laneWarped x { P with autoGain := b } = laneWarped x P ∧
    laneCrushed x { P with autoGain := b } = laneCrushed x P

/-- The single level (40_quantizer.md R83): positive zero for every sample and softness, in both readings. -/
def Obligations.SingleLevelGivesZero : Prop :=
  (∀ x s : Word, quantize b32 x 1 s = 0x00000000#32) ∧ ∀ x s : ℝ, quantize (exactNum ℝ) x 1 s = 0

/-- Both directions of the warp in binary32, of the machine and of every instance of `POW` with the named properties
(41_gammawarp.md R103): zero to zero, the sign kept, full scale to full scale and `±1` to itself, odd, nondecreasing, never
a NaN. -/
def Obligations.WarpProperties : Prop :=
  ∀ (cfg : Config Word) (gv : Word), cfg = hw ∨ PowNamed b32 cfg.pow ∧ PowMono b32 cfg.pow →
    within b32 gv (fLit 1 10) (fLit 10 1) = true →
    ∀ g : Word → Word, g = (fun x => warp b32 cfg x gv) ∨ g = (fun x => unwarp b32 cfg x gv) →
    ∀ x : Word, inFullScale x = true →
      (fIsZero x = true → fIsZero (g x) = true) ∧
      0 ≤ fVal (g x) * fVal x ∧
      inFullScale (g x) = true ∧
      (fVal x = 2 ^ 149 ∨ fVal x = -2 ^ 149 → fVal (g x) = fVal x) ∧
      fVal (g (fNeg x)) = -fVal (g x) ∧
      ∀ x' : Word, inFullScale x' = true → fLe x x' = true → fLe (g x) (g x') = true

/-- The identity case of the warp, in both readings, for every instance of `POW` with the named properties
(41_gammawarp.md R104). -/
def Obligations.WarpIdentity : Prop :=
  (∀ cfg : Config Word, PowNamed b32 cfg.pow → ∀ x : Word, fIsFinite x = true →
    sameValue b32 (warp b32 cfg x (fLit 1 1)) x = true ∧ sameValue b32 (unwarp b32 cfg x (fLit 1 1)) x = true) ∧
  ∀ cfg : Config ℝ, PowNamed (exactNum ℝ) cfg.pow → ∀ x : ℝ,
    warp (exactNum ℝ) cfg x 1 = x ∧ unwarp (exactNum ℝ) cfg x 1 = x

/-- `gammaValue` lies between the words nearest 0.1 and 10, and `gammaParam = 0` gives 1, for the machine's `EXP10`
(41_gammawarp.md R100). -/
def Obligations.GammaValueRange : Prop :=
  ∀ v : Word, within b32 (gammaValue hw (clampGamma b32 hw v)) (fLit 1 10) (fLit 10 1) = true ∧
    (fIsZero v = true → gammaValue hw (clampGamma b32 hw v) = 0x3F800000#32)

/-- The machine's open functions and parameters have every property 00_scope.md R15 and 43_bitcrusher_channel.md R135 name
for the datapath reading, monotonicity among them; [ZX-bound] is one of the reference reading. How the properties are
imposed on free functions is the model's choice (log entries 2 and 3). -/
def Obligations.MachineInstancesConform : Prop :=
  ConfigConforms hw

/-- Imposing the named properties loses no conforming instance: on the operands BCQ uses, an instance that has them all
keeps its every value (log entries 2 and 3: model's choice; 00_scope.md R15, 43_bitcrusher_channel.md R135). -/
def Obligations.ImposingPropertiesLosesNothing : Prop :=
  (∀ raw : Word → Word → Word, PowNamed b32 raw → PowMono b32 raw → ∀ b e : Word, fIsFinite b = true →
    fLe (fLit 0 1) b = true → within b32 e (fLit 1 10) (fLit 10 1) = true →
    sameValue b32 (powOf raw b e) (raw b e) = true) ∧
  (∀ raw : Word → Word, Exp10Named b32 raw → Exp10Mono b32 raw → ∀ v : Word,
    within b32 v (fLit (-1) 1) (fLit 1 1) = true → sameValue b32 (exp10Of raw v) (raw v) = true) ∧
  (∀ raw : Word → Word, ExpNamed b32 raw → ∀ v : Word, fLe v (fLit 0 1) = true →
    sameValue b32 (expOf raw v) (raw v) = true) ∧
  (∀ raw : Word → Nat → Word → Word, ZxNamed b32 raw → ∀ (w : Word) (L : Nat) (s : Word), ZxDomain b32 w L s →
    sameValue b32 (raw (plusZero w) L (plusZero s)) (raw w L s) = true →
    sameValue b32 (zxOf raw w L s) (raw w L s) = true)

/-- Every operator of the datapath reading rounds once, to nearest, ties to even: addition, subtraction, multiplication,
division and conversion (00_scope.md R13). -/
def Obligations.Binary32RoundsToNearestEven : Prop :=
  ∀ a b : Word, fIsFinite a = true → fIsFinite b = true →
    NearestTo (fAdd a b) (fVal a + fVal b) 1 ∧ NearestTo (fSub a b) (fVal a - fVal b) 1 ∧
    NearestTo (fMul a b) (fVal a * fVal b) (2 ^ 149) ∧
    (fIsZero b = false →
      NearestTo (fDiv a b) (fVal a * 2 ^ 149 * (fVal b).sign) (fVal b).natAbs) ∧
    ∀ (n : Int) (d : Nat), 0 < d → NearestTo (fLit n d) (n * 2 ^ 149) d

/-- The ordered comparisons: the two zeros are equal, and every comparison with a NaN is false (00_scope.md R13). -/
def Obligations.Binary32Comparisons : Prop :=
  (fEq 0x80000000#32 0x00000000#32 = true ∧ fLt 0x80000000#32 0x00000000#32 = false ∧
    fLe 0x00000000#32 0x80000000#32 = true) ∧
  ∀ a b : Word, fIsNaN a = true ∨ fIsNaN b = true → fLt a b = false ∧ fLe a b = false ∧ fEq a b = false

/-! ### The reference reading -/

/-- The properties of `T` in the reference reading (40_quantizer.md R87). -/
def Obligations.BlendProperties : Prop :=
  ∀ T : ℝ → ℝ → ℝ, T = blend (exactNum ℝ) →
    (∀ s, T 0 s = 0 ∧ T 1 s = 1) ∧
    (∀ s, (s ≤ 1 / 2 → T (1 / 2) s = 1 / 2) ∧ (1 / 2 < s → T (1 / 2) s = s)) ∧
    (∀ p s, 0 ≤ p → p ≤ 1 → 0 ≤ s → s ≤ 1 → 0 ≤ T p s ∧ T p s ≤ 1) ∧
    (∀ p p' s, 0 ≤ p → p ≤ p' → p' ≤ 1 → 0 ≤ s → s ≤ 1 → T p s ≤ T p' s) ∧
    (∀ p s, p ≠ 1 / 2 ∨ s ≤ 1 / 2 → T (1 - p) s = 1 - T p s) ∧
    (∀ s, 1 / 2 < s → T (1 - 1 / 2) s = s ∧ 1 - T (1 / 2) s = 1 - s) ∧
    (∀ p, T p 0 = p ∧ T p (1 / 2) = 3 * p ^ 2 - 2 * p ^ 3 ∧ T p 1 = hardstep (exactNum ℝ) p)

/-- Where the transition is continuous, in the reference reading (40_quantizer.md R88): in `s` for every `p`; in `p` for
`s ≤ 0.5`; for `s > 0.5` but at `p = 0.5`, where it jumps by `2s − 1`; and the quantizer across every cell boundary. -/
def Obligations.TransitionContinuity : Prop :=
  (∀ p : ℝ, Continuous fun s => blend (exactNum ℝ) p s) ∧
  (∀ s : ℝ, s ≤ 1 / 2 → Continuous fun p => blend (exactNum ℝ) p s) ∧
  (∀ s : ℝ, 1 / 2 < s → ContinuousOn (fun p => blend (exactNum ℝ) p s) {p | p ≠ 1 / 2} ∧
    Filter.Tendsto (fun p => blend (exactNum ℝ) p s) (nhdsWithin (1 / 2) (Set.Iio (1 / 2)))
      (nhds (s - (2 * s - 1))) ∧
    blend (exactNum ℝ) (1 / 2) s = s) ∧
  ∀ (L : Nat) (s : ℝ) (j : ℤ), L % 2 = 1 → 3 ≤ L → 0 ≤ s → s ≤ 1 → |j * gridStep (exactNum ℝ) L| ≤ 1 →
    ContinuousWithinAt (fun x => quantize (exactNum ℝ) x L s) (Set.Icc (-1) 1) (j * gridStep (exactNum ℝ) L)

/-- The grid of an odd level count and the place of a full-scale sample in it, in the reference reading (40_quantizer.md
R84, R85). -/
def Obligations.QuantizerGrid : Prop :=
  ∀ (L : Nat) (x step : ℝ) (k : ℤ), L % 2 = 1 → 3 ≤ L → -1 ≤ x → x ≤ 1 →
    step = gridStep (exactNum ℝ) L → k = gridIndex (exactNum ℝ) x L →
    step = 2 / ((L : ℝ) - 1) ∧ -(((L : ℤ) - 1) / 2) ≤ k ∧ k ≤ ((L : ℤ) - 1) / 2 ∧
    k * step ≤ x ∧ x < (k + 1) * step ∧
    gridLow (exactNum ℝ) x L = k * step ∧
    gridHigh (exactNum ℝ) x L = (if x = 1 then 1 else (k + 1) * step) ∧
    0 ≤ gridPhase (exactNum ℝ) x L ∧ gridPhase (exactNum ℝ) x L < 1 ∧
    (gridPhase (exactNum ℝ) x L = 0 ↔ ∃ j : ℤ, x = j * step)

/-- The three landmark settings in the reference reading (40_quantizer.md R89): transparent at 0, a staircase at 1 (the
grid level nearest the sample, exact half steps up), smoothstep-shaped at 0.5. -/
def Obligations.QuantizerLandmarks : Prop :=
  ∀ (L : Nat) (x low step p : ℝ), 2 ≤ L → -1 ≤ x → x ≤ 1 → low = gridLow (exactNum ℝ) x L →
    step = gridStep (exactNum ℝ) L → p = gridPhase (exactNum ℝ) x L →
    quantize (exactNum ℝ) x L 0 = x ∧
    quantize (exactNum ℝ) x L 1 = (if p < 1 / 2 then low else low + step) ∧
    quantize (exactNum ℝ) x L (1 / 2) = low + (3 * p ^ 2 - 2 * p ^ 3) * step ∧
    (L % 2 = 1 → ∀ j : ℤ, |quantize (exactNum ℝ) x L 1 - x| ≤ |j * step - x|)

/-- Range, error, fixed points, monotonicity and symmetry of the quantizer in the reference reading (40_quantizer.md
R90). -/
def Obligations.QuantizerRangeErrorAndSymmetry : Prop :=
  (∀ (L : Nat) (x s low step p q : ℝ), L % 2 = 1 → 3 ≤ L → -1 ≤ x → x ≤ 1 → 0 ≤ s → s ≤ 1 →
    low = gridLow (exactNum ℝ) x L → step = gridStep (exactNum ℝ) L → p = gridPhase (exactNum ℝ) x L →
    q = quantize (exactNum ℝ) x L s →
    (low ≤ q ∧ q ≤ low + step ∧ -1 ≤ q ∧ q ≤ 1) ∧
    (q - x = (blend (exactNum ℝ) p s - p) * step ∧ |blend (exactNum ℝ) p s - p| ≤ 1 / 2 ∧ |q - x| ≤ step / 2 ∧
      (|q - x| = step / 2 → s = 1 ∧ p = 1 / 2)) ∧
    ((∃ j : ℤ, x = j * step) → q = x) ∧
    (∀ x', x ≤ x' → x' ≤ 1 → q ≤ quantize (exactNum ℝ) x' L s) ∧
    (p ≠ 1 / 2 ∨ s ≤ 1 / 2 → quantize (exactNum ℝ) (-x) L s = -q) ∧
    (p = 1 / 2 → 1 / 2 < s → quantize (exactNum ℝ) (-x) L s - -q = (2 * s - 1) * step)) ∧
  (∀ (L : Nat) (s : ℝ), L % 2 = 1 → 3 ≤ L → 0 ≤ s → s ≤ 1 → quantize (exactNum ℝ) 0 L s = 0 ∧
    quantize (exactNum ℝ) 1 L s = 1 ∧ quantize (exactNum ℝ) (-1) L s = -1) ∧
  quantize (exactNum ℝ) (1 / 2) 3 1 = 1 ∧ quantize (exactNum ℝ) (-1 / 2) 3 1 = 0

/-- The worked example of the quantizer, over the rational numbers (40_quantizer.md R94). -/
def Obligations.QuantizerWorkedExample : Prop :=
  gridStep (exactNum ℚ) 15 = 1 / 7 ∧ gridIndex (exactNum ℚ) (7 / 10) 15 = 4 ∧
  gridLow (exactNum ℚ) (7 / 10) 15 = 4 / 7 ∧ gridHigh (exactNum ℚ) (7 / 10) 15 = 5 / 7 ∧
  gridPhase (exactNum ℚ) (7 / 10) 15 = 9 / 10 ∧ blend (exactNum ℚ) (9 / 10) 1 = 1 ∧
  quantize (exactNum ℚ) (7 / 10) 15 1 = 5 / 7 ∧ quantize (exactNum ℚ) (7 / 10) 15 0 = 7 / 10 ∧
  quantize (exactNum ℚ) (7 / 10) 15 (1 / 2) = 1243 / 1750 ∧
  quantize (exactNum ℚ) (7 / 10) 15 (1 / 4) = 617 / 875 ∧
  quantize (exactNum ℚ) (7 / 10) 15 (3 / 4) = 2493 / 3500

/-- The round trip of the warp in the reference reading (41_gammawarp.md R105). -/
def Obligations.GammaRoundTrip : Prop :=
  ∀ (cfg : Config ℝ) (x gv : ℝ), ReferenceConfig cfg → 0 < gv →
    unwarp (exactNum ℝ) cfg (warp (exactNum ℝ) cfg x gv) gv = x

/-- One-pole behaviour in the reference reading (42_envelope_follower.md R119): attack and release towards a constant
target in closed form, the meaning of the time constant, and the level held at the target. -/
def Obligations.OnePoleClosedForm : Prop :=
  (∀ (a r t e₀ : ℝ) (n : Nat), 0 ≤ a → a ≤ 1 → 0 ≤ r → r ≤ 1 →
    (e₀ < t → (fun e => envLevel (exactNum ℝ) { env := e, atk := a, rel := r } t)^[n] e₀ =
      t - (t - e₀) * (1 - a) ^ n) ∧
    (t ≤ e₀ → (fun e => envLevel (exactNum ℝ) { env := e, atk := a, rel := r } t)^[n] e₀ =
      t + (e₀ - t) * (1 - r) ^ n) ∧
    envLevel (exactNum ℝ) { env := t, atk := a, rel := r } t = t) ∧
  ∀ (cfg : Config ℝ) (tc sr : ℝ), ReferenceConfig cfg → 0 < tc → 0 < sr →
    1 - coeff (exactNum ℝ) cfg tc sr = Real.exp (-1 / (tc * sr)) ∧
    (1 - coeff (exactNum ℝ) cfg tc sr) ^ (tc * sr) = Real.exp (-1)

/-- One update moves the level towards the target, never past it, and by at most the larger coefficient's fraction of the
distance; a coefficient is strictly between 0 and 1 (reference reading; 42_envelope_follower.md R111, R114, R120). -/
def Obligations.LevelMovesTowardTarget : Prop :=
  (∀ (f : Follower ℝ) (t : ℝ), 0 ≤ f.atk → f.atk ≤ 1 → 0 ≤ f.rel → f.rel ≤ 1 →
    min f.env t ≤ envLevel (exactNum ℝ) f t ∧ envLevel (exactNum ℝ) f t ≤ max f.env t ∧
    |envLevel (exactNum ℝ) f t - f.env| ≤ max f.atk f.rel * |t - f.env|) ∧
  ∀ (cfg : Config ℝ) (tc sr : ℝ), ReferenceConfig cfg → 0 < tc → 0 < sr →
    0 < coeff (exactNum ℝ) cfg tc sr ∧ coeff (exactNum ℝ) cfg tc sr < 1

/-- In the reference reading a level in `[0, 1]` stays there on samples of full scale, and the returned gain lies in
`[1, 200]` (42_envelope_follower.md R114, R117). The bound 200 holds with `GAIN_CEIL = 200`, the spec's default and the
model's choice (log entry 4). -/
def Obligations.ReferenceGainRange : Prop :=
  ∀ (cfg : Config ℝ) (f : Follower ℝ) (x e1 : ℝ), ReferenceConfig cfg → 0 ≤ f.env → f.env ≤ 1 → 0 ≤ f.atk →
    f.atk ≤ 1 → 0 ≤ f.rel → f.rel ≤ 1 → |x| ≤ 1 → e1 = envUpdateLevel (exactNum ℝ) f x →
    0 ≤ e1 ∧ e1 ≤ 1 ∧ 1 ≤ envGain (exactNum ℝ) cfg e1 ∧ envGain (exactNum ℝ) cfg e1 ≤ 200

/-- The two instances of `ZX` the spec names have its properties in the reference reading, the range everywhere, and map 0
to 0 (43_bitcrusher_channel.md R135, R136). -/
def Obligations.NamedZxInstancesConform : Prop :=
  ∀ zx : ℝ → Nat → ℝ → ℝ, zx = zxId (exactNum ℝ) ∨ zx = zxRef (exactNum ℝ) →
    ZxNamed (exactNum ℝ) zx ∧ ZxBound zx ∧
    (∀ w L s, ZxDomain (exactNum ℝ) w L s → |zx w L s| ≤ 1) ∧
    ∀ L s, ZxDomain (exactNum ℝ) 0 L s → zx 0 L s = 0

/-- The crossfade is continuous in the bit depth on `[1, 16]`, linear between two integers, and two adjacent quantizations
are at most half the sum of their steps apart (reference reading; 43_bitcrusher_channel.md R132, R137). -/
def Obligations.BitDepthContinuity : Prop :=
  (∀ (quant : ℝ → Nat → ℝ → ℝ) (P : Snapshot ℝ) (x : ℝ),
    ContinuousOn (fun bd => crossfade (exactNum ℝ) quant { P with bitDepth := bd } x) (Set.Icc 1 16) ∧
    ∀ (b : Nat) (t : ℝ), 1 ≤ b → 0 ≤ t → t ≤ 1 →
      crossfade (exactNum ℝ) quant { P with bitDepth := b + t } x =
        quant x (2 ^ b - 1) P.smoothing +
          t * (quant x (2 ^ (b + 1) - 1) P.smoothing - quant x (2 ^ b - 1) P.smoothing)) ∧
  ∀ (b : Nat) (x s : ℝ), 2 ≤ b → -1 ≤ x → x ≤ 1 → 0 ≤ s → s ≤ 1 →
    |quantize (exactNum ℝ) x (2 ^ (b + 1) - 1) s - quantize (exactNum ℝ) x (2 ^ b - 1) s| ≤
      (gridStep (exactNum ℝ) (2 ^ b - 1) + gridStep (exactNum ℝ) (2 ^ (b + 1) - 1)) / 2

/-- How the two crush modes differ in the reference reading, with the plain quantizer as `ZX` (43_bitcrusher_channel.md
R138): nowhere but below zero, at softness above 0.5, at a phase of exactly 0.5 on one of the two grids. -/
def Obligations.CrushModesAgree : Prop :=
  ∀ (cfg : Config ℝ) (P : Snapshot ℝ) (w : ℝ), cfg.zx = zxId (exactNum ℝ) → 1 ≤ P.bitDepth → P.bitDepth ≤ 16 →
    0 ≤ P.smoothing → P.smoothing ≤ 1 → -1 ≤ w → w ≤ 1 →
    (0 ≤ w ∨ P.smoothing ≤ 1 / 2 ∨
      gridPhase (exactNum ℝ) |w| (levelsLow (exactNum ℝ) P.bitDepth) ≠ 1 / 2 ∧
      gridPhase (exactNum ℝ) |w| (levelsHigh (exactNum ℝ) P.bitDepth) ≠ 1 / 2) →
    crushSym (exactNum ℝ) P w = crushAsym (exactNum ℝ) cfg P w

/-- Symmetric mode never gives the opposite sign, and silence gives silence, in the reference reading
(43_bitcrusher_channel.md R143). -/
def Obligations.SymmetricSignNeverOpposite : Prop :=
  ∀ (cfg : Config ℝ) (f : Follower ℝ) (x : ℝ) (P : Snapshot ℝ), ReferenceConfig cfg → P.symmetric = true →
    0 ≤ (processCh (exactNum ℝ) cfg f x P).2 * x ∧ (x = 0 → (processCh (exactNum ℝ) cfg f x P).2 = 0)

/-- Smoothing transparency in the reference reading (43_bitcrusher_channel.md R142 (f)): at 16 bits, smoothing 0, no warp,
no gain, a full-scale sample passes unchanged in symmetric mode, and in asymmetric mode but for half a step near zero. -/
def Obligations.SmoothingTransparency : Prop :=
  ∀ (cfg : Config ℝ) (f : Follower ℝ) (x : ℝ) (sym : Bool) (y : ℝ), ReferenceConfig cfg → -1 ≤ x → x ≤ 1 →
    y = (processCh (exactNum ℝ) cfg f x { bitDepth := 16, gammaParam := 0, smoothing := 0, gainDb := 0,
                                          autoGain := false, symmetric := sym }).2 →
    (sym = true → y = x) ∧ (sym = false → |y - x| ≤ 1 / 65534 ∧ (1 / 32767 ≤ |x| → y = x))

/-- Worked examples of a whole channel in the reference reading, for every conforming `ZX` (43_bitcrusher_channel.md R147;
44_stereo_engine.md R161, R162, R165, R166): `gammaParam = gainDb = 0`, `AUTO = 0`. -/
def Obligations.ReferenceWorkedExamples : Prop :=
  ∀ (cfg : Config ℝ) (f : Follower ℝ) (out : Bool → ℝ → ℝ → ℝ → ℝ), ReferenceConfig cfg →
    (out = fun sym bd sm x => (processCh (exactNum ℝ) cfg f x
      { bitDepth := bd, gammaParam := 0, smoothing := sm, gainDb := 0, autoGain := false, symmetric := sym }).2) →
    (∀ sym, out sym 4 1 (7 / 10) = 5 / 7) ∧ (∀ sym, out sym 4 0 (7 / 10) = 7 / 10) ∧
    (∀ sym, out sym (7 / 2) 1 (7 / 10) = 29 / 42) ∧ (∀ sym, out sym (7 / 2) 1 (-7 / 10) = -29 / 42) ∧
    out true (3 / 2) 1 (7 / 10) = 1 / 2 ∧ out true 2 1 (-1 / 2) = -1 ∧ out true 2 1 (1 / 2) = 1 ∧
    (∀ sym sm, out sym 1 sm (7 / 10) = 0)
end

