-- ==== Sys2Proof/Laws/Float.lean ====
section
/-! SUPPORT. What the binary32 operations do, as exact integers in units of 2^-149: a result is the rounding `roundVal` of
the exact result; rounding is monotone and leaves every representable value alone. Later proofs bound results by
sandwiching the exact result between representable values, and never unfold an operation. -/

namespace Sys2Proof.Machine

set_option Elab.async false

/-! ### Rounding a quotient of naturals -/

theorem roundHalfEven_exact (m : Nat) {d : Nat} (hd : 0 < d) : roundHalfEven (m * d) d = m := by
  simp [roundHalfEven, Nat.mul_div_cancel _ hd, hd]

theorem le_roundHalfEven {m n d : Nat} (hd : 0 < d) (h : m * d ≤ n) : m ≤ roundHalfEven n d := by
  have : m ≤ n / d := (Nat.le_div_iff_mul_le hd).2 h
  unfold roundHalfEven
  dsimp only
  split
  · exact this
  · split <;> omega

theorem roundHalfEven_mono {n₁ d₁ n₂ d₂ : Nat} (h1 : 0 < d₁) (h2 : 0 < d₂) (h : n₁ * d₂ ≤ n₂ * d₁) :
    roundHalfEven n₁ d₁ ≤ roundHalfEven n₂ d₂ := by
  have hq : n₁ / d₁ ≤ n₂ / d₂ := by
    rw [Nat.le_div_iff_mul_le h2]
    have e1 : n₁ / d₁ * d₁ ≤ n₁ := Nat.div_mul_le_self _ _
    by_contra hc
    have : n₂ * d₁ < n₁ / d₁ * d₂ * d₁ := Nat.mul_lt_mul_of_pos_right (not_le.1 hc) h1
    have : n₁ / d₁ * d₁ * d₂ ≤ n₁ * d₂ := Nat.mul_le_mul_right _ e1
    nlinarith
  have e1 := Nat.div_add_mod n₁ d₁
  have e2 := Nat.div_add_mod n₂ d₂
  unfold roundHalfEven
  dsimp only
  rcases Nat.lt_or_ge (n₁ / d₁) (n₂ / d₂) with hlt | hge
  · split_ifs <;> omega
  · have hqq : n₁ / d₁ = n₂ / d₂ := le_antisymm hq hge
    rw [hqq] at e1 ⊢
    generalize n₂ / d₂ = q at *
    generalize n₁ % d₁ = r₁ at *
    generalize n₂ % d₂ = r₂ at *
    have hr : r₁ * d₂ ≤ r₂ * d₁ := by subst e1; subst e2; nlinarith
    by_cases c1 : 2 * r₁ < d₁
    · rw [if_pos c1]; split
      · omega
      · split <;> omega
    · rw [if_neg c1]
      have c2 : ¬ 2 * r₂ < d₂ := by
        intro c; apply c1
        have : 2 * r₂ * d₁ < d₂ * d₁ := Nat.mul_lt_mul_of_pos_right c h1
        by_contra hc
        have : d₁ * d₂ ≤ 2 * r₁ * d₂ := Nat.mul_le_mul_right _ (not_lt.1 hc)
        nlinarith
      rw [if_neg c2]
      by_cases c3 : d₁ < 2 * r₁
      · have c4 : d₂ < 2 * r₂ := by
          have : d₁ * d₂ < 2 * r₁ * d₂ := Nat.mul_lt_mul_of_pos_right c3 h2
          by_contra hc
          have : 2 * r₂ * d₁ ≤ d₂ * d₁ := Nat.mul_le_mul_right _ (not_lt.1 hc)
          nlinarith
        rw [if_pos c3, if_pos c4]
      · rw [if_neg c3]; split <;> omega

theorem roundHalfEven_le {m n d : Nat} (hd : 0 < d) (h : n ≤ m * d) : roundHalfEven n d ≤ m := by
  have := roundHalfEven_mono (n₁ := n) (d₁ := d) (n₂ := m * d) (d₂ := d) hd hd (Nat.mul_le_mul_right _ h)
  rwa [roundHalfEven_exact m hd] at this

/-! ### Rounding a magnitude -/

theorem log2_pow_mul_lt {q : Nat} (h : q ≠ 0) : 2 ^ q.log2 ≤ q ∧ q < 2 ^ (q.log2 + 1) :=
  ⟨Nat.log2_self_le h, Nat.lt_log2_self⟩

/-- The bits dropped for a quotient `q`. -/
theorem drop_cases (q : Nat) :
    (q.log2 - 23 = 0 ∧ q < 2 ^ 24) ∨
    (0 < q.log2 - 23 ∧ 2 ^ 23 * 2 ^ (q.log2 - 23) ≤ q ∧ q < 2 ^ 24 * 2 ^ (q.log2 - 23)) := by
  rcases Nat.eq_zero_or_pos q with rfl | hq
  · left; simp
  · obtain ⟨a, b⟩ := log2_pow_mul_lt hq.ne'
    rcases Nat.lt_or_ge 23 q.log2 with h | h
    · right
      refine ⟨by omega, ?_, ?_⟩
      · rw [← pow_add, show 23 + (q.log2 - 23) = q.log2 by omega]; exact a
      · rw [← pow_add, show 24 + (q.log2 - 23) = q.log2 + 1 by omega]; exact b
    · left
      exact ⟨by omega, lt_of_lt_of_le b (Nat.pow_le_pow_right (by norm_num) (by omega))⟩

theorem roundMag_le_inf (n d : Nat) : roundMag n d ≤ infBits := min_le_right _ _

theorem roundMag_lt (n d : Nat) : roundMag n d < 2 ^ 31 :=
  lt_of_le_of_lt (roundMag_le_inf n d) (by decide)

theorem roundMag_mono {n₁ d₁ n₂ d₂ : Nat} (h1 : 0 < d₁) (h2 : 0 < d₂) (h : n₁ * d₂ ≤ n₂ * d₁) :
    roundMag n₁ d₁ ≤ roundMag n₂ d₂ := by
  have hq : n₁ / d₁ ≤ n₂ / d₂ := by
    rw [Nat.le_div_iff_mul_le h2]
    by_contra hc
    have a1 : n₂ * d₁ < n₁ / d₁ * d₂ * d₁ := Nat.mul_lt_mul_of_pos_right (not_le.1 hc) h1
    have a2 : n₁ / d₁ * d₁ * d₂ ≤ n₁ * d₂ := Nat.mul_le_mul_right _ (Nat.div_mul_le_self _ _)
    nlinarith
  unfold roundMag
  dsimp only
  refine min_le_min ?_ le_rfl
  have hk : (n₁ / d₁).log2 - 23 ≤ (n₂ / d₂).log2 - 23 := by
    have : (n₁ / d₁).log2 ≤ (n₂ / d₂).log2 := by
      rcases Nat.eq_zero_or_pos (n₁ / d₁) with h0 | h0
      · rw [h0]; simp
      · rw [Nat.le_log2 (by omega)]
        exact le_trans (Nat.log2_self_le h0.ne') hq
    omega
  have d1 := drop_cases (n₁ / d₁)
  have d2 := drop_cases (n₂ / d₂)
  generalize (n₁ / d₁).log2 - 23 = k₁ at *
  generalize (n₂ / d₂).log2 - 23 = k₂ at *
  rcases Nat.lt_or_ge k₁ k₂ with hlt | hge
  · have hup : roundHalfEven n₁ (d₁ * 2 ^ k₁) ≤ 2 ^ 24 := by
      refine roundHalfEven_le (by positivity) ?_
      have : n₁ / d₁ < 2 ^ 24 * 2 ^ k₁ := by
        rcases d1 with ⟨rfl, b⟩ | ⟨_, _, b⟩
        · simpa using b
        · exact b
      have := (Nat.div_lt_iff_lt_mul h1).1 this
      nlinarith
    have hdn : 2 ^ 23 ≤ roundHalfEven n₂ (d₂ * 2 ^ k₂) := by
      refine le_roundHalfEven (by positivity) ?_
      have : 2 ^ 23 * 2 ^ k₂ ≤ n₂ / d₂ := by
        rcases d2 with ⟨rfl, _⟩ | ⟨_, b, _⟩
        · omega
        · exact b
      have := (Nat.le_div_iff_mul_le h2).1 this
      nlinarith
    have : k₁ * 2 ^ 23 + 2 ^ 23 ≤ k₂ * 2 ^ 23 := by
      have : (k₁ + 1) * 2 ^ 23 ≤ k₂ * 2 ^ 23 := Nat.mul_le_mul_right _ hlt
      omega
    omega
  · obtain rfl : k₁ = k₂ := le_antisymm hk hge
    refine Nat.add_le_add_left (roundHalfEven_mono (by positivity) (by positivity) ?_) _
    have := Nat.mul_le_mul_right (2 ^ k₁) h
    nlinarith

/-- Rounding leaves a representable magnitude alone. -/
theorem roundMag_magVal (m : Nat) {d : Nat} (hd : 0 < d) : roundMag (magVal m * d) d = min m infBits := by
  unfold roundMag
  rw [Nat.mul_div_cancel _ hd]
  dsimp only
  congr 1
  unfold magVal
  split
  · rename_i h
    have hm : m < 2 ^ 23 := by omega
    have : m.log2 - 23 = 0 := by
      rcases drop_cases m with ⟨a, _⟩ | ⟨a, b, _⟩
      · exact a
      · exfalso
        have : 2 ^ 23 * 2 ^ (m.log2 - 23) ≥ 2 ^ 23 * 1 := Nat.mul_le_mul_left _ Nat.one_le_two_pow
        omega
    rw [this]; simp [roundHalfEven_exact m hd]
  · rename_i h
    set e := m / 2 ^ 23 with he
    set f := m % 2 ^ 23 with hf
    have hfl : f < 2 ^ 23 := Nat.mod_lt _ (by norm_num)
    have hm : m = e * 2 ^ 23 + f := by rw [he, hf]; omega
    have hlog : ((2 ^ 23 + f) * 2 ^ (e - 1)).log2 = 23 + (e - 1) := by
      apply le_antisymm
      · rw [← Nat.lt_succ_iff]
        rw [Nat.log2_lt (by positivity)]
        calc (2 ^ 23 + f) * 2 ^ (e - 1) < 2 ^ 24 * 2 ^ (e - 1) :=
              Nat.mul_lt_mul_of_pos_right (by omega) (by positivity)
          _ = 2 ^ (23 + (e - 1)).succ := by rw [← pow_add]; congr 1; omega
      · rw [Nat.le_log2 (by positivity), pow_add]
        exact Nat.mul_le_mul_right _ (by omega)
    rw [hlog, show 23 + (e - 1) - 23 = e - 1 by omega,
      show (2 ^ 23 + f) * 2 ^ (e - 1) * d = (2 ^ 23 + f) * (d * 2 ^ (e - 1)) by ring,
      roundHalfEven_exact _ (by positivity), hm]
    omega

theorem magVal_lt_of_lt {m m' : Nat} (h : m < m') (hm : m' ≤ infBits) : magVal m < magVal m' := by
  by_contra hc
  have := roundMag_mono (n₁ := magVal m') (d₁ := 1) (n₂ := magVal m) (d₂ := 1) one_pos one_pos
    (by omega)
  have e1 := roundMag_magVal m' one_pos
  have e2 := roundMag_magVal m one_pos
  rw [Nat.mul_one] at e1 e2
  rw [e1, e2] at this
  omega

theorem magVal_le_of_le {m m' : Nat} (h : m ≤ m') (hm : m' ≤ infBits) : magVal m ≤ magVal m' := by
  rcases Nat.lt_or_ge m m' with h' | h'
  · exact (magVal_lt_of_lt h' hm).le
  · rw [le_antisymm h h']

theorem magVal_inj {m m' : Nat} (hm : m ≤ infBits) (hm' : m' ≤ infBits) (h : magVal m = magVal m') : m = m' := by
  rcases Nat.lt_trichotomy m m' with h' | h' | h'
  · exact absurd h (magVal_lt_of_lt h' hm').ne
  · exact h'
  · exact absurd h.symm (magVal_lt_of_lt h' hm).ne

@[simp] theorem magVal_zero : magVal 0 = 0 := by decide

theorem magVal_eq_zero {m : Nat} (hm : m ≤ infBits) : magVal m = 0 ↔ m = 0 :=
  ⟨fun h => magVal_inj hm (by decide) (by rw [h, magVal_zero]), fun h => by rw [h, magVal_zero]⟩

theorem magVal_inf : magVal infBits = 2 ^ 128 * 2 ^ 149 := by decide +kernel

end Sys2Proof.Machine
end

