-- ==== Sys2Proof/Laws/FloatOps.lean ====
section
/-! SUPPORT. The value of every binary32 operation, in units of 2^-149, and the bounds that follow. -/

namespace Sys2Proof.Machine

set_option Elab.async false

/-! ### Fields of a word -/

theorem signBit_eq (w : Word) : signBit w = decide (2 ^ 31 ≤ w.toNat) := by
  have := w.isLt
  unfold signBit
  rw [BitVec.getLsbD, Nat.testBit_eq_decide_div_mod_eq]
  by_cases h : 2 ^ 31 ≤ w.toNat
  · simp only [h, decide_true, decide_eq_true_eq]; omega
  · simp only [h, decide_false, decide_eq_false_iff_not]; omega

theorem toNat_eq (w : Word) : w.toNat = (if signBit w then 2 ^ 31 else 0) + magBits w := by
  have := w.isLt
  rw [signBit_eq, magBits]
  simp only [decide_eq_true_eq]
  split <;> omega

theorem word_eq {a b : Word} (hs : signBit a = signBit b) (hm : magBits a = magBits b) : a = b := by
  apply BitVec.eq_of_toNat_eq
  rw [toNat_eq a, toNat_eq b, hs, hm]

theorem magBits_lt (w : Word) : magBits w < 2 ^ 31 := Nat.mod_lt _ (by norm_num)

theorem ofSignMag_toNat (b : Bool) {m : Nat} (hm : m < 2 ^ 31) :
    (ofSignMag b m).toNat = (if b then 2 ^ 31 else 0) + m := by
  unfold ofSignMag
  rw [BitVec.toNat_ofNat]
  cases b
  · simp; omega
  · simp; omega

@[simp] theorem signBit_ofSignMag (b : Bool) {m : Nat} (hm : m < 2 ^ 31) : signBit (ofSignMag b m) = b := by
  rw [signBit_eq, ofSignMag_toNat b hm]
  cases b
  · simp; omega
  · simp

@[simp] theorem magBits_ofSignMag (b : Bool) {m : Nat} (hm : m < 2 ^ 31) : magBits (ofSignMag b m) = m := by
  rw [magBits, ofSignMag_toNat b hm]
  cases b
  · simp; omega
  · simp; omega

@[simp] theorem ofSignMag_self (w : Word) : ofSignMag (signBit w) (magBits w) = w :=
  word_eq (signBit_ofSignMag _ (magBits_lt w)) (magBits_ofSignMag _ (magBits_lt w))

@[simp] theorem magBits_fNeg (w : Word) : magBits (fNeg w) = magBits w := magBits_ofSignMag _ (magBits_lt w)
@[simp] theorem signBit_fNeg (w : Word) : signBit (fNeg w) = !signBit w := signBit_ofSignMag _ (magBits_lt w)
@[simp] theorem magBits_fAbs (w : Word) : magBits (fAbs w) = magBits w := magBits_ofSignMag _ (magBits_lt w)
@[simp] theorem signBit_fAbs (w : Word) : signBit (fAbs w) = false := signBit_ofSignMag _ (magBits_lt w)
@[simp] theorem fIsNaN_fNeg (w : Word) : fIsNaN (fNeg w) = fIsNaN w := by simp [fIsNaN]
@[simp] theorem fIsNaN_fAbs (w : Word) : fIsNaN (fAbs w) = fIsNaN w := by simp [fIsNaN]
@[simp] theorem fIsFinite_fNeg (w : Word) : fIsFinite (fNeg w) = fIsFinite w := by simp [fIsFinite]
@[simp] theorem fIsFinite_fAbs (w : Word) : fIsFinite (fAbs w) = fIsFinite w := by simp [fIsFinite]
@[simp] theorem fIsInf_fNeg (w : Word) : fIsInf (fNeg w) = fIsInf w := by simp [fIsInf]
@[simp] theorem fIsZero_fNeg (w : Word) : fIsZero (fNeg w) = fIsZero w := by simp [fIsZero]
@[simp] theorem fIsZero_fAbs (w : Word) : fIsZero (fAbs w) = fIsZero w := by simp [fIsZero]
@[simp] theorem fVal_fNeg (w : Word) : fVal (fNeg w) = -fVal w := by
  simp only [fVal, signBit_fNeg, magBits_fNeg]; cases signBit w <;> simp

theorem fVal_natAbs (w : Word) : (fVal w).natAbs = magVal (magBits w) := by
  unfold fVal; split <;> simp

@[simp] theorem fVal_fAbs (w : Word) : fVal (fAbs w) = |fVal w| := by
  rw [← Int.natCast_natAbs, fVal_natAbs]; simp [fVal]

theorem notNaN_le {w : Word} (h : fIsNaN w = false) : magBits w ≤ infBits := by
  simpa [fIsNaN] using h

theorem notNaN_of_finite {w : Word} (h : fIsFinite w = true) : fIsNaN w = false := by
  simp only [fIsFinite, decide_eq_true_eq] at h
  simp only [fIsNaN, decide_eq_false_iff_not]; omega

theorem notInf_of_finite {w : Word} (h : fIsFinite w = true) : fIsInf w = false := by
  simp only [fIsFinite, decide_eq_true_eq] at h
  simp only [fIsInf, beq_eq_false_iff_ne]; omega

theorem finite_iff {w : Word} (h : fIsNaN w = false) : fIsFinite w = true ↔ |fVal w| < 2 ^ 128 * 2 ^ 149 := by
  have hm := notNaN_le h
  rw [← Int.natCast_natAbs, fVal_natAbs, fIsFinite, decide_eq_true_eq]
  constructor
  · intro hl
    have := magVal_lt_of_lt hl le_rfl
    rw [magVal_inf] at this
    exact_mod_cast this
  · intro hl
    rcases Nat.lt_or_ge (magBits w) infBits with h' | h'
    · exact h'
    · exfalso
      rw [le_antisymm hm h', magVal_inf] at hl
      exact absurd hl (by norm_num)

theorem abs_fVal_lt {w : Word} (h : fIsFinite w = true) : |fVal w| < 2 ^ 128 * 2 ^ 149 :=
  (finite_iff (notNaN_of_finite h)).1 h

theorem isZero_iff {w : Word} (h : fIsNaN w = false) : fIsZero w = true ↔ fVal w = 0 := by
  rw [fIsZero, beq_iff_eq, ← magVal_eq_zero (notNaN_le h), ← fVal_natAbs, Int.natAbs_eq_zero]

theorem notNaN_of_isZero {w : Word} (h : fIsZero w = true) : fIsNaN w = false := by
  rw [fIsZero, beq_iff_eq] at h; simp [fIsNaN, h]

theorem fVal_of_isZero {w : Word} (h : fIsZero w = true) : fVal w = 0 :=
  (isZero_iff (notNaN_of_isZero h)).1 h

theorem finite_of_isZero {w : Word} (h : fIsZero w = true) : fIsFinite w = true :=
  (finite_iff (notNaN_of_isZero h)).2 (by rw [fVal_of_isZero h]; norm_num)

/-- Two words that are no NaN and have the same value are the same word, or both zeros. -/
theorem eq_of_fVal_eq {a b : Word} (ha : fIsNaN a = false) (hb : fIsNaN b = false) (h : fVal a = fVal b)
    (h0 : fVal a ≠ 0) : a = b := by
  have hm : magBits a = magBits b :=
    magVal_inj (notNaN_le ha) (notNaN_le hb) (by rw [← fVal_natAbs, ← fVal_natAbs, h])
  refine word_eq ?_ hm
  unfold fVal at h h0
  rw [hm] at h h0
  cases h1 : signBit a <;> cases h2 : signBit b <;> simp_all

/-! ### Comparisons -/

theorem fLt_iff {a b : Word} (ha : fIsNaN a = false) (hb : fIsNaN b = false) : fLt a b = true ↔ fVal a < fVal b := by
  simp [fLt, ha, hb]

theorem fLe_iff {a b : Word} (ha : fIsNaN a = false) (hb : fIsNaN b = false) : fLe a b = true ↔ fVal a ≤ fVal b := by
  simp [fLe, ha, hb]

theorem fEq_iff {a b : Word} (ha : fIsNaN a = false) (hb : fIsNaN b = false) : fEq a b = true ↔ fVal a = fVal b := by
  simp [fEq, ha, hb]

theorem fLe_dest {a b : Word} (h : fLe a b = true) : fIsNaN a = false ∧ fIsNaN b = false ∧ fVal a ≤ fVal b := by
  simpa [fLe, and_assoc] using h

theorem fLt_dest {a b : Word} (h : fLt a b = true) : fIsNaN a = false ∧ fIsNaN b = false ∧ fVal a < fVal b := by
  simpa [fLt, and_assoc] using h

theorem fEq_dest {a b : Word} (h : fEq a b = true) : fIsNaN a = false ∧ fIsNaN b = false ∧ fVal a = fVal b := by
  simpa [fEq, and_assoc] using h

/-! ### Representable values and rounding -/

/-- `v` (in units of 2^-149) is the value of a word that is no NaN. -/
def Representable (v : Int) : Prop := ∃ m ≤ infBits, magVal m = v.natAbs

theorem representable_fVal {w : Word} (h : fIsNaN w = false) : Representable (fVal w) :=
  ⟨magBits w, notNaN_le h, (fVal_natAbs w).symm⟩

theorem representable_neg {v : Int} (h : Representable v) : Representable (-v) := by
  obtain ⟨m, a, b⟩ := h; exact ⟨m, a, by rw [b, Int.natAbs_neg]⟩

theorem representable_zero : Representable 0 := ⟨0, by decide, by simp⟩

theorem magVal_small {m : Nat} (h : m < 2 ^ 24) : magVal m = m := by
  unfold magVal
  split
  · rfl
  · have : m / 2 ^ 23 = 1 := by omega
    rw [this]; simp; omega

theorem magVal_scaled {k s : Nat} (h1 : 2 ^ 23 ≤ s) (h2 : s < 2 ^ 24) : magVal (k * 2 ^ 23 + s) = s * 2 ^ k := by
  have e1 : (k * 2 ^ 23 + s) / 2 ^ 23 = k + 1 := by omega
  have e2 : (k * 2 ^ 23 + s) % 2 ^ 23 = s - 2 ^ 23 := by omega
  unfold magVal
  rw [e1, e2, if_neg (Nat.succ_ne_zero k), Nat.add_sub_cancel, Nat.add_sub_cancel' h1]

/-- A 24-bit integer scaled by a power of two is representable. -/
theorem representable_scaled {a k : Nat} (ha : a < 2 ^ 24) (hk : k ≤ 253) :
    Representable ((a * 2 ^ k : Nat) : Int) := by
  have hinf : infBits = 0x7F800000 := rfl
  rcases Nat.lt_or_ge (a * 2 ^ k) (2 ^ 24) with h | h
  · exact ⟨a * 2 ^ k, by omega, by rw [magVal_small h, Int.natAbs_natCast]⟩
  · obtain ⟨c1, c2⟩ := log2_pow_mul_lt (q := a * 2 ^ k) (by omega)
    generalize (a * 2 ^ k).log2 = j at c1 c2
    have hj24 : 24 ≤ j := by
      by_contra hc
      have : 2 ^ (j + 1) ≤ 2 ^ 24 := Nat.pow_le_pow_right (by norm_num) (by omega)
      omega
    have hlt : a * 2 ^ k < 2 ^ (24 + k) := by
      rw [pow_add]; exact Nat.mul_lt_mul_of_pos_right ha (by positivity)
    have hjk : j - 23 ≤ k := by
      by_contra hc
      have h1 : 2 ^ (24 + k) ≤ 2 ^ j := Nat.pow_le_pow_right (by norm_num) (by omega)
      omega
    obtain ⟨i, hi⟩ : ∃ i, k = (j - 23) + i := ⟨k - (j - 23), by omega⟩
    have e : a * 2 ^ k = a * 2 ^ i * 2 ^ (j - 23) := by rw [hi, pow_add]; ring
    have s1 : 2 ^ 23 ≤ a * 2 ^ i := by
      by_contra hc
      have := Nat.mul_lt_mul_of_pos_right (not_le.1 hc) (show 0 < 2 ^ (j - 23) by positivity)
      rw [← e, ← pow_add, show 23 + (j - 23) = j by omega] at this
      omega
    have s2 : a * 2 ^ i < 2 ^ 24 := by
      by_contra hc
      have := Nat.mul_le_mul_right (2 ^ (j - 23)) (not_lt.1 hc)
      rw [← e, ← pow_add, show 24 + (j - 23) = j + 1 by omega] at this
      omega
    refine ⟨(j - 23) * 2 ^ 23 + a * 2 ^ i, by omega, ?_⟩
    rw [magVal_scaled s1 s2, Int.natAbs_natCast, e]

theorem representable_int {n : Int} (h : n.natAbs < 2 ^ 24) : Representable (n * 2 ^ 149) := by
  obtain ⟨m, a, b⟩ := representable_scaled (k := 149) h (by norm_num)
  refine ⟨m, a, ?_⟩
  rw [b, Int.natAbs_natCast, Int.natAbs_mul, Int.natAbs_pow]
  rfl

theorem representable_pow {k : Nat} (h : k ≤ 253) : Representable (2 ^ k) := by
  have := representable_scaled (a := 1) (k := k) (by norm_num) h
  simpa using this

/-- The binary32 value nearest to `z / d`, in units of 2^-149. -/
def roundVal (z : Int) (d : Nat) : Int :=
  if z < 0 then -(magVal (roundMag z.natAbs d) : Int) else (magVal (roundMag z.natAbs d) : Int)

@[simp] theorem roundVal_zero (d : Nat) : roundVal 0 d = 0 := by
  simp [roundVal, roundMag, roundHalfEven]

theorem roundVal_neg (z : Int) (d : Nat) : roundVal (-z) d = -roundVal z d := by
  rcases lt_trichotomy z 0 with h | rfl | h
  · have : ¬ -z < 0 := by omega
    simp only [roundVal, h, this, if_true, if_false, Int.natAbs_neg, neg_neg]
  · simp
  · have h1 : ¬ z < 0 := by omega
    have h2 : -z < 0 := by omega
    simp only [roundVal, h1, h2, if_true, if_false, Int.natAbs_neg]

theorem roundVal_nonneg {z : Int} {d : Nat} (h : 0 ≤ z) : 0 ≤ roundVal z d := by
  simp [roundVal, not_lt.2 h]

theorem roundVal_mono_nonneg {z₁ z₂ : Int} {d₁ d₂ : Nat} (h1 : 0 < d₁) (h2 : 0 < d₂) (hz : 0 ≤ z₁)
    (h : z₁ * d₂ ≤ z₂ * d₁) : roundVal z₁ d₁ ≤ roundVal z₂ d₂ := by
  have hz2 : 0 ≤ z₂ := by
    by_contra hc
    have : z₂ * d₁ < 0 := mul_neg_of_neg_of_pos (not_le.1 hc) (by exact_mod_cast h1)
    have : 0 ≤ z₁ * d₂ := mul_nonneg hz (by positivity)
    omega
  obtain ⟨a, rfl⟩ := Int.eq_ofNat_of_zero_le hz
  obtain ⟨b, rfl⟩ := Int.eq_ofNat_of_zero_le hz2
  have h' : a * d₂ ≤ b * d₁ := by exact_mod_cast h
  simp only [roundVal, not_lt.2 hz, not_lt.2 hz2, if_false, Int.natAbs_natCast]
  exact_mod_cast magVal_le_of_le (roundMag_mono h1 h2 h') (roundMag_le_inf _ _)

/-- Rounding is monotone. -/
theorem roundVal_mono {z₁ z₂ : Int} {d₁ d₂ : Nat} (h1 : 0 < d₁) (h2 : 0 < d₂) (h : z₁ * d₂ ≤ z₂ * d₁) :
    roundVal z₁ d₁ ≤ roundVal z₂ d₂ := by
  rcases lt_or_ge z₁ 0 with hz | hz
  · rcases lt_or_ge z₂ 0 with hz2 | hz2
    · have := roundVal_mono_nonneg (z₁ := -z₂) (z₂ := -z₁) h2 h1 (by omega) (by nlinarith)
      rw [roundVal_neg, roundVal_neg] at this
      omega
    · have a := roundVal_nonneg (d := d₁) (show 0 ≤ -z₁ by omega)
      have b := roundVal_nonneg (d := d₂) hz2
      rw [roundVal_neg] at a
      omega
  · exact roundVal_mono_nonneg h1 h2 hz h

/-- Rounding leaves a representable value alone. -/
theorem roundVal_exact {v : Int} {d : Nat} (hd : 0 < d) (hv : Representable v) : roundVal (v * d) d = v := by
  obtain ⟨m, hm, hv⟩ := hv
  have e : (v * (d : Int)).natAbs = magVal m * d := by rw [Int.natAbs_mul, Int.natAbs_natCast, hv]
  have hs : v * (d : Int) < 0 ↔ v < 0 := by
    constructor
    · intro h; by_contra hc
      have : 0 ≤ v * (d : Int) := mul_nonneg (not_lt.1 hc) (by positivity)
      omega
    · intro h; exact mul_neg_of_neg_of_pos h (by exact_mod_cast hd)
  unfold roundVal
  rw [e, roundMag_magVal m hd, min_eq_left hm, hv]
  simp only [hs]
  split <;> omega

theorem roundVal_le {z v : Int} {d : Nat} (hd : 0 < d) (hv : Representable v) (h : z ≤ v * d) : roundVal z d ≤ v := by
  rw [← roundVal_exact hd hv]
  exact roundVal_mono hd hd (mul_le_mul_of_nonneg_right h (by positivity))

theorem le_roundVal {z v : Int} {d : Nat} (hd : 0 < d) (hv : Representable v) (h : v * d ≤ z) : v ≤ roundVal z d := by
  rw [← roundVal_exact hd hv]
  exact roundVal_mono hd hd (mul_le_mul_of_nonneg_right h (by positivity))

theorem abs_roundVal_le {z v : Int} {d : Nat} (hd : 0 < d) (hv : Representable v) (h : |z| ≤ v * d) :
    |roundVal z d| ≤ v := by
  rw [abs_le] at h ⊢
  exact ⟨le_roundVal hd (representable_neg hv) (by rw [neg_mul]; exact h.1), roundVal_le hd hv h.2⟩

/-! ### The operations -/

theorem notNaN_ofSignMag (b : Bool) {m : Nat} (hm : m ≤ infBits) : fIsNaN (ofSignMag b m) = false := by
  have : m < 2 ^ 31 := lt_of_le_of_lt hm (by decide)
  simp only [fIsNaN, magBits_ofSignMag b this, decide_eq_false_iff_not]; omega

theorem fVal_ofSignMag (b : Bool) {m : Nat} (hm : m ≤ infBits) :
    fVal (ofSignMag b m) = if b then -(magVal m : Int) else (magVal m : Int) := by
  have : m < 2 ^ 31 := lt_of_le_of_lt hm (by decide)
  simp only [fVal, signBit_ofSignMag b this, magBits_ofSignMag b this]

theorem fVal_ofSignMag_round (z : Int) (d : Nat) :
    fVal (ofSignMag (decide (z < 0)) (roundMag z.natAbs d)) = roundVal z d := by
  rw [fVal_ofSignMag _ (roundMag_le_inf _ _), roundVal]; simp

/-- Addition of finite words. -/
theorem fAdd_spec {a b : Word} (ha : fIsFinite a = true) (hb : fIsFinite b = true) :
    fIsNaN (fAdd a b) = false ∧ fVal (fAdd a b) = roundVal (fVal a + fVal b) 1 := by
  unfold fAdd
  simp only [notNaN_of_finite ha, notNaN_of_finite hb, notInf_of_finite ha, notInf_of_finite hb, Bool.or_self,
    Bool.false_eq_true, if_false]
  split
  · rename_i h
    rw [h, roundVal_zero, fVal_ofSignMag _ (Nat.zero_le _)]
    exact ⟨notNaN_ofSignMag _ (Nat.zero_le _), by simp⟩
  · exact ⟨notNaN_ofSignMag _ (roundMag_le_inf _ _), fVal_ofSignMag_round _ _⟩

/-- Subtraction of finite words. -/
theorem fSub_spec {a b : Word} (ha : fIsFinite a = true) (hb : fIsFinite b = true) :
    fIsNaN (fSub a b) = false ∧ fVal (fSub a b) = roundVal (fVal a - fVal b) 1 := by
  have := fAdd_spec ha (b := fNeg b) (by simpa using hb)
  simpa [fSub, sub_eq_add_neg] using this

theorem sign_mag_round (a b : Word) (n d : Nat) (z : Int)
    (hn : n = z.natAbs) (hz : 0 < z → signBit a = signBit b) (hz' : z < 0 → signBit a ≠ signBit b) :
    fVal (ofSignMag (signBit a != signBit b) (roundMag n d)) = roundVal z d := by
  rw [fVal_ofSignMag _ (roundMag_le_inf _ _), hn, roundVal]
  rcases lt_trichotomy z 0 with h | rfl | h
  · have := hz' h
    simp [h, this]
  · simp [roundMag, roundHalfEven]
  · have := hz h
    simp [not_lt.2 h.le, this]

/-- Multiplication of finite words. -/
theorem fMul_spec {a b : Word} (ha : fIsFinite a = true) (hb : fIsFinite b = true) :
    fIsNaN (fMul a b) = false ∧ fVal (fMul a b) = roundVal (fVal a * fVal b) (2 ^ 149) := by
  unfold fMul
  simp only [notNaN_of_finite ha, notNaN_of_finite hb, notInf_of_finite ha, notInf_of_finite hb, Bool.or_self,
    Bool.false_eq_true, if_false]
  refine ⟨notNaN_ofSignMag _ (roundMag_le_inf _ _), sign_mag_round a b _ _ _ ?_ ?_ ?_⟩
  · rw [Int.natAbs_mul, fVal_natAbs, fVal_natAbs]
  · unfold fVal
    have := mul_nonneg (Int.natCast_nonneg (magVal (magBits a))) (Int.natCast_nonneg (magVal (magBits b)))
    cases signBit a <;> cases signBit b <;> simp [this]
  · unfold fVal
    have := mul_nonneg (Int.natCast_nonneg (magVal (magBits a))) (Int.natCast_nonneg (magVal (magBits b)))
    cases signBit a <;> cases signBit b <;> simp [this]

/-- Division of a finite word by a finite one that is not zero. -/
theorem fDiv_spec {a b : Word} (ha : fIsFinite a = true) (hb : fIsFinite b = true) (h0 : fVal b ≠ 0) :
    fIsNaN (fDiv a b) = false ∧
      fVal (fDiv a b) = roundVal (fVal a * (fVal b).sign * 2 ^ 149) (fVal b).natAbs := by
  have hz : fIsZero b = false := by
    rw [Bool.eq_false_iff]; intro h; exact h0 (fVal_of_isZero h)
  unfold fDiv
  simp only [notNaN_of_finite ha, notNaN_of_finite hb, notInf_of_finite ha, notInf_of_finite hb, hz, Bool.or_self,
    Bool.false_eq_true, if_false]
  refine ⟨notNaN_ofSignMag _ (roundMag_le_inf _ _), ?_⟩
  rw [fVal_natAbs]
  have hpos : 0 < magVal (magBits b) := by
    rw [← fVal_natAbs]; omega
  have hsign : (fVal b).sign = if signBit b then -1 else 1 := by
    unfold fVal
    split
    · rw [Int.sign_neg, Int.sign_natCast_of_ne_zero (by omega)]
    · rw [Int.sign_natCast_of_ne_zero (by omega)]
  refine sign_mag_round a b _ _ _ ?_ ?_ ?_
  · rw [Int.natAbs_mul, Int.natAbs_mul, fVal_natAbs, hsign]
    split <;> simp
  · rw [hsign]; unfold fVal
    cases signBit a <;> cases signBit b <;> simp
  · rw [hsign]; unfold fVal
    cases signBit a <;> cases signBit b <;> simp

/-- A literal. -/
theorem fLit_spec (n : Int) (d : Nat) : fIsNaN (fLit n d) = false ∧ fVal (fLit n d) = roundVal (n * 2 ^ 149) d := by
  unfold fLit
  refine ⟨notNaN_ofSignMag _ (roundMag_le_inf _ _), ?_⟩
  have e : (n * 2 ^ 149 : Int).natAbs = n.natAbs * 2 ^ 149 := by rw [Int.natAbs_mul]; simp
  have s : (n * 2 ^ 149 : Int) < 0 ↔ n < 0 := by
    constructor
    · intro h; by_contra hc
      have : (0 : Int) ≤ n * 2 ^ 149 := mul_nonneg (not_lt.1 hc) (by positivity)
      omega
    · intro h; exact mul_neg_of_neg_of_pos h (by positivity)
  rw [← e, ← fVal_ofSignMag_round]
  simp only [s]

/-- An integer of at most 24 bits converts exactly (00_scope.md R16). -/
theorem fLit_int {n : Int} (h : n.natAbs < 2 ^ 24) :
    fIsNaN (fLit n 1) = false ∧ fIsFinite (fLit n 1) = true ∧ fVal (fLit n 1) = n * 2 ^ 149 := by
  obtain ⟨h1, h2⟩ := fLit_spec n 1
  have h3 : fVal (fLit n 1) = n * 2 ^ 149 := by
    rw [h2]
    have := roundVal_exact (d := 1) one_pos (representable_int h)
    simpa using this
  refine ⟨h1, (finite_iff h1).2 ?_, h3⟩
  have : |n| < 2 ^ 24 := by rw [← Int.natCast_natAbs]; exact_mod_cast h
  rw [h3, abs_mul, abs_of_pos (show (0 : Int) < 2 ^ 149 by positivity)]
  exact mul_lt_mul_of_pos_right (by omega) (by positivity)

end Sys2Proof.Machine
end

