-- ==== Sys2Proof/Laws/Datapath.lean ====
section
/-! SUPPORT. Bounds through the datapath in the datapath reading: what every stage of `PROCESS_CH` can give, from crude
power-of-two bounds on its operands. -/

namespace Sys2Proof.Machine

set_option Elab.async false

section Projections
variable (a b : Word) (n : Int) (d : Nat)
@[simp] theorem b32_lit : b32.lit n d = fLit n d := rfl
@[simp] theorem b32_add : b32.add a b = fAdd a b := rfl
@[simp] theorem b32_sub : b32.sub a b = fSub a b := rfl
@[simp] theorem b32_mul : b32.mul a b = fMul a b := rfl
@[simp] theorem b32_div : b32.div a b = fDiv a b := rfl
@[simp] theorem b32_neg : b32.neg a = fNeg a := rfl
@[simp] theorem b32_abs : b32.abs a = fAbs a := rfl
@[simp] theorem b32_lt : b32.lt a b = fLt a b := rfl
@[simp] theorem b32_le : b32.le a b = fLe a b := rfl
@[simp] theorem b32_floor : b32.floor a = fFloor a := rfl
@[simp] theorem b32_ceil : b32.ceil a = fCeil a := rfl
@[simp] theorem b32_isFinite : b32.isFinite a = fIsFinite a := rfl
@[simp] theorem b32_isNaN : b32.isNaN a = fIsNaN a := rfl
@[simp] theorem b32_toF : toF b32 n = fLit n 1 := rfl
end Projections

/-! ### Power-of-two bounds -/

/-- No NaN, and of magnitude at most `2^i`. -/
def Bounded (i : Nat) (w : Word) : Prop := fIsNaN w = false ∧ |fVal w| ≤ 2 ^ (149 + i)

theorem Bounded.mono {i j : Nat} {w : Word} (h : Bounded i w) (hij : i ≤ j) : Bounded j w :=
  ⟨h.1, h.2.trans (pow_le_pow_right₀ (by norm_num) (by omega))⟩

theorem Bounded.finite {i : Nat} {w : Word} (h : Bounded i w) (hi : i ≤ 100) : fIsFinite w = true := by
  refine (finite_iff h.1).2 (lt_of_le_of_lt h.2 ?_)
  calc (2 : Int) ^ (149 + i) ≤ 2 ^ 249 := pow_le_pow_right₀ (by norm_num) (by omega)
    _ < 2 ^ 128 * 2 ^ 149 := by norm_num

theorem bounded_add {i : Nat} {a b : Word} (ha : Bounded i a) (hb : Bounded i b) (hi : i ≤ 99) :
    Bounded (i + 1) (fAdd a b) := by
  obtain ⟨h1, h2⟩ := fAdd_spec (ha.finite (by omega)) (hb.finite (by omega))
  refine ⟨h1, ?_⟩
  rw [h2]
  refine abs_roundVal_le one_pos (representable_pow (by omega)) ?_
  have := abs_add_le (fVal a) (fVal b)
  have e : (2 : Int) ^ (149 + (i + 1)) = 2 ^ (149 + i) + 2 ^ (149 + i) := by rw [← add_assoc, pow_succ]; ring
  have := ha.2; have := hb.2
  simp only [Nat.cast_one, mul_one]; omega

theorem bounded_neg {i : Nat} {a : Word} (ha : Bounded i a) : Bounded i (fNeg a) :=
  ⟨by simpa using ha.1, by simpa using ha.2⟩

theorem bounded_abs {i : Nat} {a : Word} (ha : Bounded i a) : Bounded i (fAbs a) :=
  ⟨by simpa using ha.1, by simpa using ha.2⟩

theorem bounded_sub {i : Nat} {a b : Word} (ha : Bounded i a) (hb : Bounded i b) (hi : i ≤ 99) :
    Bounded (i + 1) (fSub a b) := bounded_add ha (bounded_neg hb) hi

theorem bounded_mul {i j : Nat} {a b : Word} (ha : Bounded i a) (hb : Bounded j b) (hi : i + j ≤ 100) :
    Bounded (i + j) (fMul a b) := by
  obtain ⟨h1, h2⟩ := fMul_spec (ha.finite (by omega)) (hb.finite (by omega))
  refine ⟨h1, ?_⟩
  rw [h2]
  refine abs_roundVal_le (by positivity) (representable_pow (by omega)) ?_
  rw [abs_mul]
  calc |fVal a| * |fVal b| ≤ 2 ^ (149 + i) * 2 ^ (149 + j) :=
        mul_le_mul ha.2 hb.2 (abs_nonneg _) (by positivity)
    _ = 2 ^ (149 + (i + j)) * ((2 ^ 149 : Nat) : Int) := by
        rw [Nat.cast_pow, Nat.cast_ofNat, ← pow_add, ← pow_add]; congr 1; omega

/-- Division by a word of value at least `2^-j`. -/
theorem bounded_div {i j : Nat} {a b : Word} (ha : Bounded i a) (hb : fIsFinite b = true)
    (hj : j ≤ 149) (h0 : 2 ^ (149 - j) ≤ fVal b) (hi : i + j ≤ 100) : Bounded (i + j) (fDiv a b) := by
  have hpos : 0 < fVal b := lt_of_lt_of_le (by positivity) h0
  obtain ⟨h1, h2⟩ := fDiv_spec (ha.finite (by omega)) hb hpos.ne'
  refine ⟨h1, ?_⟩
  rw [h2]
  refine abs_roundVal_le (by omega) (representable_pow (by omega)) ?_
  rw [Int.sign_eq_one_of_pos hpos, mul_one, abs_mul, abs_of_pos (show (0 : Int) < 2 ^ 149 by positivity),
    Int.natCast_natAbs, abs_of_pos hpos]
  calc |fVal a| * 2 ^ 149 ≤ 2 ^ (149 + i) * 2 ^ 149 := mul_le_mul_of_nonneg_right ha.2 (by positivity)
    _ = 2 ^ (149 + (i + j)) * 2 ^ (149 - j) := by rw [← pow_add, ← pow_add]; congr 1; omega
    _ ≤ 2 ^ (149 + (i + j)) * fVal b := mul_le_mul_of_nonneg_left h0 (by positivity)

theorem bounded_lit {n : Int} {i : Nat} (h : n.natAbs < 2 ^ 24) (hn : |n| ≤ 2 ^ i) : Bounded i (fLit n 1) := by
  obtain ⟨h1, _, h3⟩ := fLit_int h
  refine ⟨h1, ?_⟩
  rw [h3, abs_mul, abs_of_pos (show (0 : Int) < 2 ^ 149 by positivity), pow_add, mul_comm]
  exact mul_le_mul_of_nonneg_left hn (by positivity)

/-! ### The constants -/

theorem fVal_zero : fVal 0#32 = 0 := by decide
theorem notNaN_zero : fIsNaN 0#32 = false := by decide
theorem fLit_zero : fLit 0 1 = 0#32 := by decide +kernel
theorem fLit_one : fLit 1 1 = 0x3F800000#32 := by decide +kernel
theorem notNaN_one : fIsNaN (fLit 1 1) = false := (fLit_int (by decide)).1
theorem fVal_one : fVal (fLit 1 1) = 2 ^ 149 := by simpa using (fLit_int (n := 1) (by decide)).2.2
theorem notNaN_negOne : fIsNaN (fLit (-1) 1) = false := (fLit_int (by decide)).1
theorem fVal_negOne : fVal (fLit (-1) 1) = -2 ^ 149 := by simpa using (fLit_int (n := -1) (by decide)).2.2
theorem fVal_ten : fVal (fLit 10 1) = 10 * 2 ^ 149 := (fLit_int (n := 10) (by decide)).2.2
theorem notNaN_ten : fIsNaN (fLit 10 1) = false := (fLit_int (by decide)).1
theorem notNaN_half : fIsNaN (fLit 1 2) = false := (fLit_spec 1 2).1
theorem fVal_half : fVal (fLit 1 2) = 2 ^ 148 := by decide +kernel
theorem bounded_half : Bounded 0 (fLit 1 2) := ⟨notNaN_half, by rw [fVal_half]; norm_num⟩
theorem notNaN_maxFinite : fIsNaN maxFinite = false := by decide
theorem maxFinite_finite : fIsFinite maxFinite = true := by decide
theorem one_le_maxFinite : fVal (fLit 1 1) ≤ fVal maxFinite := by decide +kernel
theorem notNaN_tenth : fIsNaN (fLit 1 10) = false := (fLit_spec 1 10).1
theorem tenth_pos : 0 < fVal (fLit 1 10) := by decide +kernel
theorem tenth_le_one : fVal (fLit 1 10) ≤ fVal (fLit 1 1) := by decide +kernel

/-! ### Clamping -/

/-- What `clamp` gives on operands that are no NaN: a value in the range, the operand itself if it was in it. -/
theorem clamp_spec {v lo hi : Word} (hv : fIsNaN v = false) (hlo : fIsNaN lo = false) (hhi : fIsNaN hi = false)
    (h : fVal lo ≤ fVal hi) :
    fIsNaN (clamp b32 v lo hi) = false ∧ fVal lo ≤ fVal (clamp b32 v lo hi) ∧ fVal (clamp b32 v lo hi) ≤ fVal hi ∧
      fVal (clamp b32 v lo hi) = max (fVal lo) (min (fVal v) (fVal hi)) := by
  unfold clamp
  simp only [b32_lt, fLt_iff hv hlo, fLt_iff hhi hv]
  split
  · exact ⟨hlo, le_rfl, h, by omega⟩
  · split
    · exact ⟨hhi, h, le_rfl, by omega⟩
    · exact ⟨hv, by omega, by omega, by omega⟩

/-- `clampP` with a `NANP` that gives a value of the range: never a NaN, always in the range (43_bitcrusher_channel.md
R128). -/
theorem clampP_spec (nanp : Word → Word → Word) (v : Word) {lo hi : Word} (hlo : fIsNaN lo = false)
    (hhi : fIsNaN hi = false) (h : fVal lo ≤ fVal hi)
    (hn : fIsNaN (nanp lo hi) = false ∧ fVal lo ≤ fVal (nanp lo hi) ∧ fVal (nanp lo hi) ≤ fVal hi) :
    fIsNaN (clampP b32 nanp v lo hi) = false ∧ fVal lo ≤ fVal (clampP b32 nanp v lo hi) ∧
      fVal (clampP b32 nanp v lo hi) ≤ fVal hi := by
  unfold clampP
  by_cases hv : b32.isNaN v = true
  · rw [if_pos hv]; exact hn
  · rw [if_neg hv]
    have := clamp_spec (v := v) (by simpa using hv) hlo hhi h
    exact ⟨this.1, this.2.1, this.2.2.1⟩

theorem limitTo_spec (v : Word) {lo hi : Word} (hlo : fIsNaN lo = false) (hhi : fIsNaN hi = false)
    (h : fVal lo ≤ fVal hi) :
    fIsNaN (limitTo v lo hi) = false ∧ fVal lo ≤ fVal (limitTo v lo hi) ∧ fVal (limitTo v lo hi) ≤ fVal hi :=
  clampP_spec (fun l _ => l) v hlo hhi h ⟨hlo, le_rfl, h⟩

theorem bounded_clamp {v : Word} (hv : fIsNaN v = false) : Bounded 0 (clamp b32 v (fLit (-1) 1) (fLit 1 1)) := by
  have := clamp_spec hv notNaN_negOne notNaN_one (by rw [fVal_negOne, fVal_one]; norm_num)
  rw [fVal_negOne, fVal_one] at this
  exact ⟨this.1, abs_le.2 ⟨by simpa using this.2.1, by simpa using this.2.2.1⟩⟩

/-! ### Words in [0, 1] and in [−1, 1] -/

theorem inUnit_iff {v : Word} : inUnit v = true ↔ fIsNaN v = false ∧ 0 ≤ fVal v ∧ fVal v ≤ 2 ^ 149 := by
  unfold inUnit
  constructor
  · intro h
    rw [Bool.and_eq_true] at h
    have a := fLe_dest h.1; have b := fLe_dest h.2
    rw [fVal_zero] at a; rw [fVal_one] at b
    exact ⟨b.1, a.2.2, b.2.2⟩
  · rintro ⟨h1, h2, h3⟩
    rw [Bool.and_eq_true, fLe_iff notNaN_zero h1, fLe_iff h1 notNaN_one, fVal_zero, fVal_one]
    exact ⟨h2, h3⟩

theorem inUnit_bounded {v : Word} (h : inUnit v = true) : Bounded 0 v := by
  rw [inUnit_iff] at h
  exact ⟨h.1, by rw [abs_of_nonneg h.2.1]; simpa using h.2.2⟩

theorem inFullScale_of_bounded {v : Word} (h : Bounded 0 v) : inFullScale v = true := by
  have h2 := abs_le.1 h.2
  unfold inFullScale
  rw [Bool.and_eq_true, Bool.and_eq_true, fLe_iff notNaN_negOne h.1, fLe_iff h.1 notNaN_one, fVal_negOne, fVal_one]
  exact ⟨⟨h.finite (by norm_num), by simpa using h2.1⟩, by simpa using h2.2⟩

theorem bounded_of_inFullScale {v : Word} (h : inFullScale v = true) : Bounded 0 v := by
  unfold inFullScale at h
  rw [Bool.and_eq_true, Bool.and_eq_true] at h
  have a := fLe_dest h.1.2; have b := fLe_dest h.2
  rw [fVal_negOne] at a; rw [fVal_one] at b
  exact ⟨b.1, abs_le.2 ⟨by simpa using a.2.2, by simpa using b.2.2⟩⟩

/-! ### The quantizer -/

theorem gridStep_spec {L : Nat} (h1 : 3 ≤ L) (h2 : L ≤ 65535) :
    fIsFinite (gridStep b32 L) = true ∧ 2 ^ 134 ≤ fVal (gridStep b32 L) ∧ fVal (gridStep b32 L) ≤ 2 ^ 149 := by
  have hL : (((L : Int) - 1).natAbs) < 2 ^ 24 := by omega
  obtain ⟨_, a2, a3⟩ := fLit_int (n := 2) (by decide)
  obtain ⟨_, b2, b3⟩ := fLit_int hL
  have hpos : 0 < fVal (fLit ((L : Int) - 1) 1) := by rw [b3]; exact mul_pos (by omega) (by positivity)
  obtain ⟨c1, c2⟩ := fDiv_spec a2 b2 hpos.ne'
  have e : gridStep b32 L = fDiv (fLit 2 1) (fLit ((L : Int) - 1) 1) := rfl
  have hd : (((fVal (fLit ((L : Int) - 1) 1)).natAbs : Nat) : Int) = ((L : Int) - 1) * 2 ^ 149 := by
    rw [Int.natCast_natAbs, abs_of_pos hpos, b3]
  rw [Int.sign_eq_one_of_pos hpos, mul_one, a3] at c2
  have lo : (2 : Int) ^ 134 ≤ fVal (gridStep b32 L) := by
    rw [e, c2]
    refine le_roundVal (by omega) (representable_pow (by norm_num)) ?_
    rw [hd]
    have : ((L : Int) - 1) ≤ 2 ^ 16 := by omega
    nlinarith [show (0 : Int) < 2 ^ 134 * 2 ^ 149 by positivity]
  have hi : fVal (gridStep b32 L) ≤ 2 ^ 149 := by
    rw [e, c2]
    refine roundVal_le (by omega) (representable_pow (by norm_num)) ?_
    rw [hd]
    have : 2 ≤ ((L : Int) - 1) := by omega
    nlinarith [show (0 : Int) < 2 ^ 149 * 2 ^ 149 by positivity]
  refine ⟨(finite_iff (by rw [e]; exact c1)).2 ?_, lo, hi⟩
  rw [abs_of_pos (lt_of_lt_of_le (by positivity) lo)]
  exact lt_of_le_of_lt hi (by norm_num)

theorem bounded_step {L : Nat} (h1 : 3 ≤ L) (h2 : L ≤ 65535) : Bounded 0 (gridStep b32 L) := by
  obtain ⟨a, b, c⟩ := gridStep_spec h1 h2
  exact ⟨notNaN_of_finite a, by rw [abs_of_pos (lt_of_lt_of_le (by positivity) b)]; simpa using c⟩

theorem floor_bound {w : Word} {i : Nat} (h : Bounded i w) : |fFloor w| ≤ 2 ^ i := by
  have h2 := abs_le.1 h.2
  rw [pow_add] at h2
  unfold fFloor
  rw [abs_le]
  constructor
  · rw [Int.le_ediv_iff_mul_le (by positivity)]; nlinarith
  · have : fVal w / 2 ^ 149 < 2 ^ i + 1 := by
      rw [Int.ediv_lt_iff_lt_mul (by positivity)]
      nlinarith [show (0 : Int) < 2 ^ 149 by positivity]
    omega

theorem gridIndex_bound {x : Word} {L : Nat} (hx : Bounded 0 x) (h1 : 3 ≤ L) (h2 : L ≤ 65535) :
    |gridIndex b32 x L| ≤ 2 ^ 15 := by
  obtain ⟨a, b, _⟩ := gridStep_spec h1 h2
  have := bounded_div (i := 0) (j := 15) hx a (by norm_num) (by simpa using b) (by norm_num)
  exact floor_bound (i := 15) this

theorem bounded_gridLow {x : Word} {L : Nat} (hx : Bounded 0 x) (h1 : 3 ≤ L) (h2 : L ≤ 65535) :
    Bounded 0 (gridLow b32 x L) := by
  have hk := gridIndex_bound hx h1 h2
  unfold gridLow gridLevel
  refine bounded_clamp ?_
  have hkn : (gridIndex b32 x L).natAbs < 2 ^ 24 := by
    have : ((gridIndex b32 x L).natAbs : Int) ≤ 2 ^ 15 := by rw [Int.natCast_natAbs]; exact hk
    omega
  exact (bounded_mul (bounded_lit hkn hk) (bounded_step h1 h2) (by norm_num)).1

theorem bounded_gridPhase {x : Word} {L : Nat} (hx : Bounded 0 x) (h1 : 3 ≤ L) (h2 : L ≤ 65535) :
    Bounded 16 (gridPhase b32 x L) := by
  obtain ⟨a, b, _⟩ := gridStep_spec h1 h2
  exact bounded_div (i := 1) (j := 15) (bounded_sub hx (bounded_gridLow hx h1 h2) (by norm_num)) a (by norm_num)
    (by simpa using b) (by norm_num)

theorem bounded_lerp {i j : Nat} {a b t : Word} (ha : Bounded i a) (hb : Bounded i b) (ht : Bounded j t)
    (hi : i + j ≤ 90) : Bounded (i + j + 2) (lerp b32 a b t) := by
  unfold lerp
  have h1 := bounded_mul ht (bounded_sub hb ha (by omega)) (by omega)
  exact bounded_add (i := i + j + 1) (ha.mono (by omega)) (h1.mono (by omega)) (by omega)

theorem bounded_smoothstep {p : Word} (hp : Bounded 16 p) : Bounded 50 (smoothstep b32 p) := by
  unfold smoothstep
  have t3 : Bounded 2 (fLit 3 1) := bounded_lit (by decide) (by norm_num)
  have t2 : Bounded 1 (fLit 2 1) := bounded_lit (by decide) (by norm_num)
  have h1 := bounded_mul (bounded_mul t3 hp (by norm_num)) hp (by norm_num)
  have h2 := bounded_mul (bounded_mul (bounded_mul t2 hp (by norm_num)) hp (by norm_num)) hp (by norm_num)
  exact bounded_sub (i := 49) (h1.mono (by norm_num)) (h2.mono (by norm_num)) (by norm_num)

theorem bounded_hardstep (p : Word) : Bounded 0 (hardstep b32 p) := by
  unfold hardstep
  split
  · exact bounded_lit (by decide) (by norm_num)
  · exact bounded_lit (by decide) (by norm_num)

theorem bounded_blend {p s : Word} (hp : Bounded 16 p) (hs : Bounded 0 s) : Bounded 54 (blend b32 p s) := by
  have t2 : Bounded 1 (fLit 2 1) := bounded_lit (by decide) (by norm_num)
  unfold blend
  split
  · exact (bounded_lerp (i := 50) (hp.mono (by norm_num)) (bounded_smoothstep hp) (bounded_mul hs t2 (by norm_num))
      (by norm_num)).mono (by norm_num)
  · exact (bounded_lerp (i := 50) (bounded_smoothstep hp) ((bounded_hardstep p).mono (by norm_num))
      (bounded_mul (bounded_sub hs bounded_half (by norm_num)) t2 (by norm_num)) (by norm_num)).mono (by norm_num)

/-- `quantize` on a sample and a softness of the contract, at a level count BCQ uses, is finite. -/
theorem bounded_quantize {x s : Word} {L : Nat} (hx : Bounded 0 x) (hs : Bounded 0 s) (h : L = 1 ∨ 3 ≤ L)
    (h2 : L ≤ 65535) : Bounded 55 (quantize b32 x L s) := by
  unfold quantize
  rcases h with rfl | h1
  · exact bounded_lit (by decide) (by norm_num)
  · rw [if_neg (by omega)]
    exact bounded_add (i := 54) ((bounded_gridLow hx h1 h2).mono (by norm_num))
      (bounded_mul (bounded_blend (bounded_gridPhase hx h1 h2) hs) (bounded_step h1 h2) (by norm_num)) (by norm_num)

/-! ### The sign -/

theorem sign_cases (v : Word) :
    sign b32 v = fLit (-1) 1 ∨ sign b32 v = fLit 1 1 ∨ sign b32 v = fLit 0 1 := by
  unfold sign
  split
  · exact .inl rfl
  · split
    · exact .inr (.inl rfl)
    · exact .inr (.inr rfl)

theorem bounded_sign (v : Word) : Bounded 0 (sign b32 v) := by
  rcases sign_cases v with h | h | h <;> rw [h] <;> exact bounded_lit (by decide) (by norm_num)

/-- A word times a sign, exactly. -/
theorem sign_mul_spec (v : Word) {m : Word} (hm : fIsFinite m = true) :
    fIsNaN (fMul (sign b32 v) m) = false ∧ |fVal (fMul (sign b32 v) m)| ≤ |fVal m| := by
  obtain ⟨h1, h2⟩ := fMul_spec ((bounded_sign v).finite (by norm_num)) hm
  refine ⟨h1, ?_⟩
  rw [h2]
  have hr : Representable |fVal m| := by
    rcases abs_choice (fVal m) with h | h <;> rw [h]
    · exact representable_fVal (notNaN_of_finite hm)
    · exact representable_neg (representable_fVal (notNaN_of_finite hm))
  refine abs_roundVal_le (by positivity) hr ?_
  rw [abs_mul]
  have := (bounded_sign v).2
  simp only [add_zero] at this
  push_cast
  rw [mul_comm]
  exact mul_le_mul_of_nonneg_left this (abs_nonneg _)

end Sys2Proof.Machine
end

