-- ==== Sys2Proof/Laws/Instances.lean ====
section
/-! SUPPORT. What the open functions give (00_scope.md R15, 43_bitcrusher_channel.md R135): the machine's instances over
any raw function, and `ConfigSafe`, the little of it that bounds on the channel need, for every configuration. -/

namespace Sys2Proof.Machine

set_option Elab.async false

/-! ### Values and ranges -/

theorem sameValue_iff {a b : Word} :
    sameValue b32 a b = true ↔ fIsNaN a = false ∧ fIsNaN b = false ∧ fVal a = fVal b := by
  simp only [sameValue, b32_le, Bool.and_eq_true]
  constructor
  · rintro ⟨h1, h2⟩
    have a := fLe_dest h1; have b := fLe_dest h2
    exact ⟨a.1, a.2.1, by omega⟩
  · rintro ⟨h1, h2, h3⟩
    rw [fLe_iff h1 h2, fLe_iff h2 h1]; omega

theorem within_dest {v lo hi : Word} (h : within b32 v lo hi = true) :
    fIsNaN v = false ∧ fVal lo ≤ fVal v ∧ fVal v ≤ fVal hi := by
  simp only [within, b32_le, Bool.and_eq_true] at h
  have a := fLe_dest h.1; have b := fLe_dest h.2
  exact ⟨a.2.1, a.2.2, b.2.2⟩

theorem within_iff {v lo hi : Word} (hl : fIsNaN lo = false) (hh : fIsNaN hi = false) :
    within b32 v lo hi = true ↔ fIsNaN v = false ∧ fVal lo ≤ fVal v ∧ fVal v ≤ fVal hi := by
  refine ⟨within_dest, ?_⟩
  rintro ⟨a, b, c⟩
  simp only [within, b32_le, Bool.and_eq_true]
  rw [fLe_iff hl a, fLe_iff a hh]; exact ⟨b, c⟩

/-! ### Running along the magnitudes -/

/-- Everything `runMax` gives: no NaN, not below any value met, and one of them. -/
theorem runMax_spec {f : Nat → Word} {m : Nat} (h : ∀ k ≤ m, fIsNaN (f k) = false) :
    fIsNaN (runMax f m) = false ∧ (∀ k ≤ m, fVal (f k) ≤ fVal (runMax f m)) ∧ ∃ k ≤ m, runMax f m = f k := by
  induction m with
  | zero => exact ⟨h 0 le_rfl, fun k hk => by rw [Nat.le_zero.1 hk]; exact le_rfl, 0, le_rfl, rfl⟩
  | succ m ih =>
    obtain ⟨h1, h2, k, hk, h3⟩ := ih fun k hk => h k (by omega)
    have hn := h (m + 1) le_rfl
    unfold runMax
    split
    · rename_i hle
      rw [fLe_iff hn h1] at hle
      refine ⟨h1, fun j hj => ?_, k, by omega, h3⟩
      rcases Nat.le_succ_iff.1 hj with hj | rfl
      · exact h2 j hj
      · exact hle
    · rename_i hle
      rw [fLe_iff hn h1] at hle
      refine ⟨hn, fun j hj => ?_, m + 1, le_rfl, rfl⟩
      rcases Nat.le_succ_iff.1 hj with hj | rfl
      · have := h2 j hj; omega
      · exact le_rfl

/-- Everything `runMin` gives: no NaN, not above any value met, and one of them. -/
theorem runMin_spec {f : Nat → Word} {m : Nat} (h : ∀ k ≤ m, fIsNaN (f k) = false) :
    fIsNaN (runMin f m) = false ∧ (∀ k ≤ m, fVal (runMin f m) ≤ fVal (f k)) ∧ ∃ k ≤ m, runMin f m = f k := by
  induction m with
  | zero => exact ⟨h 0 le_rfl, fun k hk => by rw [Nat.le_zero.1 hk]; exact le_rfl, 0, le_rfl, rfl⟩
  | succ m ih =>
    obtain ⟨h1, h2, k, hk, h3⟩ := ih fun k hk => h k (by omega)
    have hn := h (m + 1) le_rfl
    unfold runMin
    split
    · rename_i hlt
      rw [fLt_iff hn h1] at hlt
      refine ⟨hn, fun j hj => ?_, m + 1, le_rfl, rfl⟩
      rcases Nat.le_succ_iff.1 hj with hj | rfl
      · have := h2 j hj; omega
      · exact le_rfl
    · rename_i hlt
      rw [fLt_iff hn h1] at hlt
      refine ⟨h1, fun j hj => ?_, k, by omega, h3⟩
      rcases Nat.le_succ_iff.1 hj with hj | rfl
      · exact h2 j hj
      · exact not_lt.1 hlt

/-! ### `POW` -/

/-- A power before monotonicity: no NaN, in `[0, maxFinite]`, and in `[0, 1]` for a base up to one. -/
theorem powAt_spec (raw : Word → Word → Word) (e : Word) (m : Nat) :
    fIsNaN (powAt raw e m) = false ∧ 0 ≤ fVal (powAt raw e m) ∧ fVal (powAt raw e m) ≤ fVal maxFinite ∧
      (m ≤ magBits (fLit 1 1) → fVal (powAt raw e m) ≤ 2 ^ 149) := by
  have hm := one_le_maxFinite
  rw [fVal_one] at hm
  unfold powAt
  split
  · exact ⟨notNaN_zero, by rw [fVal_zero], by rw [fVal_zero]; omega, fun _ => by rw [fVal_zero]; positivity⟩
  · split
    · have := limitTo_spec (raw (ofSignMag false m) e) notNaN_zero notNaN_one (by rw [fVal_zero, fVal_one]; positivity)
      rw [fVal_zero, fVal_one] at this
      exact ⟨this.1, this.2.1, by omega, fun _ => this.2.2⟩
    · split
      · exact ⟨notNaN_one, by rw [fVal_one]; positivity, by rw [fVal_one]; exact hm, fun _ => fVal_one.le⟩
      · have := limitTo_spec (raw (ofSignMag false m) e) notNaN_one notNaN_maxFinite one_le_maxFinite
        rw [fVal_one] at this
        exact ⟨this.1, by omega, this.2.2, fun h => by omega⟩

/-- A power over a free instance is finite and not negative, for a finite base that is not negative. -/
theorem powOf_spec (raw : Word → Word → Word) {b : Word} (e : Word) (hb : fIsFinite b = true) (h0 : 0 ≤ fVal b) :
    fIsFinite (powOf raw b e) = true ∧ 0 ≤ fVal (powOf raw b e) := by
  unfold powOf
  split
  · exact ⟨by decide, by rw [fVal_zero]⟩
  · split
    · exact ⟨(fLit_int (by decide)).2.1, by rw [fVal_one]; positivity⟩
    · split
      · exact ⟨hb, h0⟩
      · obtain ⟨h1, _, k, _, h3⟩ := runMax_spec (f := powAt raw e) (m := magBits b) fun k _ => (powAt_spec raw e k).1
        obtain ⟨_, k2, k3, _⟩ := powAt_spec raw e k
        rw [h3]
        rw [h3] at h1
        refine ⟨(finite_iff h1).2 ?_, k2⟩
        rw [abs_of_nonneg k2]
        exact lt_of_le_of_lt k3 (lt_of_le_of_lt (le_abs_self _) (abs_fVal_lt maxFinite_finite))

/-- The bits of a word in `[0, 1]` are not above those of one. -/
theorem magBits_le_one {b : Word} (hb : inUnit b = true) : magBits b ≤ magBits (fLit 1 1) := by
  have h := inUnit_iff.1 hb
  by_contra hc
  have := magVal_lt_of_lt (not_le.1 hc) (notNaN_le h.1)
  have e1 : (magVal (magBits (fLit 1 1)) : Int) = 2 ^ 149 := by
    rw [← fVal_natAbs, Int.natCast_natAbs, fVal_one]; norm_num
  have e2 : (magVal (magBits b) : Int) = fVal b := by
    rw [← fVal_natAbs, Int.natCast_natAbs, abs_of_nonneg h.2.1]
  omega

/-- [POW-range] (00_scope.md R15). -/
theorem powOf_unit (raw : Word → Word → Word) {b : Word} (e : Word) (hb : inUnit b = true) :
    inUnit (powOf raw b e) = true := by
  unfold powOf
  split
  · decide +kernel
  · split
    · decide +kernel
    · split
      · exact hb
      · obtain ⟨h1, _, k, hk, h3⟩ := runMax_spec (f := powAt raw e) (m := magBits b) fun k _ => (powAt_spec raw e k).1
        obtain ⟨_, k2, _, k4⟩ := powAt_spec raw e k
        rw [h3]
        rw [h3] at h1
        exact inUnit_iff.2 ⟨h1, k2, k4 (hk.trans (magBits_le_one hb))⟩

/-! ### `EXP10` -/

theorem one_le_ten : fVal (fLit 1 1) ≤ fVal (fLit 10 1) := by rw [fVal_one, fVal_ten]; norm_num

theorem exp10Above_spec (raw : Word → Word) (m : Nat) : fIsNaN (exp10Above raw m) = false ∧
    fVal (fLit 1 1) ≤ fVal (exp10Above raw m) ∧ fVal (exp10Above raw m) ≤ fVal (fLit 10 1) := by
  unfold exp10Above
  split
  · exact ⟨notNaN_one, le_rfl, one_le_ten⟩
  · exact limitTo_spec _ notNaN_one notNaN_ten one_le_ten

theorem exp10Below_spec (raw : Word → Word) (m : Nat) : fIsNaN (exp10Below raw m) = false ∧
    fVal (fLit 1 10) ≤ fVal (exp10Below raw m) ∧ fVal (exp10Below raw m) ≤ fVal (fLit 1 1) := by
  unfold exp10Below
  split
  · exact ⟨notNaN_one, tenth_le_one, le_rfl⟩
  · exact limitTo_spec _ notNaN_tenth notNaN_one tenth_le_one

/-- `EXP10` over a free instance: in `[0.1, 10]`, at least one where the sign bit is clear, at most one where it is
set. -/
theorem exp10Of_spec (raw : Word → Word) (v : Word) : fIsNaN (exp10Of raw v) = false ∧
    fVal (fLit 1 10) ≤ fVal (exp10Of raw v) ∧ fVal (exp10Of raw v) ≤ fVal (fLit 10 1) ∧
    (signBit v = false → fVal (fLit 1 1) ≤ fVal (exp10Of raw v)) ∧
    (signBit v = true → fVal (exp10Of raw v) ≤ fVal (fLit 1 1)) := by
  have a := tenth_le_one; have b := one_le_ten
  unfold exp10Of
  split
  · exact ⟨notNaN_one, a, b, fun _ => le_rfl, fun _ => le_rfl⟩
  · split
    · rename_i hs
      obtain ⟨h1, _, k, _, h3⟩ := runMin_spec (f := exp10Below raw) (m := magBits v) fun k _ => (exp10Below_spec raw k).1
      obtain ⟨_, k2, k3⟩ := exp10Below_spec raw k
      rw [h3]; rw [h3] at h1
      exact ⟨h1, k2, k3.trans b, fun h => (by rw [hs] at h; cases h), fun _ => k3⟩
    · rename_i hs
      obtain ⟨h1, _, k, _, h3⟩ := runMax_spec (f := exp10Above raw) (m := magBits v) fun k _ => (exp10Above_spec raw k).1
      obtain ⟨_, k2, k3⟩ := exp10Above_spec raw k
      rw [h3]; rw [h3] at h1
      exact ⟨h1, a.trans k2, k3, fun _ => k2, fun h => absurd h hs⟩

/-! ### `EXP` and `ZX` -/

/-- [EXP-range] (00_scope.md R15), for an operand whose sign bit is set. -/
theorem expOf_unit (raw : Word → Word) {v : Word} (hs : signBit v = true) (hn : fIsNaN v = false) :
    inUnit (expOf raw v) = true := by
  unfold expOf
  split
  · decide +kernel
  · rename_i hz
    split
    · decide +kernel
    · rw [if_pos]
      · have := limitTo_spec (raw v) notNaN_zero notNaN_one (by rw [fVal_zero, fVal_one]; positivity)
        rw [fVal_zero, fVal_one] at this
        exact inUnit_iff.2 this
      · rw [fLt_iff hn notNaN_zero, fVal_zero]
        have h0 : fVal v ≠ 0 := fun h => hz ((isZero_iff hn).2 h)
        have : fVal v = -(magVal (magBits v) : Int) := by rw [fVal, hs, if_pos rfl]
        omega

/-- `ZX` over a free instance, bounded. -/
theorem bounded_zxOf (raw : Word → Nat → Word → Word) {w s : Word} {L : Nat} (hw : Bounded 0 w) (hs : Bounded 0 s)
    (h : L = 1 ∨ 3 ≤ L) (h2 : L ≤ 65535) : Bounded 55 (zxOf raw w L s) := by
  unfold zxOf
  split
  · exact ⟨notNaN_zero, by rw [fVal_zero]; positivity⟩
  · split
    · exact bounded_quantize hw hs h h2
    · have := limitTo_spec (raw (plusZero w) L (plusZero s)) notNaN_negOne notNaN_one
        (by rw [fVal_negOne, fVal_one]; norm_num)
      rw [fVal_negOne, fVal_one] at this
      exact (show Bounded 0 _ from ⟨this.1, abs_le.2 ⟨by simpa using this.2.1, by simpa using this.2.2⟩⟩).mono
        (by norm_num)

/-! ### What the bounds on the channel need of a configuration -/

/-- The ranges of the open functions and parameters on the operands a channel gives them. -/
structure ConfigSafe (cfg : Config Word) : Prop where
  powUnit : ∀ b e, inUnit b = true → 0 < fVal e → fIsNaN e = false → inUnit (cfg.pow b e) = true
  powFinite : ∀ b e, fIsFinite b = true → 0 ≤ fVal b → within b32 e (fLit 1 10) (fLit 10 1) = true →
    fIsFinite (cfg.pow b e) = true
  expUnit : ∀ v, signBit v = true → fIsNaN v = false → inUnit (cfg.exp v) = true
  exp10Range : ∀ v, fIsNaN v = false → |fVal v| ≤ 2 ^ 149 → within b32 (cfg.exp10 v) (fLit 1 10) (fLit 10 1) = true
  exp10Drive : ∀ v, fIsNaN v = false → 0 ≤ fVal v → fVal v ≤ 2 ^ 149 →
    within b32 (cfg.exp10 v) (fLit 1 1) (fLit 10 1) = true
  zxBounded : ∀ w L s, Bounded 0 w → IsLevelCount L → inUnit s = true → Bounded 55 (cfg.zx w L s)
  gainCeil : fIsFinite cfg.gainCeil = true
  nanp : ∀ lo hi, fIsNaN lo = false → fIsNaN hi = false → fVal lo ≤ fVal hi →
    fIsNaN (cfg.nanp lo hi) = false ∧ fVal lo ≤ fVal (cfg.nanp lo hi) ∧ fVal (cfg.nanp lo hi) ≤ fVal hi

/-- The level counts BCQ uses: one, or at least three; at most 65535 (00_scope.md R16). -/
theorem IsLevelCount.bounds {L : Nat} (h : IsLevelCount L) : (L = 1 ∨ 3 ≤ L) ∧ L ≤ 65535 := by
  obtain ⟨b, h1, h2, rfl⟩ := h
  interval_cases b <;> norm_num

/-- The machine's configuration is safe. -/
theorem hw_safe : ConfigSafe hw where
  powUnit := fun _ e hb _ _ => powOf_unit Config.powRaw e hb
  powFinite := fun _ e hb h0 _ => (powOf_spec Config.powRaw e hb h0).1
  expUnit := fun _ hs hn => expOf_unit Config.expRaw hs hn
  exp10Range := fun v _ _ =>
    (within_iff notNaN_tenth notNaN_ten).2 ⟨(exp10Of_spec Config.exp10Raw v).1, (exp10Of_spec Config.exp10Raw v).2.1,
      (exp10Of_spec Config.exp10Raw v).2.2.1⟩
  exp10Drive := fun v hn h0 _ => by
    rw [within_iff notNaN_one notNaN_ten]
    by_cases hz : fIsZero v = true
    · have e : hw.exp10 v = fLit 1 1 := if_pos hz
      rw [e]; exact ⟨notNaN_one, le_rfl, one_le_ten⟩
    · have hs : signBit v = false := by
        by_contra hc
        rw [Bool.not_eq_false] at hc
        have : fVal v ≠ 0 := fun h => hz ((isZero_iff hn).2 h)
        have : fVal v = -(magVal (magBits v) : Int) := by rw [fVal, hc, if_pos rfl]
        omega
      obtain ⟨a, _, c, d, _⟩ := exp10Of_spec Config.exp10Raw v
      exact ⟨a, d hs, c⟩
  zxBounded := fun _ _ _ hw' hL hs => bounded_zxOf Config.zxRaw hw' (inUnit_bounded hs) hL.bounds.1 hL.bounds.2
  gainCeil := by decide +kernel
  nanp := fun _ _ hl _ h => ⟨hl, le_rfl, h⟩

/-- Every configuration with the named properties is safe. -/
theorem ConfigConforms.safe {cfg : Config Word} (h : ConfigConforms cfg) : ConfigSafe cfg where
  powUnit := fun b e hb he hn => by
    have hb' := inUnit_iff.1 hb
    have z : fIsNaN (fLit 0 1) = false := (fLit_int (by decide)).1
    have := within_dest (h.pow.range b e ((within_iff z notNaN_one).2 ⟨hb'.1, by
      rw [fLit_zero, fVal_zero]; exact hb'.2.1, by rw [fVal_one]; exact hb'.2.2⟩) (by
      rw [b32_lt, b32_toF, fLit_zero, fLt_iff notNaN_zero hn, fVal_zero]; exact he))
    rw [b32_toF, b32_toF, fLit_zero, fVal_zero, fVal_one] at this
    exact inUnit_iff.2 this
  powFinite := fun b e hb h0 he => h.pow.finite b e hb (by
    rw [b32_le, b32_toF, fLit_zero, fLe_iff notNaN_zero (notNaN_of_finite hb), fVal_zero]; exact h0) he
  expUnit := fun v hs hn => by
    have hv : fVal v ≤ 0 := by rw [fVal, hs, if_pos rfl]; omega
    have := within_dest (h.exp.range v (by
      rw [b32_le, b32_toF, fLit_zero, fLe_iff hn notNaN_zero, fVal_zero]; exact hv))
    rw [b32_toF, b32_toF, fLit_zero, fVal_zero, fVal_one] at this
    exact inUnit_iff.2 this
  exp10Range := fun v hn hv => by
    have := abs_le.1 hv
    exact (h.exp10.range v ((within_iff notNaN_negOne notNaN_one).2 ⟨hn, by rw [fVal_negOne]; exact this.1, by
      rw [fVal_one]; exact this.2⟩)).1
  exp10Drive := fun v hn h0 h1 => by
    have r := within_dest (h.exp10.range v ((within_iff notNaN_negOne notNaN_one).2 ⟨hn, by
      rw [fVal_negOne]; omega, by rw [fVal_one]; exact h1⟩)).1
    have z := (sameValue_iff.1 (h.exp10.zero 0#32 (by decide +kernel))).2.2
    have m := (fLe_dest (h.exp10Mono 0#32 v (by rw [b32_le, fLe_iff notNaN_zero hn, fVal_zero]; exact h0))).2.2
    rw [b32_toF] at z
    exact (within_iff notNaN_one notNaN_ten).2 ⟨r.1, by omega, r.2.2⟩
  zxBounded := fun w L s hw' hL hs => by
    have hb := abs_le.1 hw'.2
    have hs' := inUnit_iff.1 hs
    have z : fIsNaN (fLit 0 1) = false := (fLit_int (by decide)).1
    have hd : ZxDomain b32 w L s := ⟨(within_iff notNaN_negOne notNaN_one).2 ⟨hw'.1, by
      rw [fVal_negOne]; simpa using hb.1, by rw [fVal_one]; simpa using hb.2⟩, hL, (within_iff z notNaN_one).2 ⟨hs'.1, by
      rw [fLit_zero, fVal_zero]; exact hs'.2.1, by rw [fVal_one]; exact hs'.2.2⟩⟩
    rcases hL.bounds.1 with rfl | h3
    · obtain ⟨a, _, c⟩ := sameValue_iff.1 (h.zx.one w s)
      rw [b32_toF, fLit_zero, fVal_zero] at c
      exact ⟨a, by rw [c]; positivity⟩
    · cases ho : outsideZone b32 w L with
      | true =>
        obtain ⟨a, _, c⟩ := sameValue_iff.1 (h.zx.locality w L s hd h3 ho)
        exact ⟨a, by rw [c]; exact (bounded_quantize hw' (inUnit_bounded hs) (.inr h3) hL.bounds.2).2⟩
      | false =>
        obtain ⟨a, b, c⟩ := within_dest (h.zx.range w L s hd h3 ho).1
        rw [b32_toF, fVal_negOne] at b
        rw [b32_toF, fVal_one] at c
        exact (show Bounded 0 _ from ⟨a, abs_le.2 ⟨by simpa using b, by simpa using c⟩⟩).mono (by norm_num)
  gainCeil := h.gainCeilFinite
  nanp := fun lo hi hl hh hle => within_dest (h.nanp lo hi (by rw [fLe_iff hl hh]; exact hle))

/-! ### The warp -/

/-- The reciprocal of a warp exponent is a warp exponent (41_gammawarp.md R101). -/
theorem recip_within {g : Word} (h : within b32 g (fLit 1 10) (fLit 10 1) = true) :
    within b32 (fDiv (fLit 1 1) g) (fLit 1 10) (fLit 10 1) = true := by
  obtain ⟨hn, h1, h2⟩ := within_dest h
  have hp : 0 < fVal g := lt_of_lt_of_le tenth_pos h1
  have hf : fIsFinite g = true := by
    rw [finite_iff hn, abs_of_pos hp]; rw [fVal_ten] at h2; exact lt_of_le_of_lt h2 (by norm_num)
  obtain ⟨d1, d2⟩ := fDiv_spec (fLit_int (n := 1) (by decide)).2.1 hf hp.ne'
  rw [Int.sign_eq_one_of_pos hp, mul_one, fVal_one] at d2
  have hc : (((fVal g).natAbs : Nat) : Int) = fVal g := by rw [Int.natCast_natAbs, abs_of_pos hp]
  have hq : 0 < (fVal g).natAbs := by omega
  have r1 := representable_fVal notNaN_tenth
  have r10 := representable_fVal notNaN_ten
  refine (within_iff notNaN_tenth notNaN_ten).2 ⟨d1, ?_, ?_⟩
  · -- the quotient by 10 already rounds to the word of 0.1
    have e : fVal (fLit 1 10) = roundVal (2 ^ 149 * 2 ^ 149) (10 * 2 ^ 149) := by
      have := (fLit_spec 1 10).2
      rw [this]; decide +kernel
    rw [d2, e]
    refine roundVal_mono (by positivity) hq ?_
    rw [hc]; push_cast
    rw [fVal_ten] at h2
    exact mul_le_mul_of_nonneg_left h2 (by positivity)
  · rw [d2]
    refine roundVal_le hq r10 ?_
    rw [hc]
    have t : (2 : Int) ^ 149 * 2 ^ 149 ≤ fVal (fLit 10 1) * fVal (fLit 1 10) := by decide +kernel
    exact t.trans (mul_le_mul_of_nonneg_left h1 (by rw [fVal_ten]; positivity))

/-- The warped signal of a full-scale sample is of full scale (41_gammawarp.md R103 (c)). -/
theorem bounded_signedPow {cfg : Config Word} (hc : ConfigSafe cfg) {x e : Word} (hx : Bounded 0 x)
    (he : within b32 e (fLit 1 10) (fLit 10 1) = true) : Bounded 0 (signedPow b32 cfg x e) := by
  have hu : inUnit (fAbs x) = true :=
    inUnit_iff.2 ⟨by simpa using hx.1, by rw [fVal_fAbs]; positivity, by rw [fVal_fAbs]; simpa using hx.2⟩
  obtain ⟨e1, e2, _⟩ := within_dest he
  have hp := inUnit_bounded (hc.powUnit _ e hu (lt_of_lt_of_le tenth_pos e2) e1)
  obtain ⟨h1, h2⟩ := sign_mul_spec x (hp.finite (by norm_num))
  exact ⟨h1, h2.trans hp.2⟩

theorem finite_signedPow {cfg : Config Word} (hc : ConfigSafe cfg) {x e : Word} (hx : fIsFinite x = true)
    (he : within b32 e (fLit 1 10) (fLit 10 1) = true) : fIsFinite (signedPow b32 cfg x e) = true := by
  have p1 := hc.powFinite (fAbs x) e (by simpa using hx) (by rw [fVal_fAbs]; positivity) he
  obtain ⟨h1, h2⟩ := sign_mul_spec x p1
  exact (finite_iff h1).2 (lt_of_le_of_lt h2 (abs_fVal_lt p1))

end Sys2Proof.Machine
end

