-- ==== Sys2Proof/Laws/Channel.lean ====
section
/-! SUPPORT. The follower and the whole channel in the datapath reading: the level stays finite and not negative, the
coefficients lie in [0, 1], and the output of `PROCESS_CH` is finite and of full scale, under every configuration that is safe. -/

namespace Sys2Proof.Machine

set_option Elab.async false

variable {cfg : Config Word}

/-! ### The sample rate and the coefficients -/

theorem positiveFiniteWord_dest {w : Word} (h : positiveFiniteWord w = true) :
    signBit w = false ∧ fIsFinite w = true ∧ 0 < fVal w := by
  simp only [positiveFiniteWord, Bool.and_eq_true, decide_eq_true_eq] at h
  have hs : signBit w = false := by rw [signBit_eq, decide_eq_false_iff_not]; omega
  have hm : magBits w = w.toNat := by rw [toNat_eq w, hs]; simp
  have hf : fIsFinite w = true := by
    simp only [fIsFinite, decide_eq_true_eq, hm, infBits]; omega
  refine ⟨hs, hf, ?_⟩
  have h0 : magVal (magBits w) ≠ 0 := by
    rw [Ne, magVal_eq_zero (notNaN_le (notNaN_of_finite hf))]; omega
  have : fVal w = magVal (magBits w) := by rw [fVal, hs]; simp
  rw [this]; exact_mod_cast Nat.pos_of_ne_zero h0

/-- The rates `INIT` accepts are the finite positive words (44_stereo_engine.md R152). -/
theorem rateValid_eq (sr : Word) : rateValid b32 sr = positiveFiniteWord sr := by
  rw [Bool.eq_iff_iff]
  constructor
  · intro h
    simp only [rateValid, b32_isFinite, b32_lt, b32_toF, Bool.and_eq_true] at h
    obtain ⟨hf, hl⟩ := h
    have hn := notNaN_of_finite hf
    rw [fLit_zero, fLt_iff notNaN_zero hn, fVal_zero] at hl
    have hs : signBit sr = false := by
      by_contra hc
      rw [Bool.not_eq_false] at hc
      rw [fVal, hc, if_pos rfl] at hl
      omega
    have hm : magBits sr = sr.toNat := by rw [toNat_eq sr, hs]; simp
    simp only [fIsFinite, decide_eq_true_eq, hm, infBits] at hf
    simp only [positiveFiniteWord, Bool.and_eq_true, decide_eq_true_eq]
    refine ⟨?_, hf⟩
    by_contra hc
    have h0 : sr.toNat = 0 := by omega
    rw [fVal, hs, hm, h0] at hl
    simp at hl
  · intro h
    obtain ⟨_, h2, h3⟩ := positiveFiniteWord_dest h
    simp only [rateValid, b32_isFinite, b32_lt, b32_toF, Bool.and_eq_true]
    refine ⟨h2, ?_⟩
    rw [fLit_zero, fLt_iff notNaN_zero (notNaN_of_finite h2), fVal_zero]
    exact h3

theorem signBit_fMul {a b : Word} (ha : fIsFinite a = true) (hb : fIsFinite b = true) :
    signBit (fMul a b) = (signBit a != signBit b) := by
  unfold fMul
  simp only [notNaN_of_finite ha, notNaN_of_finite hb, notInf_of_finite ha, notInf_of_finite hb, Bool.or_self,
    Bool.false_eq_true, if_false]
  exact signBit_ofSignMag _ (roundMag_lt _ _)

/-- The reciprocal of a word with a clear sign bit has a clear sign bit and is no NaN: of zero it is `+∞`, of `+∞` zero. -/
theorem recip_spec {t : Word} (hs : signBit t = false) (hn : fIsNaN t = false) :
    signBit (fDiv (fLit 1 1) t) = false ∧ fIsNaN (fDiv (fLit 1 1) t) = false := by
  have s1 : signBit (fLit 1 1) = false := by decide +kernel
  have i1 : fIsInf (fLit 1 1) = false := by decide +kernel
  have z1 : fIsZero (fLit 1 1) = false := by decide +kernel
  unfold fDiv
  simp only [notNaN_one, hn, i1, z1, s1, hs, Bool.or_self, Bool.false_eq_true, if_false, bne_self_eq_false]
  split
  · exact ⟨signBit_ofSignMag _ (by decide), notNaN_ofSignMag _ (by decide)⟩
  · split
    · exact ⟨signBit_ofSignMag _ (by decide), notNaN_ofSignMag _ (by decide)⟩
    · exact ⟨signBit_ofSignMag _ (roundMag_lt _ _), notNaN_ofSignMag _ (roundMag_le_inf _ _)⟩

/-- `1 − v` for `v` in `[0, 1]`. -/
theorem one_sub_unit {v : Word} (h : inUnit v = true) : inUnit (fSub (fLit 1 1) v) = true := by
  have hv := inUnit_iff.1 h
  obtain ⟨h1, h2⟩ := fSub_spec (a := fLit 1 1) (b := v) (fLit_int (by decide)).2.1 ((inUnit_bounded h).finite (by norm_num))
  rw [fVal_one] at h2
  refine inUnit_iff.2 ⟨h1, ?_, ?_⟩
  · rw [h2]; exact roundVal_nonneg (by omega)
  · rw [h2]; exact roundVal_le one_pos (representable_pow (by norm_num)) (by push_cast; omega)

/-- A coefficient lies in `[0, 1]` for every accepted rate (42_envelope_follower.md R111). -/
theorem coeff_unit (hc : ConfigSafe cfg) {tc sr : Word} (hs : signBit tc = false) (hf : fIsFinite tc = true)
    (hr : positiveFiniteWord sr = true) : inUnit (coeff b32 cfg tc sr) = true := by
  obtain ⟨r1, r2, _⟩ := positiveFiniteWord_dest hr
  obtain ⟨m1, _⟩ := fMul_spec hf r2
  have ms : signBit (fMul tc sr) = false := by rw [signBit_fMul hf r2, hs, r1]; rfl
  obtain ⟨d1, d2⟩ := recip_spec ms m1
  change inUnit (fSub (fLit 1 1) (cfg.exp (fNeg (fDiv (fLit 1 1) (fMul tc sr))))) = true
  exact one_sub_unit (hc.expUnit _ (by rw [signBit_fNeg, d1]; rfl) (by rw [fIsNaN_fNeg]; exact d2))

theorem tcAttack_spec : signBit (tcAttack b32) = false ∧ fIsFinite (tcAttack b32) = true := by decide +kernel
theorem tcRelease_spec : signBit (tcRelease b32) = false ∧ fIsFinite (tcRelease b32) = true := by decide +kernel

/-- What `INIT` leaves in a lane is safe. -/
theorem envInit_safe (hc : ConfigSafe cfg) {sr : Word} (hr : positiveFiniteWord sr = true) :
    followerSafe (envInit b32 cfg sr) = true := by
  have h0 : (envInit b32 cfg sr).env = 0#32 := fLit_zero
  unfold followerSafe
  rw [h0]
  simp only [Bool.and_eq_true]
  exact ⟨⟨⟨by decide, by decide +kernel⟩, coeff_unit hc tcAttack_spec.1 tcAttack_spec.2 hr⟩,
    coeff_unit hc tcRelease_spec.1 tcRelease_spec.2 hr⟩

/-! ### The update of the level -/

theorem followerSafe_iff {f : Follower Word} : followerSafe f = true ↔
    fIsFinite f.env = true ∧ 0 ≤ fVal f.env ∧ inUnit f.atk = true ∧ inUnit f.rel = true := by
  unfold followerSafe
  simp only [Bool.and_eq_true]
  constructor
  · rintro ⟨⟨⟨h1, h2⟩, h3⟩, h4⟩
    have := (fLe_dest h2).2.2
    rw [fVal_zero] at this
    exact ⟨h1, this, h3, h4⟩
  · rintro ⟨h1, h2, h3, h4⟩
    exact ⟨⟨⟨h1, by rw [fLe_iff notNaN_zero (notNaN_of_finite h1), fVal_zero]; exact h2⟩, h3⟩, h4⟩

/-- One move of the level `e` towards the target `t` by the fraction `c`: finite, not negative, and not above `e` when the
target is not (42_envelope_follower.md R114). -/
theorem move_spec {e t c : Word} (he : fIsFinite e = true) (he0 : 0 ≤ fVal e) (ht : inUnit t = true)
    (hc : inUnit c = true) :
    fIsFinite (fAdd e (fMul c (fSub t e))) = true ∧ 0 ≤ fVal (fAdd e (fMul c (fSub t e))) ∧
      (fVal t ≤ fVal e → fVal (fAdd e (fMul c (fSub t e))) ≤ fVal e) := by
  have ht' := inUnit_iff.1 ht
  have hc' := inUnit_iff.1 hc
  have htf := (inUnit_bounded ht).finite (by norm_num)
  have hcf := (inUnit_bounded hc).finite (by norm_num)
  have re := representable_fVal (notNaN_of_finite he)
  have rt := representable_fVal ht'.1
  have eb := abs_fVal_lt he
  rw [abs_of_nonneg he0] at eb
  have tb : fVal t < 2 ^ 128 * 2 ^ 149 := lt_of_le_of_lt ht'.2.2 (by norm_num)
  obtain ⟨d1, d2⟩ := fSub_spec htf he
  have dlo : -fVal e ≤ fVal (fSub t e) := by
    rw [d2]; exact le_roundVal one_pos (representable_neg re) (by push_cast; omega)
  have dhi : fVal (fSub t e) ≤ fVal t := by
    rw [d2]; exact roundVal_le one_pos rt (by push_cast; omega)
  have dneg : fVal t ≤ fVal e → fVal (fSub t e) ≤ 0 := by
    intro h; rw [d2]; exact roundVal_le one_pos representable_zero (by push_cast; omega)
  have df : fIsFinite (fSub t e) = true := (finite_iff d1).2 (abs_lt.2 ⟨by omega, by omega⟩)
  obtain ⟨m1, m2⟩ := fMul_spec hcf df
  generalize fVal (fSub t e) = dv at *
  generalize fSub t e = d at *
  have mlo : -fVal e ≤ fVal (fMul c d) := by
    rw [m2]; refine le_roundVal (by positivity) (representable_neg re) ?_
    push_cast
    rcases le_or_gt 0 dv with h | h
    · have := mul_nonneg hc'.2.1 h
      nlinarith [mul_nonneg he0 (show (0 : Int) ≤ 2 ^ 149 by positivity)]
    · have := mul_nonneg (sub_nonneg.2 hc'.2.2) (show 0 ≤ -dv by omega)
      have := mul_le_mul_of_nonneg_right dlo (show (0 : Int) ≤ 2 ^ 149 by positivity)
      linarith
  have mhi : fVal (fMul c d) ≤ fVal t := by
    rw [m2]; refine roundVal_le (by positivity) rt ?_
    push_cast
    have a1 : fVal c * dv ≤ fVal c * fVal t := mul_le_mul_of_nonneg_left dhi hc'.2.1
    have a2 : fVal c * fVal t ≤ 2 ^ 149 * fVal t := mul_le_mul_of_nonneg_right hc'.2.2 ht'.2.1
    linarith
  have mneg : fVal t ≤ fVal e → fVal (fMul c d) ≤ 0 := by
    intro h; rw [m2]; refine roundVal_le (by positivity) representable_zero ?_
    rw [zero_mul]
    exact mul_nonpos_of_nonneg_of_nonpos hc'.2.1 (dneg h)
  have mf : fIsFinite (fMul c d) = true := (finite_iff m1).2 (abs_lt.2 ⟨by omega, by omega⟩)
  obtain ⟨s1, s2⟩ := fAdd_spec he mf
  have slo : 0 ≤ fVal (fAdd e (fMul c d)) := by rw [s2]; exact roundVal_nonneg (by omega)
  have sneg : fVal t ≤ fVal e → fVal (fAdd e (fMul c d)) ≤ fVal e := by
    intro h; rw [s2]; refine roundVal_le one_pos re ?_
    have := mneg h
    push_cast; omega
  refine ⟨(finite_iff s1).2 ?_, slo, sneg⟩
  rw [abs_of_nonneg slo]
  rcases le_or_gt (fVal t) (fVal e) with h | h
  · exact lt_of_le_of_lt (sneg h) eb
  · refine lt_of_le_of_lt (b := 2 ^ 150) ?_ (by norm_num)
    rw [s2]; refine roundVal_le one_pos (representable_pow (by norm_num)) ?_
    have : (2 : Int) ^ 150 = 2 ^ 149 + 2 ^ 149 := by norm_num
    push_cast; omega

theorem finite_sanitise (x : Word) : fIsFinite (sanitiseSample b32 x) = true := by
  unfold sanitiseSample
  by_cases h : b32.isFinite x = true
  · rw [if_pos h]; exact h
  · rw [if_neg h]; decide +kernel

/-- `ENV_UPDATE` on a full-scale sample keeps the level finite and not negative (10_state.md R22). -/
theorem envUpdateLevel_spec {f : Follower Word} {x : Word} (hf : followerSafe f = true) (hx : Bounded 0 x) :
    fIsFinite (envUpdateLevel b32 f x) = true ∧ 0 ≤ fVal (envUpdateLevel b32 f x) := by
  obtain ⟨h1, h2, h3, h4⟩ := followerSafe_iff.1 hf
  have hfin := hx.finite (by norm_num)
  have hs : sanitiseSample b32 x = x := by rw [sanitiseSample, b32_isFinite, if_pos hfin]
  have ht : inUnit (fAbs x) = true :=
    inUnit_iff.2 ⟨by simpa using hx.1, by rw [fVal_fAbs]; positivity, by rw [fVal_fAbs]; simpa using hx.2⟩
  unfold envUpdateLevel envLevel
  rw [hs]
  split
  · have := move_spec h1 h2 ht h3
    exact ⟨this.1, this.2.1⟩
  · have := move_spec h1 h2 ht h4
    exact ⟨this.1, this.2.1⟩

/-- The gate threshold is the binary32 nearest 0.005 (42_envelope_follower.md R116). -/
theorem gateThreshold_word : gateThreshold b32 = 0x3BA3D70A#32 := by decide +kernel

/-- The gain is finite: the ceiling while the gate is closed, else the reciprocal of a level of at least 0.005
(42_envelope_follower.md R117). -/
theorem finite_envGain (hc : ConfigSafe cfg) {e1 : Word} (h1 : fIsFinite e1 = true) :
    fIsFinite (envGain b32 cfg e1) = true := by
  unfold envGain gateClosed
  split
  · exact hc.gainCeil
  · rename_i hg
    have hn : fIsNaN (gateThreshold b32) = false := by rw [gateThreshold_word]; decide
    rw [b32_lt, fLt_iff (notNaN_of_finite h1) hn] at hg
    have hth : (2 : Int) ^ (149 - 8) ≤ fVal (gateThreshold b32) := by rw [gateThreshold_word]; decide +kernel
    exact (bounded_div (i := 0) (j := 8) (bounded_lit (by decide) (by norm_num)) h1 (by norm_num) (by omega)
      (by norm_num)).finite (by norm_num)

/-! ### The channel -/

/-- A parameter clamped to `[a, b]`. -/
theorem clampInt_spec (hc : ConfigSafe cfg) (v : Word) {a b : Int} (ha : a.natAbs < 2 ^ 24) (hb : b.natAbs < 2 ^ 24)
    (hab : a ≤ b) : fIsNaN (clampP b32 cfg.nanp v (toF b32 a) (toF b32 b)) = false ∧
    a * 2 ^ 149 ≤ fVal (clampP b32 cfg.nanp v (toF b32 a) (toF b32 b)) ∧
    fVal (clampP b32 cfg.nanp v (toF b32 a) (toF b32 b)) ≤ b * 2 ^ 149 := by
  have h1 := fLit_int ha
  have h2 := fLit_int hb
  have hle : fVal (toF b32 a) ≤ fVal (toF b32 b) := by
    rw [b32_toF, b32_toF, h1.2.2, h2.2.2]; exact mul_le_mul_of_nonneg_right hab (by positivity)
  have := clampP_spec cfg.nanp v h1.1 h2.1 hle (hc.nanp _ _ h1.1 h2.1 hle)
  rwa [h1.2.2, h2.2.2] at this

theorem clampSmoothing_unit (hc : ConfigSafe cfg) (v : Word) : inUnit (clampSmoothing b32 cfg v) = true := by
  have := clampInt_spec hc v (a := 0) (b := 1) (by decide) (by decide) (by decide)
  rw [zero_mul, one_mul] at this
  exact inUnit_iff.2 this

theorem clampBitDepth_spec (hc : ConfigSafe cfg) (v : Word) : fIsNaN (clampBitDepth b32 cfg v) = false ∧
    2 ^ 149 ≤ fVal (clampBitDepth b32 cfg v) ∧ fVal (clampBitDepth b32 cfg v) ≤ 16 * 2 ^ 149 := by
  have := clampInt_spec hc v (a := 1) (b := 16) (by decide) (by decide) (by decide)
  rwa [one_mul] at this

theorem clampGamma_spec (hc : ConfigSafe cfg) (v : Word) : fIsNaN (clampGamma b32 cfg v) = false ∧
    |fVal (clampGamma b32 cfg v)| ≤ 2 ^ 149 := by
  have := clampInt_spec hc v (a := -1) (b := 1) (by decide) (by decide) (by decide)
  rw [neg_one_mul, one_mul] at this
  exact ⟨this.1, abs_le.2 this.2⟩

theorem clampGainDb_spec (hc : ConfigSafe cfg) (v : Word) : fIsNaN (clampGainDb b32 cfg v) = false ∧
    0 ≤ fVal (clampGainDb b32 cfg v) ∧ fVal (clampGainDb b32 cfg v) ≤ 20 * 2 ^ 149 := by
  have := clampInt_spec hc v (a := 0) (b := 20) (by decide) (by decide) (by decide)
  rwa [zero_mul] at this

/-- The warp exponent of a frame lies in `[0.1, 10]` (41_gammawarp.md R100). -/
theorem gammaValue_within (hc : ConfigSafe cfg) (v : Word) :
    within b32 (gammaValue cfg (clampGamma b32 cfg v)) (fLit 1 10) (fLit 10 1) = true :=
  hc.exp10Range _ (clampGamma_spec hc v).1 (clampGamma_spec hc v).2

theorem floor_ceil_bitDepth {bd : Word} (h1 : 2 ^ 149 ≤ fVal bd) (h2 : fVal bd ≤ 16 * 2 ^ 149) :
    (1 ≤ fFloor bd ∧ fFloor bd ≤ 16) ∧ (1 ≤ fCeil bd ∧ fCeil bd ≤ 16) := by
  unfold fFloor fCeil
  refine ⟨⟨?_, ?_⟩, ?_, ?_⟩ <;> omega

theorem isLevelCount_levelsOf {b : Int} (h1 : 1 ≤ b) (h2 : b ≤ 16) : IsLevelCount (levelsOf b) :=
  ⟨b.toNat, by omega, by omega, rfl⟩

/-- A quantizer whose values are bounded, crossfaded. -/
theorem bounded_crossfade (hc : ConfigSafe cfg) {quant : Word → Nat → Word → Word} (P : Snapshot Word) {x : Word}
    (hq : ∀ L, IsLevelCount L → Bounded 55 (quant x L (clampSnapshot b32 cfg P).smoothing)) :
    Bounded 62 (crossfade b32 quant (clampSnapshot b32 cfg P) x) := by
  have hb := clampBitDepth_spec hc P.bitDepth
  have e : (clampSnapshot b32 cfg P).bitDepth = clampBitDepth b32 cfg P.bitDepth := rfl
  rw [← e] at hb
  obtain ⟨hfl, hce⟩ := floor_ceil_bitDepth hb.2.1 hb.2.2
  have hbd : Bounded 4 (clampSnapshot b32 cfg P).bitDepth :=
    ⟨hb.1, by rw [abs_of_nonneg (le_trans (by positivity) hb.2.1), pow_add]; linarith [hb.2.2]⟩
  have hfr : Bounded 5 (frac b32 (clampSnapshot b32 cfg P).bitDepth) := by
    unfold frac
    refine bounded_sub hbd (bounded_lit ?_ ?_) (by norm_num)
    · rw [b32_floor]; omega
    · rw [b32_floor, abs_of_nonneg (by omega)]; omega
  unfold crossfade
  exact bounded_lerp (i := 55) (j := 5) (hq _ (isLevelCount_levelsOf hfl.1 hfl.2))
    (hq _ (isLevelCount_levelsOf hce.1 hce.2)) hfr (by norm_num)

/-- What stage S4 gives is finite (43_bitcrusher_channel.md R146). -/
theorem finite_crush (hc : ConfigSafe cfg) {P : Snapshot Word} {w : Word} (hw' : Bounded 0 w) :
    fIsFinite (crush b32 cfg (clampSnapshot b32 cfg P) w) = true := by
  have hs : inUnit (clampSnapshot b32 cfg P).smoothing = true := clampSmoothing_unit hc P.smoothing
  unfold crush
  split
  · unfold crushSym
    have := bounded_mul (bounded_sign w)
      (bounded_crossfade hc (quant := quantize b32) (x := fAbs w) P
        (fun L hL => bounded_quantize (bounded_abs hw') (inUnit_bounded hs) hL.bounds.1 hL.bounds.2)) (by norm_num)
    exact this.finite (by norm_num)
  · unfold crushAsym
    exact (bounded_crossfade hc (quant := cfg.zx) (x := w) P
      (fun L hL => hc.zxBounded w L _ hw' hL hs)).finite (by norm_num)

/-- The drive gain lies in `[1, 10]` (43_bitcrusher_channel.md R129). -/
theorem driveGain_spec (hc : ConfigSafe cfg) (P : Snapshot Word) :
    fIsNaN (driveGain b32 cfg (clampSnapshot b32 cfg P)) = false ∧
      2 ^ 149 ≤ fVal (driveGain b32 cfg (clampSnapshot b32 cfg P)) ∧
      fVal (driveGain b32 cfg (clampSnapshot b32 cfg P)) ≤ 10 * 2 ^ 149 := by
  rw [← fVal_ten, ← fVal_one]
  unfold driveGain
  split
  · exact ⟨notNaN_one, le_rfl, one_le_ten⟩
  · have hg := clampGainDb_spec hc P.gainDb
    have e : (clampSnapshot b32 cfg P).gainDb = clampGainDb b32 cfg P.gainDb := rfl
    rw [e, b32_div, b32_toF]
    generalize clampGainDb b32 cfg P.gainDb = g at *
    have h20 := fLit_int (n := 20) (by decide)
    have gb : Bounded 5 g := ⟨hg.1, by rw [abs_of_nonneg hg.2.1, pow_add]; linarith [hg.2.2]⟩
    have h20pos : 0 < fVal (fLit 20 1) := by rw [h20.2.2]; positivity
    obtain ⟨d1, d2⟩ := fDiv_spec (gb.finite (by norm_num)) h20.2.1 h20pos.ne'
    have hd : (((fVal (fLit 20 1)).natAbs : Nat) : Int) = 20 * 2 ^ 149 := by
      rw [Int.natCast_natAbs, abs_of_pos h20pos, h20.2.2]
    rw [Int.sign_eq_one_of_pos h20pos, mul_one] at d2
    refine within_dest (hc.exp10Drive _ d1 ?_ ?_)
    · rw [d2]; exact roundVal_nonneg (mul_nonneg hg.2.1 (by positivity))
    · rw [d2]; refine roundVal_le (by omega) (representable_pow (by norm_num)) ?_
      rw [hd]
      have := mul_le_mul_of_nonneg_right hg.2.2 (show (0 : Int) ≤ 2 ^ 149 by positivity)
      linarith

/-- The driven sample is of full scale (43_bitcrusher_channel.md R129). -/
theorem bounded_drive (hc : ConfigSafe cfg) (P : Snapshot Word) {x0 : Word} (hx : fIsFinite x0 = true) :
    Bounded 0 (drive b32 cfg (clampSnapshot b32 cfg P) x0) := by
  obtain ⟨g1, g2, g3⟩ := driveGain_spec hc P
  have gb : Bounded 4 (driveGain b32 cfg (clampSnapshot b32 cfg P)) :=
    ⟨g1, by rw [abs_of_nonneg (le_trans (by positivity) g2), pow_add]; linarith⟩
  exact bounded_clamp (fMul_spec hx (gb.finite (by norm_num))).1

/-- The warped sample is of full scale (43_bitcrusher_channel.md R130). -/
theorem bounded_warped (hc : ConfigSafe cfg) (P : Snapshot Word) {x0 : Word} (hx : fIsFinite x0 = true) :
    Bounded 0 (warped b32 cfg (clampSnapshot b32 cfg P) x0) :=
  bounded_signedPow hc (bounded_drive hc P hx) (recip_within (gammaValue_within hc P.gammaParam))

/-- `PROCESS_CH` keeps the level finite and not negative, and its output is finite and of full scale, for every operand
word (43_bitcrusher_channel.md R125, R141; 10_state.md R22). -/
theorem processCh_spec (hc : ConfigSafe cfg) {f : Follower Word} (hf : followerSafe f = true) (x : Word)
    (P : Snapshot Word) :
    (fIsFinite (processCh b32 cfg f x P).1 = true ∧ 0 ≤ fVal (processCh b32 cfg f x P).1) ∧
      Bounded 0 (processCh b32 cfg f x P).2 := by
  have hw' := bounded_warped hc P (finite_sanitise x)
  have hu := envUpdateLevel_spec hf hw'
  have hcr : fIsFinite (crushed b32 cfg (clampSnapshot b32 cfg P)
      (warped b32 cfg (clampSnapshot b32 cfg P) (sanitiseSample b32 x))) = true :=
    finite_signedPow hc (finite_crush hc hw') (gammaValue_within hc P.gammaParam)
  constructor
  · simp only [processCh, nextEnv]
    split
    · exact hu
    · exact ⟨(followerSafe_iff.1 hf).1, (followerSafe_iff.1 hf).2.1⟩
  · simp only [processCh]
    refine bounded_clamp ?_
    unfold gainStage
    split
    · exact (fMul_spec hcr (finite_envGain hc hu.1)).1
    · exact notNaN_of_finite hcr

theorem settleZero_fVal (b : Bool) {y : Word} (hy : fIsNaN y = false) :
    fIsNaN (settleZero b y) = false ∧ fVal (settleZero b y) = fVal y := by
  unfold settleZero
  split
  · rename_i h
    rw [fVal_of_isZero h, fVal_ofSignMag _ (Nat.zero_le _)]
    exact ⟨notNaN_ofSignMag _ (Nat.zero_le _), by simp⟩
  · exact ⟨hy, rfl⟩

/-- A lane's work on a frame keeps its follower safe and gives a full-scale output word. -/
theorem laneStepWith_spec (hc : ConfigSafe cfg) {f : Follower Word} (hf : followerSafe f = true) (x : Word)
    (P : Snapshot Word) :
    followerSafe (laneStepWith cfg f x P).1 = true ∧ inFullScale (laneStepWith cfg f x P).2 = true := by
  obtain ⟨⟨h1, h2⟩, h3⟩ := processCh_spec hc hf x P
  obtain ⟨a1, a2, a3, a4⟩ := followerSafe_iff.1 hf
  refine ⟨followerSafe_iff.2 ⟨h1, h2, a3, a4⟩, inFullScale_of_bounded ?_⟩
  obtain ⟨b1, b2⟩ := settleZero_fVal (zeroSignOf cfg f x P) h3.1
  have e : (laneStepWith cfg f x P).2 = settleZero (zeroSignOf cfg f x P) (processCh b32 cfg f x P).2 := rfl
  rw [e]
  exact ⟨b1, by rw [b2]; exact h3.2⟩

/-- The same of the machine. -/
theorem laneStep_spec {f : Follower Word} (hf : followerSafe f = true) (x : Word) (P : Snapshot Word) :
    followerSafe (laneStep f x P).1 = true ∧ inFullScale (laneStep f x P).2 = true := laneStepWith_spec hw_safe hf x P

end Sys2Proof.Machine
end

