-- ==== Sys2Proof/Laws/Decode.lean ====
section
/-! SUPPORT. The fields of command words (30_encoding.md R57), as bits and as numbers. -/

namespace Sys2Proof

set_option Elab.async false

section
variable (opc : BitVec 8) (rp auto sym : Bool)

@[simp] theorem fieldOpc_commandWord : fieldOpc (commandWord opc rp auto sym) = opc := by
  revert opc rp auto sym; decide +kernel
@[simp] theorem fieldRsv_commandWord : fieldRsv (commandWord opc rp auto sym) = 0#21 := by
  revert opc rp auto sym; decide +kernel
@[simp] theorem fieldRp_commandWord : fieldRp (commandWord opc rp auto sym) = rp := by
  revert opc rp auto sym; decide +kernel
@[simp] theorem fieldAuto_commandWord : fieldAuto (commandWord opc rp auto sym) = auto := by
  revert opc rp auto sym; decide +kernel
@[simp] theorem fieldSym_commandWord : fieldSym (commandWord opc rp auto sym) = sym := by
  revert opc rp auto sym; decide +kernel
@[simp] theorem fieldLow_commandWord : fieldLow (commandWord opc false false false) = 0#3 := by
  revert opc; decide +kernel

theorem commandWord_toNat : (commandWord opc rp auto sym).toNat =
    opc.toNat * 2 ^ 24 + (rp.toNat * 4 + auto.toNat * 2 + sym.toNat) := by
  revert opc rp auto sym; decide +kernel
end

theorem fieldOpc_toNat (w : Word) : (fieldOpc w).toNat = w.toNat / 2 ^ 24 := by
  have := w.isLt
  simp only [fieldOpc, BitVec.extractLsb'_toNat, Nat.shiftRight_eq_div_pow]
  omega

theorem fieldRsv_toNat (w : Word) : (fieldRsv w).toNat = w.toNat / 2 ^ 3 % 2 ^ 21 := by
  simp only [fieldRsv, BitVec.extractLsb'_toNat, Nat.shiftRight_eq_div_pow]

theorem fieldLow_toNat (w : Word) : (fieldLow w).toNat = w.toNat % 2 ^ 3 := by
  simp only [fieldLow, BitVec.extractLsb'_toNat, Nat.shiftRight_eq_div_pow]
  omega

theorem getLsbD_toNat (w : Word) (k : Nat) : (w.getLsbD k).toNat = w.toNat / 2 ^ k % 2 := by
  rw [BitVec.getLsbD, Nat.testBit_eq_decide_div_mod_eq]
  rcases Nat.mod_two_eq_zero_or_one (w.toNat / 2 ^ k) with h | h <;> rw [h] <;> rfl

theorem fieldRp_toNat (w : Word) : (fieldRp w).toNat = w.toNat / 4 % 2 := getLsbD_toNat w 2

theorem fieldAuto_toNat (w : Word) : (fieldAuto w).toNat = w.toNat / 2 % 2 := getLsbD_toNat w 1

theorem fieldSym_toNat (w : Word) : (fieldSym w).toNat = w.toNat % 2 := by
  rw [fieldSym, getLsbD_toNat, pow_zero, Nat.div_one]

/-- A command word whose `RSV` is zero is determined by its fields. -/
theorem commandWord_of_fields {w : Word} (h : fieldRsv w = 0#21) :
    w = commandWord (fieldOpc w) (fieldRp w) (fieldAuto w) (fieldSym w) := by
  have h' : w.toNat / 2 ^ 3 % 2 ^ 21 = 0 := by rw [← fieldRsv_toNat, h]; rfl
  apply BitVec.eq_of_toNat_eq
  rw [commandWord_toNat, fieldOpc_toNat, fieldRp_toNat, fieldAuto_toNat, fieldSym_toNat]
  omega

end Sys2Proof
end

