-- ==== Sys2Proof/Laws/State.lean ====
section
/-! SUPPORT. One lemma per field per update of State, each true by unfolding, so that no later proof unfolds an update. -/

namespace Sys2Proof.Machine

section
variable (s : State) (l r : Follower Word) (o : Option OutFrame) (b : Bool) (P : Snapshot Word) (xL : Word)
  (xR : Option Word) (cfg : Config Word)

@[simp] theorem State.lane_L : s.lane .L = s.laneL := rfl
@[simp] theorem State.lane_R : s.lane .R = s.laneR := rfl

@[simp] theorem laneInput_L : laneInput xL xR .L = xL := rfl
@[simp] theorem laneInput_R : laneInput xL xR .R = rightInput xL xR := rfl
@[simp] theorem rightInput_none : rightInput xL none = xL := rfl
@[simp] theorem rightInput_some (x : Word) : rightInput xL (some x) = x := rfl

@[simp] theorem State.withLanes_ready : (s.withLanes l r o).ready = s.ready := rfl
@[simp] theorem State.withLanes_laneL : (s.withLanes l r o).laneL = l := rfl
@[simp] theorem State.withLanes_laneR : (s.withLanes l r o).laneR = r := rfl
@[simp] theorem State.withLanes_cmd : (s.withLanes l r o).cmd = s.cmd := rfl
@[simp] theorem State.withLanes_out : (s.withLanes l r o).out = o := rfl
@[simp] theorem State.withLanes_n : (s.withLanes l r o).n = s.n := rfl
@[simp] theorem State.withLanes_draws : (s.withLanes l r o).draws = s.draws := rfl

@[simp] theorem State.withReady_ready : (s.withReady b).ready = b := rfl
@[simp] theorem State.withReady_laneL : (s.withReady b).laneL = s.laneL := rfl
@[simp] theorem State.withReady_laneR : (s.withReady b).laneR = s.laneR := rfl
@[simp] theorem State.withReady_cmd : (s.withReady b).cmd = s.cmd := rfl
@[simp] theorem State.withReady_out : (s.withReady b).out = s.out := rfl
@[simp] theorem State.withReady_n : (s.withReady b).n = s.n := rfl
@[simp] theorem State.withReady_draws : (s.withReady b).draws = s.draws := rfl

@[simp] theorem State.losingLanes_ready : s.losingLanes.ready = s.ready := rfl
@[simp] theorem State.losingLanes_laneL : s.losingLanes.laneL = freeLane s.draws := rfl
@[simp] theorem State.losingLanes_laneR : s.losingLanes.laneR = freeLane (s.draws + 3) := rfl
@[simp] theorem State.losingLanes_cmd : s.losingLanes.cmd = s.cmd := rfl
@[simp] theorem State.losingLanes_out : s.losingLanes.out = none := rfl
@[simp] theorem State.losingLanes_n : s.losingLanes.n = s.n := rfl
@[simp] theorem State.losingLanes_draws : s.losingLanes.draws = s.draws + 6 := rfl

@[simp] theorem State.consumed_ready : s.consumed.ready = s.ready := rfl
@[simp] theorem State.consumed_laneL : s.consumed.laneL = s.laneL := rfl
@[simp] theorem State.consumed_laneR : s.consumed.laneR = s.laneR := rfl
@[simp] theorem State.consumed_cmd : s.consumed.cmd = s.cmd.tail := rfl
@[simp] theorem State.consumed_out : s.consumed.out = s.out := rfl
@[simp] theorem State.consumed_n : s.consumed.n = s.n := rfl
@[simp] theorem State.consumed_draws : s.consumed.draws = s.draws := rfl

@[simp] theorem State.accepted_ready : s.accepted.ready = s.ready := rfl
@[simp] theorem State.accepted_laneL : s.accepted.laneL = s.laneL := rfl
@[simp] theorem State.accepted_laneR : s.accepted.laneR = s.laneR := rfl
@[simp] theorem State.accepted_cmd : s.accepted.cmd = s.cmd.tail := rfl
@[simp] theorem State.accepted_out : s.accepted.out = s.out := rfl
@[simp] theorem State.accepted_n : s.accepted.n = s.n + 1 := rfl
@[simp] theorem State.accepted_draws : s.accepted.draws = s.draws := rfl

@[simp] theorem State.hardReset_ready : s.hardReset.ready = false := rfl
@[simp] theorem State.hardReset_laneL : s.hardReset.laneL = freeLane s.draws := rfl
@[simp] theorem State.hardReset_laneR : s.hardReset.laneR = freeLane (s.draws + 3) := rfl
@[simp] theorem State.hardReset_cmd : s.hardReset.cmd = s.cmd := rfl
@[simp] theorem State.hardReset_out : s.hardReset.out = none := rfl
@[simp] theorem State.hardReset_n : s.hardReset.n = 0 := rfl
@[simp] theorem State.hardReset_draws : s.hardReset.draws = s.draws + 6 := rfl

@[simp] theorem State.afterProcWith_ready : (s.afterProcWith cfg P xL xR).ready = s.ready := rfl
@[simp] theorem State.afterProcWith_laneL : (s.afterProcWith cfg P xL xR).laneL = (laneStepWith cfg s.laneL xL P).1 := rfl
@[simp] theorem State.afterProcWith_laneR :
    (s.afterProcWith cfg P xL xR).laneR = (laneStepWith cfg s.laneR (rightInput xL xR) P).1 := rfl
@[simp] theorem State.afterProcWith_cmd : (s.afterProcWith cfg P xL xR).cmd = s.cmd := rfl
@[simp] theorem State.afterProcWith_out : (s.afterProcWith cfg P xL xR).out =
    some { y0 := (laneStepWith cfg s.laneL xL P).2, y1 := (laneStepWith cfg s.laneR (rightInput xL xR) P).2 } := rfl
@[simp] theorem State.afterProcWith_n : (s.afterProcWith cfg P xL xR).n = s.n := rfl
@[simp] theorem State.afterProcWith_draws : (s.afterProcWith cfg P xL xR).draws = s.draws := rfl

@[simp] theorem State.afterProc_ready : (s.afterProc P xL xR).ready = s.ready := rfl
@[simp] theorem State.afterProc_laneL : (s.afterProc P xL xR).laneL = (laneStep s.laneL xL P).1 := rfl
@[simp] theorem State.afterProc_laneR :
    (s.afterProc P xL xR).laneR = (laneStep s.laneR (rightInput xL xR) P).1 := rfl
@[simp] theorem State.afterProc_cmd : (s.afterProc P xL xR).cmd = s.cmd := rfl
@[simp] theorem State.afterProc_out : (s.afterProc P xL xR).out =
    some { y0 := (laneStep s.laneL xL P).2, y1 := (laneStep s.laneR (rightInput xL xR) P).2 } := rfl
@[simp] theorem State.afterProc_n : (s.afterProc P xL xR).n = s.n := rfl
@[simp] theorem State.afterProc_draws : (s.afterProc P xL xR).draws = s.draws := rfl

end

/-- Equal fields, equal states. -/
theorem State.ext_fields {s t : State} (h1 : s.ready = t.ready) (h2 : s.laneL = t.laneL) (h3 : s.laneR = t.laneR)
    (h4 : s.cmd = t.cmd) (h5 : s.out = t.out) (h6 : s.n = t.n) (h7 : s.draws = t.draws) : s = t := by
  cases s; cases t; simp_all

end Sys2Proof.Machine
end

