-- ==== Sys2Proof/Laws/Exec.lean ====
section
/-! SUPPORT. What executing a command can do, said once: the eight PROC rows are `execProc` with their flags, and each
shared operation answers one of two ways. -/

namespace Sys2Proof.Machine

set_option Elab.async false

section
variable (sr bd gp sm gdb xL xR : Word) (s : State)

@[simp] theorem exec_init : exec (.init sr) s = execInit sr s := rfl
@[simp] theorem exec_tdwn : exec .tdwn s = execTdwn s := rfl
@[simp] theorem exec_procAsymManMono :
    exec (.procAsymManMono bd gp sm gdb xL) s = execProc false false bd gp sm gdb xL none s := rfl
@[simp] theorem exec_procSymManMono :
    exec (.procSymManMono bd gp sm gdb xL) s = execProc true false bd gp sm gdb xL none s := rfl
@[simp] theorem exec_procAsymAutoMono :
    exec (.procAsymAutoMono bd gp sm gdb xL) s = execProc false true bd gp sm gdb xL none s := rfl
@[simp] theorem exec_procSymAutoMono :
    exec (.procSymAutoMono bd gp sm gdb xL) s = execProc true true bd gp sm gdb xL none s := rfl
@[simp] theorem exec_procAsymManSt :
    exec (.procAsymManSt bd gp sm gdb xL xR) s = execProc false false bd gp sm gdb xL (some xR) s := rfl
@[simp] theorem exec_procSymManSt :
    exec (.procSymManSt bd gp sm gdb xL xR) s = execProc true false bd gp sm gdb xL (some xR) s := rfl
@[simp] theorem exec_procAsymAutoSt :
    exec (.procAsymAutoSt bd gp sm gdb xL xR) s = execProc false true bd gp sm gdb xL (some xR) s := rfl
@[simp] theorem exec_procSymAutoSt :
    exec (.procSymAutoSt bd gp sm gdb xL xR) s = execProc true true bd gp sm gdb xL (some xR) s := rfl
end

/-- Every command is one of three: `INIT`, a PROC row with its flags, `TDWN`. -/
theorem exec_cases (i : Instr) :
    (∃ sr, i = .init sr) ∨
    (isProc i = true ∧ (∀ b, readyAfter i b = b) ∧ (∀ b, admitted b i = b) ∧
      ∃ sym auto bd gp sm gdb xL xR, ∀ s, exec i s = execProc sym auto bd gp sm gdb xL xR s) ∨
    i = .tdwn := by
  cases i
  case init sr => exact .inl ⟨sr, rfl⟩
  case tdwn => exact .inr (.inr rfl)
  all_goals exact .inr (.inl ⟨rfl, fun _ => rfl, fun _ => rfl, _, _, _, _, _, _, _, _, fun _ => rfl⟩)

/-- A PROC row, as it runs and as each lane sees it. -/
theorem exec_laneView {i : Instr} (h : isProc i = true) :
    ∃ sym auto bd gp sm gdb xL xR, (∀ s, exec i s = execProc sym auto bd gp sm gdb xL xR s) ∧
      (∀ c, laneView c i = procMono sym auto bd gp sm gdb (laneInput xL xR c)) ∧ isManual i = !auto ∧
      isMono i = xR.isNone := by
  cases i
  case init => cases h
  case tdwn => cases h
  case procAsymManMono bd gp sm gdb xL =>
    exact ⟨false, false, bd, gp, sm, gdb, xL, none, fun _ => rfl, fun c => by cases c <;> rfl, rfl, rfl⟩
  case procSymManMono bd gp sm gdb xL =>
    exact ⟨true, false, bd, gp, sm, gdb, xL, none, fun _ => rfl, fun c => by cases c <;> rfl, rfl, rfl⟩
  case procAsymAutoMono bd gp sm gdb xL =>
    exact ⟨false, true, bd, gp, sm, gdb, xL, none, fun _ => rfl, fun c => by cases c <;> rfl, rfl, rfl⟩
  case procSymAutoMono bd gp sm gdb xL =>
    exact ⟨true, true, bd, gp, sm, gdb, xL, none, fun _ => rfl, fun c => by cases c <;> rfl, rfl, rfl⟩
  case procAsymManSt bd gp sm gdb xL xR =>
    exact ⟨false, false, bd, gp, sm, gdb, xL, some xR, fun _ => rfl, fun _ => rfl, rfl, rfl⟩
  case procSymManSt bd gp sm gdb xL xR =>
    exact ⟨true, false, bd, gp, sm, gdb, xL, some xR, fun _ => rfl, fun _ => rfl, rfl, rfl⟩
  case procAsymAutoSt bd gp sm gdb xL xR =>
    exact ⟨false, true, bd, gp, sm, gdb, xL, some xR, fun _ => rfl, fun _ => rfl, rfl, rfl⟩
  case procSymAutoSt bd gp sm gdb xL xR =>
    exact ⟨true, true, bd, gp, sm, gdb, xL, some xR, fun _ => rfl, fun _ => rfl, rfl, rfl⟩

/-- The mono rows are told apart by their flags and operands. -/
theorem procMono_inj {sym sym' auto auto' : Bool} {bd gp sm gdb x bd' gp' sm' gdb' x' : Word}
    (h : procMono sym auto bd gp sm gdb x = procMono sym' auto' bd' gp' sm' gdb' x') :
    sym = sym' ∧ auto = auto' ∧ bd = bd' ∧ gp = gp' ∧ sm = sm' ∧ gdb = gdb' ∧ x = x' := by
  cases sym <;> cases auto <;> cases sym' <;> cases auto' <;> cases h <;> exact ⟨rfl, rfl, rfl, rfl, rfl, rfl, rfl⟩

/-- The two answers of the common part of PROC, under any configuration. -/
theorem execProcWith_eq (cfg : Config Word) (sym auto : Bool) (bd gp sm gdb xL : Word) (xR : Option Word) (s : State) :
    (s.ready = true ∧ execProcWith cfg sym auto bd gp sm gdb xL xR s = .next (s.afterProcWith cfg
      { bitDepth := bd, gammaParam := gp, smoothing := sm, gainDb := gdb, autoGain := auto, symmetric := sym } xL xR)) ∨
    (s.ready = false ∧ execProcWith cfg sym auto bd gp sm gdb xL xR s = .refused .notReady) := by
  unfold execProcWith
  cases h : s.ready
  · exact .inr ⟨rfl, rfl⟩
  · exact .inl ⟨rfl, rfl⟩

/-- The two answers of the common part of PROC. -/
theorem execProc_eq (sym auto : Bool) (bd gp sm gdb xL : Word) (xR : Option Word) (s : State) :
    (s.ready = true ∧ execProc sym auto bd gp sm gdb xL xR s = .next (s.afterProc
      { bitDepth := bd, gammaParam := gp, smoothing := sm, gainDb := gdb, autoGain := auto, symmetric := sym } xL xR)) ∨
    (s.ready = false ∧ execProc sym auto bd gp sm gdb xL xR s = .refused .notReady) :=
  execProcWith_eq hw sym auto bd gp sm gdb xL xR s

/-- The two answers of `INIT`, under any configuration. -/
theorem execInitWith_eq (cfg : Config Word) (sr : Word) (s : State) :
    (rateValid b32 sr = true ∧ execInitWith cfg sr s =
      .next ((s.withLanes (envInit b32 cfg sr) (envInit b32 cfg sr) none).withReady true)) ∨
    (rateValid b32 sr = false ∧ execInitWith cfg sr s = .refused .badSampleRate) := by
  unfold execInitWith
  cases h : rateValid b32 sr
  · exact .inr ⟨rfl, rfl⟩
  · exact .inl ⟨rfl, rfl⟩

/-- The two answers of `TDWN`. -/
theorem execTdwn_eq (s : State) :
    (s.ready = true ∧ execTdwn s = .next (s.losingLanes.withReady false)) ∨
    (s.ready = false ∧ execTdwn s = .refused .notReady) := by
  unfold execTdwn
  cases h : s.ready
  · exact .inr ⟨rfl, rfl⟩
  · exact .inl ⟨rfl, rfl⟩

/-- Every command under any configuration is one of three: `INIT`, a PROC row with its flags, `TDWN`. -/
theorem execWith_cases (cfg : Config Word) (i : Instr) :
    (∃ sr, i = .init sr ∧ ∀ s, execWith cfg i s = execInitWith cfg sr s) ∨
    (isProc i = true ∧ ∃ sym auto bd gp sm gdb xL xR, ∀ s,
      execWith cfg i s = execProcWith cfg sym auto bd gp sm gdb xL xR s) ∨
    (i = .tdwn ∧ ∀ s, execWith cfg i s = execTdwn s) := by
  cases i
  case init sr => exact .inl ⟨sr, rfl, fun _ => rfl⟩
  case tdwn => exact .inr (.inr ⟨rfl, fun _ => rfl⟩)
  all_goals exact .inr (.inl ⟨rfl, _, _, _, _, _, _, _, _, fun _ => rfl⟩)

/-- `exec` is the machine's case of `execWith` (00_scope.md R10). -/
theorem exec_eq_execWith (i : Instr) (s : State) : exec i s = execWith hw i s := by cases i <;> rfl

/-- `step` is the machine's case of `stepWith` (00_scope.md R10). -/
theorem step_eq_stepWith (s : State) : step s = stepWith hw s :=
  congrArg (fun run => stepBy run s) (funext fun i => funext fun t => exec_eq_execWith i t)

/-- Every step is one of four, whatever the commands mean: idle, the reset pin, a rejected frame, a command. -/
theorem stepBy_cases (run : Instr → State → Result) (s : State) :
    (s.cmd = [] ∧ stepBy run s = .next s) ∨
    (∃ rest, s.cmd = .hardReset :: rest ∧ stepBy run s = .next s.hardReset.consumed) ∨
    (∃ ws rest r, s.cmd = .frame ws :: rest ∧ decode ws = .error r ∧ stepBy run s = .refused (refusalOf r)) ∨
    (∃ ws rest i, s.cmd = .frame ws :: rest ∧ decode ws = .ok i ∧ stepBy run s = acceptResult (run i s)) := by
  rcases hc : s.cmd with _ | ⟨e, rest⟩
  · exact .inl ⟨rfl, by simp [stepBy, State.fetch, hc]⟩
  · cases e with
    | hardReset => exact .inr (.inl ⟨rest, rfl, by simp [stepBy, State.fetch, hc]⟩)
    | frame ws =>
      cases hd : decode ws with
      | error r => exact .inr (.inr (.inl ⟨ws, rest, r, rfl, hd, by simp [stepBy, State.fetch, hc, hd]⟩))
      | ok i => exact .inr (.inr (.inr ⟨ws, rest, i, rfl, hd, by simp [stepBy, State.fetch, hc, hd]⟩))

/-- Every step of the machine is one of four. -/
theorem step_cases (s : State) :
    (s.cmd = [] ∧ step s = .next s) ∨
    (∃ rest, s.cmd = .hardReset :: rest ∧ step s = .next s.hardReset.consumed) ∨
    (∃ ws rest r, s.cmd = .frame ws :: rest ∧ decode ws = .error r ∧ step s = .refused (refusalOf r)) ∨
    (∃ ws rest i, s.cmd = .frame ws :: rest ∧ decode ws = .ok i ∧ step s = acceptResult (exec i s)) :=
  stepBy_cases exec s

end Sys2Proof.Machine
end

