-- ==== Sys2Proof/Laws/PerInstr.lean ====
section
/-! SUPPORT. Statements made per instruction: the frame of every command has the form 30_encoding.md R57 and R58 give,
and the length its own command word calls for. -/

namespace Sys2Proof.Laws.EncodeForm

open Sys2Proof

/-- The frame of `i` is well formed, and a decoder that has read only its command word knows its length
(30_encoding.md R58). -/
def Statement (i : Instr) : Prop :=
  wellFormedFrame (encode i) = true ∧ ∃ w ops, encode i = w :: ops ∧ (encode i).length = needWords w

theorem init (sr : Word) : Statement (.init sr) := ⟨rfl, _, _, rfl, rfl⟩
theorem procAsymManMono (bd gp sm gdb xL : Word) : Statement (.procAsymManMono bd gp sm gdb xL) :=
  ⟨rfl, _, _, rfl, rfl⟩
theorem procSymManMono (bd gp sm gdb xL : Word) : Statement (.procSymManMono bd gp sm gdb xL) :=
  ⟨rfl, _, _, rfl, rfl⟩
theorem procAsymAutoMono (bd gp sm gdb xL : Word) : Statement (.procAsymAutoMono bd gp sm gdb xL) :=
  ⟨rfl, _, _, rfl, rfl⟩
theorem procSymAutoMono (bd gp sm gdb xL : Word) : Statement (.procSymAutoMono bd gp sm gdb xL) :=
  ⟨rfl, _, _, rfl, rfl⟩
theorem procAsymManSt (bd gp sm gdb xL xR : Word) : Statement (.procAsymManSt bd gp sm gdb xL xR) :=
  ⟨rfl, _, _, rfl, rfl⟩
theorem procSymManSt (bd gp sm gdb xL xR : Word) : Statement (.procSymManSt bd gp sm gdb xL xR) :=
  ⟨rfl, _, _, rfl, rfl⟩
theorem procAsymAutoSt (bd gp sm gdb xL xR : Word) : Statement (.procAsymAutoSt bd gp sm gdb xL xR) :=
  ⟨rfl, _, _, rfl, rfl⟩
theorem procSymAutoSt (bd gp sm gdb xL xR : Word) : Statement (.procSymAutoSt bd gp sm gdb xL xR) :=
  ⟨rfl, _, _, rfl, rfl⟩
theorem tdwn : Statement .tdwn := ⟨rfl, _, _, rfl, rfl⟩

end Sys2Proof.Laws.EncodeForm
end

