-- ==== Sys2Proof/Laws/Reference.lean ====
section
/-! SUPPORT. The reference reading as ordinary real arithmetic: what each primitive and each formula of the Quantizer is
over the real numbers. -/

namespace Sys2Proof.Machine

set_option Elab.async false

section Projections
variable (a b : ℝ) (n : Int) (d : Nat)
@[simp] theorem exact_lit : (exactNum ℝ).lit n d = (n : ℝ) / (d : ℝ) := rfl
@[simp] theorem exact_toF : toF (exactNum ℝ) n = (n : ℝ) := by simp [toF]
@[simp] theorem exact_add : (exactNum ℝ).add a b = a + b := rfl
@[simp] theorem exact_sub : (exactNum ℝ).sub a b = a - b := rfl
@[simp] theorem exact_mul : (exactNum ℝ).mul a b = a * b := rfl
@[simp] theorem exact_div : (exactNum ℝ).div a b = a / b := rfl
@[simp] theorem exact_neg : (exactNum ℝ).neg a = -a := rfl
@[simp] theorem exact_abs : (exactNum ℝ).abs a = |a| := by
  show (if a < 0 then -a else a) = |a|
  split
  · rw [abs_of_neg ‹_›]
  · rw [abs_of_nonneg (not_lt.1 ‹_›)]
@[simp] theorem exact_lt : (exactNum ℝ).lt a b = decide (a < b) := rfl
@[simp] theorem exact_le : (exactNum ℝ).le a b = decide (a ≤ b) := rfl
@[simp] theorem exact_floor : (exactNum ℝ).floor a = ⌊a⌋ := rfl
@[simp] theorem exact_ceil : (exactNum ℝ).ceil a = ⌈a⌉ := rfl
@[simp] theorem exact_isFinite : (exactNum ℝ).isFinite a = true := rfl
@[simp] theorem exact_isNaN : (exactNum ℝ).isNaN a = false := rfl
end Projections

@[simp] theorem exact_sameValue (a b : ℝ) : sameValue (exactNum ℝ) a b = true ↔ a = b := by
  rw [sameValue, Bool.and_eq_true, exact_le, exact_le, decide_eq_true_eq, decide_eq_true_eq]
  exact ⟨fun h => le_antisymm h.1 h.2, fun h => ⟨h.le, h.ge⟩⟩

@[simp] theorem exact_within (v lo hi : ℝ) : within (exactNum ℝ) v lo hi = true ↔ lo ≤ v ∧ v ≤ hi := by
  simp [within]

/-- A value in the range passes the clamp. -/
theorem exact_clamp_id {v lo hi : ℝ} (h1 : lo ≤ v) (h2 : v ≤ hi) : clamp (exactNum ℝ) v lo hi = v := by
  simp [clamp, not_lt.2 h1, not_lt.2 h2]

/-- What the clamp gives lies in its range. -/
theorem exact_clamp_mem {lo hi : ℝ} (v : ℝ) (h : lo ≤ hi) :
    lo ≤ clamp (exactNum ℝ) v lo hi ∧ clamp (exactNum ℝ) v lo hi ≤ hi := by
  simp only [clamp, exact_lt, decide_eq_true_eq]
  split
  · exact ⟨le_rfl, h⟩
  · split
    · exact ⟨h, le_rfl⟩
    · exact ⟨not_lt.1 ‹_›, not_lt.1 ‹_›⟩

theorem exact_clampP (cfg : Config ℝ) (v lo hi : ℝ) :
    clampP (exactNum ℝ) cfg.nanp v lo hi = clamp (exactNum ℝ) v lo hi := by
  simp [clampP, clamp]

@[simp] theorem exact_lerp (a b t : ℝ) : lerp (exactNum ℝ) a b t = a + t * (b - a) := rfl

theorem exact_sign (v : ℝ) : sign (exactNum ℝ) v = if v < 0 then -1 else if 0 < v then 1 else 0 := by
  simp [sign]

@[simp] theorem exact_frac (v : ℝ) : frac (exactNum ℝ) v = v - ⌊v⌋ := by simp [frac]

@[simp] theorem exact_smoothstep (p : ℝ) : smoothstep (exactNum ℝ) p = 3 * p ^ 2 - 2 * p ^ 3 := by
  simp [smoothstep]; ring

@[simp] theorem exact_hardstep (p : ℝ) : hardstep (exactNum ℝ) p = if p < 1 / 2 then 0 else 1 := by
  simp [hardstep, belowHalf]

/-- The transition blend as one formula (40_quantizer.md R81). -/
theorem exact_blend (p s : ℝ) : blend (exactNum ℝ) p s =
    if s ≤ 1 / 2 then p + s * 2 * (3 * p ^ 2 - 2 * p ^ 3 - p)
    else 3 * p ^ 2 - 2 * p ^ 3 + (s - 1 / 2) * 2 * ((if p < 1 / 2 then 0 else 1) - (3 * p ^ 2 - 2 * p ^ 3)) := by
  simp only [blend, softHalf, exact_le, exact_lit, exact_lerp, exact_smoothstep, exact_hardstep, exact_mul, exact_sub,
    exact_toF, decide_eq_true_eq]
  norm_num

@[simp] theorem exact_gridStep (L : Nat) : gridStep (exactNum ℝ) L = 2 / ((L : ℝ) - 1) := by
  simp [gridStep]

/-- An odd level count as a number of steps on each side of zero (40_quantizer.md R84). -/
theorem gridStep_odd {L : Nat} (h : L % 2 = 1) (h3 : 3 ≤ L) :
    ∃ m : Nat, 1 ≤ m ∧ L = 2 * m + 1 ∧ gridStep (exactNum ℝ) L = 1 / m := by
  refine ⟨L / 2, by omega, by omega, ?_⟩
  obtain ⟨m, rfl⟩ : ∃ m, L = 2 * m + 1 := ⟨L / 2, by omega⟩
  have hm : ((2 * m + 1) / 2 : Nat) = m := by omega
  have h0 : (m : ℝ) ≠ 0 := by have : 1 ≤ m := by omega
                              positivity
  rw [hm, exact_gridStep]
  push_cast
  field_simp
  ring

/-- The cell of a full-scale sample in the grid of step `1 / m`: its index, its bounds, its phase
(40_quantizer.md R84, R85). -/
theorem grid_spec {L m : Nat} {x : ℝ} (hm : 1 ≤ m) (hs : gridStep (exactNum ℝ) L = 1 / m) (h1 : -1 ≤ x) (h2 : x ≤ 1) :
    ∃ k : ℤ, k = gridIndex (exactNum ℝ) x L ∧ k = ⌊x * m⌋ ∧ -(m : ℤ) ≤ k ∧ k ≤ m ∧
      gridLow (exactNum ℝ) x L = k / m ∧ gridPhase (exactNum ℝ) x L = x * m - k := by
  have m0 : (0 : ℝ) < m := by exact_mod_cast hm
  have hk : gridIndex (exactNum ℝ) x L = ⌊x * m⌋ := by
    simp only [gridIndex, exact_floor, exact_div, hs]; congr 1; field_simp
  have lo : -(m : ℤ) ≤ ⌊x * m⌋ := by
    rw [Int.le_floor]; push_cast; nlinarith
  have hi : ⌊x * m⌋ ≤ (m : ℤ) := by
    have : (⌊x * m⌋ : ℝ) ≤ m := (Int.floor_le _).trans (by nlinarith)
    exact_mod_cast this
  have hl : gridLow (exactNum ℝ) x L = (⌊x * m⌋ : ℝ) / m := by
    simp only [gridLow, gridLevel, exact_mul, exact_toF, hs, hk]
    rw [exact_clamp_id]
    · field_simp
    · have : -(m : ℝ) ≤ ⌊x * m⌋ := by exact_mod_cast lo
      push_cast
      rw [mul_one_div, le_div_iff₀ m0]; linarith
    · have : (⌊x * m⌋ : ℝ) ≤ m := by exact_mod_cast hi
      push_cast
      rw [mul_one_div, div_le_iff₀ m0]; linarith
  refine ⟨⌊x * m⌋, hk.symm, rfl, lo, hi, hl, ?_⟩
  simp only [gridPhase, exact_div, exact_sub, hl, hs]
  field_simp

/-- The Quantizer on a full-scale sample (40_quantizer.md R82). -/
theorem exact_quantize {L m : Nat} {x : ℝ} (s : ℝ) (hL : L ≠ 1) (hm : 1 ≤ m) (hs : gridStep (exactNum ℝ) L = 1 / m)
    (h1 : -1 ≤ x) (h2 : x ≤ 1) :
    quantize (exactNum ℝ) x L s = (⌊x * m⌋ + blend (exactNum ℝ) (x * m - ⌊x * m⌋) s) / m := by
  obtain ⟨k, _, rfl, _, _, hl, hp⟩ := grid_spec hm hs h1 h2
  rw [quantize, if_neg hL, hl, hp, hs]
  simp only [exact_add, exact_mul]
  field_simp

end Sys2Proof.Machine
end

