-- ==== Sys2Proof/Machine/Wire.lean ====
section
/-! DEFINITION. The bytes of a frame word on a transport outside the block, in the order `WIRE_ENDIAN` gives (20_memory.md
R43). The block's interface is words: no other definition of the model uses this. -/

namespace Sys2Proof.Machine

/-- Byte `k` of a word, byte 0 the least significant. -/
def wordByte (w : Word) (k : Nat) : BitVec 8 := w.extractLsb' (8 * k) 8

/-- The four bytes of a word in the order the transport sends them. -/
def toWire {α : Type} (cfg : Config α) (w : Word) : List (BitVec 8) :=
  match cfg.wireEndian with
  | .little => [wordByte w 0, wordByte w 1, wordByte w 2, wordByte w 3]
  | .big => [wordByte w 3, wordByte w 2, wordByte w 1, wordByte w 0]

/-- The word of four bytes as the transport sends them; any other number of bytes is no word. -/
def fromWire {α : Type} (cfg : Config α) : List (BitVec 8) → Option Word
  | [a, b, c, d] =>
    match cfg.wireEndian with
    | .little => some (d ++ c ++ b ++ a)
    | .big => some (a ++ b ++ c ++ d)
  | _ => none

end Sys2Proof.Machine
end

