-- ==== Sys2Proof/Laws/Wire.lean ====
section
/-! SUPPORT. A word sent over the outer transport is the word received, in either byte order. -/

namespace Sys2Proof.Machine

theorem fromWire_toWire {α : Type} (cfg : Config α) (w : Word) : fromWire cfg (toWire cfg w) = some w := by
  unfold toWire
  cases h : cfg.wireEndian <;> simp only [fromWire, h, Option.some.injEq] <;>
    · ext i hi
      simp only [wordByte, BitVec.getElem_append, BitVec.getElem_extractLsb']
      split_ifs <;> (rw [BitVec.getLsbD_eq_getElem (by omega)]; congr 1; omega)

end Sys2Proof.Machine
end

