-- ==== Sys2Proof/Tests/Slice0.lean ====
section
/-! SUPPORT. Tests against the vectors of 95_test_vectors.md, one step each, and for every statement with hypotheses a
witness that meets them. -/

namespace Sys2Proof.Tests

open Sys2Proof Sys2Proof.Machine

set_option Elab.async false

/-! ### Decoding: V35, and the words of 30_encoding.md R64 with operands that differ -/

theorem test_decode_init : decode [0x01000000, 0x472C4400] = .ok (.init 0x472C4400) := by decide
theorem test_decode_tdwn : decode [0x03000000] = .ok .tdwn := by decide
theorem test_decode_procAsymManMono : decode [0x02000000, 1, 2, 3, 4, 5] = .ok (.procAsymManMono 1 2 3 4 5) := by decide
theorem test_decode_procSymManMono : decode [0x02000001, 1, 2, 3, 4, 5] = .ok (.procSymManMono 1 2 3 4 5) := by decide
theorem test_decode_procAsymAutoMono : decode [0x02000002, 0x7FC00000, 0x7FC00000, 0x7FC00000, 0x7FC00000, 0x7FC00000] =
    .ok (.procAsymAutoMono 0x7FC00000 0x7FC00000 0x7FC00000 0x7FC00000 0x7FC00000) := by decide
theorem test_decode_procSymAutoMono : decode [0x02000003, 1, 2, 3, 4, 5] = .ok (.procSymAutoMono 1 2 3 4 5) := by decide
theorem test_decode_procAsymManSt : decode [0x02000004, 1, 2, 3, 4, 5, 6] = .ok (.procAsymManSt 1 2 3 4 5 6) := by decide
theorem test_decode_procSymManSt :
    decode [0x02000005, 0x40600000, 0xBF000000, 0x3F000000, 0x40C00000, 0x3E800000, 0xBE800000] =
    .ok (.procSymManSt 0x40600000 0xBF000000 0x3F000000 0x40C00000 0x3E800000 0xBE800000) := by decide
theorem test_decode_procAsymAutoSt : decode [0x02000006, 1, 2, 3, 4, 5, 6] = .ok (.procAsymAutoSt 1 2 3 4 5 6) := by
  decide
theorem test_decode_procSymAutoSt : decode [0x02000007, 1, 2, 3, 4, 5, 6] = .ok (.procSymAutoSt 1 2 3 4 5 6) := by decide

/-- The encoder writes the words of 30_encoding.md R64. -/
theorem test_encode_words :
    encode (.init 7) = [0x01000000, 7] ∧ encode (.procAsymManMono 1 2 3 4 5) = [0x02000000, 1, 2, 3, 4, 5] ∧
    encode (.procSymAutoMono 1 2 3 4 5) = [0x02000003, 1, 2, 3, 4, 5] ∧
    encode (.procSymManSt 1 2 3 4 5 6) = [0x02000005, 1, 2, 3, 4, 5, 6] ∧
    encode (.procAsymAutoSt 1 2 3 4 5 6) = [0x02000006, 1, 2, 3, 4, 5, 6] ∧ encode .tdwn = [0x03000000] := by decide

/-- A table row's bits reach the decoder with operand words of zeros. -/
theorem test_decodeTableWord :
    decodeTableWord 32 0x02000005 = some (.procSymManSt 0 0 0 0 0 0) ∧ decodeTableWord 64 0x01000000 = some (.init 0) ∧
    decodeTableWord 32 0x03000000 = some .tdwn ∧ decodeTableWord 32 0x02000008 = none := by decide

/-- V36 rows 1 to 15: the refused frames, and which check refuses them. -/
theorem test_decode_refuses :
    decode [] = .error .frameLength ∧ decode [0x00000000] = .error .reservedOpcode ∧
    decode [0x04000000, 0x473B8000] = .error .reservedOpcode ∧ decode [0xFF000007] = .error .reservedOpcode ∧
    decode [0x02000008, 0x40800000, 0, 0x3F800000, 0, 0x3F333333] = .error .reservedBits ∧
    decode [0x02800000, 0x40800000, 0, 0x3F800000, 0, 0x3F333333] = .error .reservedBits ∧
    decode [0x01000001, 0x473B8000] = .error .reservedBits ∧ decode [0x03000004] = .error .reservedBits ∧
    decode [0x01000000] = .error .frameLength ∧ decode [0x01000000, 0x473B8000, 0] = .error .frameLength ∧
    decode [0x02000000, 0x40800000, 0, 0x3F800000, 0] = .error .frameLength ∧
    decode [0x02000000, 0x40800000, 0, 0x3F800000, 0, 0x3F333333, 0x3F333333] = .error .frameLength ∧
    decode [0x02000004, 0x40800000, 0, 0x3F800000, 0, 0x3F333333] = .error .frameLength ∧
    decode [0x03000000, 0] = .error .frameLength ∧ decode [0x02000008, 0x40800000] = .error .reservedBits := by decide

/-! ### Well-formedness: an ill-formed term for each check -/

theorem test_wellFormedFrame_empty : wellFormedFrame [] = false := by decide
theorem test_wellFormedFrame_opcode : wellFormedFrame [0x04000000, 0] = false := by decide
theorem test_wellFormedFrame_reserved_bit : wellFormedFrame [0x03000008] = false := by decide
theorem test_wellFormedFrame_low_bits : wellFormedFrame [0x03000001] = false := by decide
theorem test_wellFormedFrame_init_length : wellFormedFrame [0x01000000] = false := by decide
theorem test_wellFormedFrame_mono_length : wellFormedFrame [0x02000003, 0, 0, 0, 0, 0, 0] = false := by decide
theorem test_wellFormedFrame_stereo_length : wellFormedFrame [0x02000004, 0, 0, 0, 0, 0] = false := by decide
theorem test_wellFormedFrame_tdwn_length : wellFormedFrame [0x03000000, 0] = false := by decide
theorem test_wellFormedFrame_accepts : wellFormedFrame [0x02000004, 0, 0, 0, 0, 0, 0] = true := by decide

/-- V36 rows 16 to 21. -/
theorem test_wellFormed_init : wellFormed (.init 0) = false ∧ wellFormed (.init 0x80000000) = false ∧
    wellFormed (.init 0xBF800000) = false ∧ wellFormed (.init 0x7FC00000) = false ∧
    wellFormed (.init 0x7F800000) = false ∧ wellFormed (.init 1) = true := by decide

/-! ### States for tests -/

/-- The follower after `INIT 48000` with the correctly rounded instances (V20). -/
def after48000 : Follower Word := { env := 0, atk := 0x3D2728F0, rel := 0x39DA6800 }

/-- A state with the given flag and both followers `f`, the host about to do `cmd`. -/
def stateOf (ready : Bool) (f : Follower Word) (cmd : List HostEvent) : State :=
  { ready := ready, laneL := f, laneR := f, cmd := cmd, out := none, n := 0, draws := 0 }

/-- Right after `INIT 48000`, nothing issued. -/
def inited : State := stateOf true after48000 []

/-- The output words of an answer. -/
def outOf : Result → Option OutFrame
  | .next t => t.out
  | .fault _ => none
  | .refused _ => none

/-- The two levels of an answer. -/
def levelsAfter : Result → Option (Word × Word)
  | .next t => some (t.laneL.env, t.laneR.env)
  | .fault _ => none
  | .refused _ => none

/-- The refusal of an answer. -/
def refusalIn : Result → Option Refusal
  | .next _ => none
  | .fault _ => none
  | .refused r => some r

/-! ### The eight PROC rows: V33 -/

theorem test_procAsymManMono : outOf (exec (.procAsymManMono 0x40800000 0 0x3F800000 0 0x3F333333) inited) =
    some { y0 := 0x3F36DB6E, y1 := 0x3F36DB6E } := by decide +kernel
theorem test_procSymManMono : outOf (exec (.procSymManMono 0x40000000 0 0x3F800000 0 0xBF000000) inited) =
    some { y0 := 0xBF800000, y1 := 0xBF800000 } := by decide +kernel
theorem test_procAsymAutoMono : outOf (exec (.procAsymAutoMono 0x40800000 0 0x3F800000 0 0x3F333333) inited) =
    some { y0 := 0x3F800000, y1 := 0x3F800000 } ∧
    levelsAfter (exec (.procAsymAutoMono 0x40800000 0 0x3F800000 0 0x3F333333) inited) =
      some (0x3CEA061D, 0x3CEA061D) := by decide +kernel
theorem test_procSymAutoMono : outOf (exec (.procSymAutoMono 0x41800000 0 0 0 0x3A83126F) inited) =
    some { y0 := 0x3E4CCCCD, y1 := 0x3E4CCCCD } ∧
    levelsAfter (exec (.procSymAutoMono 0x41800000 0 0 0 0x3A83126F) inited) = some (0x382B2BF8, 0x382B2BF8) := by
  decide +kernel
theorem test_procAsymManSt :
    outOf (exec (.procAsymManSt 0x40600000 0 0x3F800000 0 0x3F333333 0xBF333333) inited) =
    some { y0 := 0x3F30C30C, y1 := 0xBF30C30C } := by decide +kernel
theorem test_procSymManSt :
    outOf (exec (.procSymManSt 0x40000000 0 0x3F800000 0 0x3F000000 0xBF000000) inited) =
    some { y0 := 0x3F800000, y1 := 0xBF800000 } := by decide +kernel

/-- V33 row 7: the right output passes through `ZX` near zero and is not one word; the levels are. -/
theorem test_procAsymAutoSt :
    (outOf (exec (.procAsymAutoSt 0x40800000 0 0x3F800000 0 0x3F333333 0) inited)).map (·.y0) = some 0x3F800000 ∧
    levelsAfter (exec (.procAsymAutoSt 0x40800000 0 0x3F800000 0 0x3F333333 0) inited) = some (0x3CEA061D, 0) := by
  decide +kernel

/-- V33 row 8: the follower runs although the output is forced to zero. -/
theorem test_procSymAutoSt : levelsAfter (exec (.procSymAutoSt 0x3F800000 0 0x3F800000 0 0x3F333333 0xBF333333) inited) =
    some (0x3CEA061D, 0x3CEA061D) := by decide +kernel

/-- V28 row 7: a fractional depth; the output carries the sample's sign. -/
theorem test_procSymManMono_fractional_depth :
    outOf (exec (.procSymManMono 0x40900000 0 0x3F000000 0 0xBF266666) inited) =
    some { y0 := 0xBF27A70E, y1 := 0xBF27A70E } := by decide +kernel

/-- V25 rows 4, 5 and 10: a sample beyond full scale, the greatest bit depth. -/
theorem test_procAsymManSt_clamps :
    outOf (exec (.procAsymManSt 0x40800000 0 0x3F800000 0 0x3FC00000 0xFF61B1E6) inited) =
      some { y0 := 0x3F800000, y1 := 0xBF800000 } ∧
    outOf (exec (.procAsymManMono 0x41A00000 0 0x3F800000 0 0x3F333333) inited) =
      some { y0 := 0x3F333366, y1 := 0x3F333366 } := by decide +kernel

/-- P2 frame 7: a quieter input after a loud one. -/
theorem test_procSymAutoMono_release :
    outOf (exec (.procSymAutoMono 0x41800000 0 0 0 0x3D4CCCCD)
      (stateOf true { after48000 with env := 0x3DBC908A } [])) = some { y0 := 0x3F0B0C19, y1 := 0x3F0B0C19 } ∧
    levelsAfter (exec (.procSymAutoMono 0x41800000 0 0 0 0x3D4CCCCD)
      (stateOf true { after48000 with env := 0x3DBC908A } [])) = some (0x3DBC875A, 0x3DBC875A) := by decide +kernel

/-- V36 row 22. -/
theorem test_proc_before_init :
    refusalIn (exec (.procAsymManMono 0x40800000 0 0x3F800000 0 0x3F333333) State.reset) = some .notReady := by decide

/-! ### INIT and TDWN: V21, V34, V36 -/

/-- V21 row 2: `1 ÷ t` overflows and `EXP(−∞) = 0` for every instance. -/
theorem test_init_tiny_rate :
    (match exec (.init 0x006CE3EE) inited with
      | .next t => some (t.ready, t.laneL, t.laneR)
      | .fault _ => none
      | .refused _ => none) =
    some (true, { env := 0, atk := 0x3F800000, rel := 0x3F800000 }, { env := 0, atk := 0x3F800000, rel := 0x3F800000 }) :=
  by decide +kernel

/-- V36 rows 16 to 20. -/
theorem test_init_refuses : refusalIn (exec (.init 0) inited) = some .badSampleRate ∧
    refusalIn (exec (.init 0x80000000) inited) = some .badSampleRate ∧
    refusalIn (exec (.init 0xBF800000) inited) = some .badSampleRate ∧
    refusalIn (exec (.init 0x7FC00000) inited) = some .badSampleRate ∧
    refusalIn (exec (.init 0x7F800000) inited) = some .badSampleRate := by decide +kernel

/-- V34 row 4. -/
theorem test_tdwn : ∃ t, exec .tdwn inited = .next t ∧ t.ready = false ∧ t.out = none := ⟨_, rfl, rfl, rfl⟩

/-- V36 row 23. -/
theorem test_tdwn_not_ready : refusalIn (exec .tdwn State.reset) = some .notReady := by decide

/-- V36 row 24: the decoder's checks come before the lifecycle's. -/
theorem test_step_checks_decoder_first :
    refusalIn (step (stateOf false after48000 [.frame [0x02000000, 0x40800000]])) = some .frameLength := by decide

/-- The host's placement of a row runs that row in the next step. -/
theorem test_withFetchWord : (State.reset.withFetchWord 32 0x02000005).fetch = .command (.procSymManSt 0 0 0 0 0 0) ∧
    (State.reset.withFetchWord 32 0x03000000).fetch = .command .tdwn := by decide

/-! ### The formulas -/

/-- V12, V13: `T`. -/
theorem test_blend : blend b32 0x3F666666 0x3E800000 = 0x3F6F9DB2 ∧ blend b32 0x3F666666 0x3F000000 = 0x3F78D4FE ∧
    blend b32 0x3F666666 0x3F400000 = 0x3F7C6A7F ∧ blend b32 0x3F666666 0x3F800000 = 0x3F800000 ∧
    blend b32 0x3F000000 0x3F400000 = 0x3F400000 ∧ blend b32 0x3F000000 0x3F000000 = 0x3F000000 := by decide +kernel

/-- V14, V15: `quantize`. -/
theorem test_quantize : quantize b32 0x3F333333 15 0x3E800000 = 0x3F34843E ∧
    quantize b32 0xBF333333 7 0x3F800000 = 0xBF2AAAAA ∧ quantize b32 0x3F333333 65535 0x3F800000 = 0x3F333366 ∧
    quantize b32 0xBE99999A 7 0x3F000000 = 0xBEA5E354 ∧ quantize b32 0x3F800000 15 0x3F800000 = 0x3F800001 ∧
    quantize b32 0x3F000000 3 0x3F800000 = 0x3F800000 := by decide +kernel

/-- V29: the reference instance of `ZX` inside the zone. -/
theorem test_zxRef : zxRef b32 0x3D4CCCCD 15 0x3F800000 = 0x3C5652BE ∧
    zxRef b32 0xBD4CCCCD 15 0x3F800000 = 0xBC5652C0 ∧ zxRef b32 0x3DCCCCCD 15 0x3F800000 = 0x3E0D8BCB := by
  decide +kernel

/-- V22, V23: the follower, one update each. -/
theorem test_follower : envUpdateLevel b32 after48000 0x3F000000 = 0x3CA728F0 ∧
    envUpdateLevel b32 { after48000 with env := 0x3D70A570 } 0 = 0x3D708BC6 ∧
    envUpdateLevel b32 { after48000 with env := 0x3D708BC6 } 0x7FC00000 = 0x3D70721F ∧
    envGain b32 hw 0x3CA728F0 = 0x42440722 ∧ envGain b32 hw 0x3B85BA5A = 0x43480000 := by decide +kernel

/-- V26 row 1, V17 row 3: exact for every instance. -/
theorem test_zero_gain_and_gamma : hw.exp10 0 = 0x3F800000 ∧ gammaValue hw 0x80000000 = 0x3F800000 := by decide +kernel

/-! ### Witnesses: operands and states that meet the hypotheses of each statement

A witness of a statement with several clauses has one part per clause. -/

/-- An `INIT` at a valid rate answers a next state, whatever the state. -/
theorem init48000_next (s : State) : ∃ t, exec (.init 0x473B8000#32) s = .next t ∧ t.ready = true := by
  have h : rateValid b32 0x473B8000#32 = true := by decide +kernel
  rw [exec_init, execInit, execInitWith, if_pos h]
  exact ⟨_, rfl, rfl⟩

/-- The clauses of the decoding procedure, each at command words at the ends of its range. -/
theorem witness_DecodingProcedure :
    ((0x00FFFFFF#32).toNat / 2 ^ 24 = 0 ∧ (0x04000000#32).toNat / 2 ^ 24 = 4) ∧
    ((0x01000008#32).toNat / 2 ^ 24 = 1 ∧ (0x01000008#32).toNat / 2 ^ 3 % 2 ^ 21 = 1 ∧
      (0x03800000#32).toNat / 2 ^ 24 = 3 ∧ (0x03800000#32).toNat / 2 ^ 3 % 2 ^ 21 = 2 ^ 20) ∧
    ((0x01000001#32).toNat % 2 ^ 3 = 1 ∧ (0x03000007#32).toNat % 2 ^ 3 = 7 ∧
      (0x03000007#32).toNat / 2 ^ 3 % 2 ^ 21 = 0) ∧
    ((0x02000003#32).toNat % 2 ^ 3 / 4 = 0 ∧ (0x02000004#32).toNat % 2 ^ 3 / 4 = 1 ∧
      (0x02000004#32).toNat / 2 ^ 24 = 2 ∧ (0x02000007#32).toNat / 2 ^ 3 % 2 ^ 21 = 0) ∧
    ((0x01000000#32).toNat / 2 ^ 24 = 1 ∧ (0x01000000#32).toNat % 2 ^ 3 = 0 ∧ (0x03000000#32).toNat / 2 ^ 24 = 3 ∧
      (0x03000000#32).toNat % 2 ^ 3 = 0) := by decide

theorem witness_StepRunsDecodedCommand :
    (∃ t, exec (.init 0x473B8000) (stateOf false after48000 [.frame [0x01000000, 0x473B8000], .hardReset]) = .next t) ∧
    exec .tdwn (stateOf false after48000 [.frame [0x03000000]]) = .refused .notReady ∧
    decode [0x01000000, 0x473B8000] = .ok (.init 0x473B8000) ∧ decode [0x03000000] = .ok .tdwn :=
  ⟨(init48000_next _).imp fun _ h => h.1, rfl, by decide, by decide⟩

theorem witness_StepRefusesRejectedFrames :
    (stateOf true after48000 [.frame [], .hardReset]).cmd = .frame [] :: [.hardReset] ∧
    decode [] = .error .frameLength ∧ decode [0x04000000] = .error .reservedOpcode ∧
    decode [0x02000008] = .error .reservedBits := by decide

theorem witness_StepHoldsStateWhenIdle : inited.cmd = [] := rfl

theorem witness_HardwareResetStep : (stateOf true after48000 [.hardReset]).cmd = .hardReset :: [] := rfl

theorem witness_StreamIndexIsNeverRead : (∃ t, step (stateOf true after48000 [.frame [0x03000000]]) = .next t) ∧
    step (stateOf true after48000 [.frame []]) = .refused .frameLength := ⟨⟨_, rfl⟩, rfl⟩

theorem witness_UnspecifiedRegistersAreUnobservable : State.reset.ready = false ∧
    (∃ t, exec (.init 0x473B8000) State.reset = .next t) ∧
    exec (.procSymAutoSt 0 0 0 0 0 0) State.reset = .refused .notReady :=
  ⟨rfl, (init48000_next _).imp fun _ h => h.1, rfl⟩

/-- The least and the greatest rate accepted, and their neighbours. -/
theorem witness_InitResult : positiveFiniteWord 1 = true ∧ positiveFiniteWord 0x7F7FFFFF = true ∧
    positiveFiniteWord 0 = false ∧ positiveFiniteWord 0x7F800000 = false ∧ positiveFiniteWord 0x80000001 = false := by
  decide

theorem witness_CoefficientsInUnit : positiveFiniteWord 0x7F7FFFFF = true ∧ positiveFiniteWord 0x00000001 = true ∧
    fIsInf (fMul 0x7F7FFFFF#32 0x7F7FFFFF#32) = true ∧ fIsZero (fMul 0x00000001#32 0x00000001#32) = true := by
  decide +kernel

theorem witness_RepeatedFrames : (∃ t, exec (.init 0x473B8000) inited = .next t) ∧
    (∃ t, exec (.procAsymManSt 0 0 0 0 0 0) inited = .next t) ∧ isManual (.procAsymManSt 0 0 0 0 0 0) = true ∧
    (stateOf true { after48000 with env := 1 } []).ready = inited.ready ∧ ∃ t, exec .tdwn inited = .next t :=
  ⟨(init48000_next _).imp fun _ h => h.1, ⟨_, rfl⟩, rfl, rfl, ⟨_, rfl⟩⟩

theorem witness_InstructionFrame : (∃ t, exec (.init 0x473B8000) inited = .next t) ∧
    (∃ t, exec (.procAsymManMono 0 0 0 0 0) inited = .next t) ∧ isManual (.procAsymManMono 0 0 0 0 0) = true ∧
    isProc (.procAsymManMono 0 0 0 0 0) = true ∧ isProc .tdwn = false ∧ ∃ t, exec .tdwn inited = .next t :=
  ⟨(init48000_next _).imp fun _ h => h.1, ⟨_, rfl⟩, rfl, rfl, rfl, ⟨_, rfl⟩⟩

theorem witness_LifecycleAcceptance : (∃ t, exec (.procSymManMono 0 0 0 0 0) inited = .next t) ∧
    admitted inited.ready (.procSymManMono 0 0 0 0 0) = true ∧ admitted State.reset.ready .tdwn = false ∧
    (stateOf true after48000 [.hardReset]).cmd = .hardReset :: [] := ⟨⟨_, rfl⟩, rfl, rfl, rfl⟩

theorem witness_ProcIsRefusedBeforeInit :
    isProc (.procSymAutoMono 0 0 0 0 0) = true ∧ State.reset.ready = false := ⟨rfl, rfl⟩

theorem witness_TdwnResult : State.reset.ready = false ∧ inited.ready = true ∧ (∃ t, exec .tdwn inited = .next t) ∧
    (∀ sr, Instr.tdwn ≠ .init sr) ∧ positiveFiniteWord 0x473B8000 = true :=
  ⟨rfl, rfl, ⟨_, rfl⟩, nofun, by decide⟩

/-- A host that initialises, processes, tears down, and initialises again after a reset. -/
theorem witness_DutifulHostIsNeverRefused :
    dutiful (stateOf false after48000 [.frame (encode (.init 0x473B8000)), .frame (encode (.procSymManMono 0 0 0 0 0)),
      .frame (encode .tdwn), .hardReset, .frame (encode (.init 1))]).ready
      [.frame (encode (.init 0x473B8000)), .frame (encode (.procSymManMono 0 0 0 0 0)),
      .frame (encode .tdwn), .hardReset, .frame (encode (.init 1))] :=
  ⟨_, rfl, by decide, _, rfl, rfl, _, rfl, rfl, _, rfl, by decide, trivial⟩

theorem witness_ManualRowsResult : inited.ready = true := rfl

theorem witness_AutoRowsResult : inited.ready = true := rfl

theorem witness_EqualLanesGiveEqualOutputs :
    isMono (.procAsymManMono 0x40800000 0 0 0 0) = true ∧ isManual (.procAsymManMono 0x40800000 0 0 0 0) = true ∧
    inited.laneL = inited.laneR ∧ ∃ t, exec (.procAsymManMono 0x40800000 0 0 0 0) inited = .next t :=
  ⟨rfl, rfl, rfl, _, rfl⟩

theorem witness_CoefficientCopiesStayEqual :
    ∃ t, step (stateOf true after48000 [.frame [0x02000002, 0, 0, 0, 0, 0x3F333333]]) = .next t ∧ t.ready = true ∧
      (stateOf true after48000 []).laneL.atk = (stateOf true after48000 []).laneR.atk := ⟨_, rfl, rfl, rfl⟩

theorem witness_InvariantKeptByEveryStep :
    (stateOf true after48000 [.frame [0x02000002, 0, 0, 0, 0, 0x3F333333]]).inv = true ∧
    ∃ t, step (stateOf true after48000 [.frame [0x02000002, 0, 0, 0, 0, 0x3F333333]]) = .next t :=
  ⟨by decide +kernel, _, rfl⟩

theorem witness_ProcOutputsAreFullScale : inited.inv = true ∧ inited.ready = true ∧
    isProc (.procAsymAutoSt 0x7FC00000 0 0 0 0x7F800000 0) = true := by decide +kernel

/-- Two runs that differ in the right lane's registers and sample, one stereo and one mono. -/
theorem witness_LaneIndependence :
    (stateOf true after48000 []).lane .L =
      ({ stateOf true after48000 [] with laneR := { after48000 with env := 0x3F800000 } } : State).lane .L ∧
    List.Forall₂ (sameForLane .L) [.frame (encode (.procSymAutoSt 1 2 3 4 5 6)), .hardReset]
      [.frame (encode (.procSymAutoMono 1 2 3 4 5)), .hardReset] ∧
    List.Forall₂ (sameForLane .R) [.frame (encode (.procSymAutoSt 1 2 3 4 5 6))]
      [.frame (encode (.procSymAutoSt 1 2 3 4 7 6))] :=
  ⟨rfl, .cons ⟨_, _, rfl, rfl, rfl⟩ (.cons trivial .nil), .cons ⟨_, _, rfl, rfl, rfl⟩ .nil⟩

theorem witness_NonFiniteSampleActsAsZero : (0x7F800000#32).toNat / 2 ^ 23 % 2 ^ 8 = 255 ∧
    (0xFFFFFFFF#32).toNat / 2 ^ 23 % 2 ^ 8 = 255 ∧ (0x7F7FFFFF#32).toNat / 2 ^ 23 % 2 ^ 8 ≠ 255 := by decide

/-- Each clause at the bit depth's bounds. -/
theorem witness_ParametersAreClamped : fIsNaN 0x7FC00000#32 = true ∧ fLt 0x3F7FFFFF#32 0x3F800000#32 = true ∧
    fLt 0x41800000#32 0x41800001#32 = true ∧ fLe 0x3F800000#32 0x3F800000#32 = true ∧
    fLe 0x41800000#32 0x41800000#32 = true ∧ fLe 0x3F800000#32 0x41800000#32 = true := by decide +kernel

theorem witness_OneBitDepthSilences : followerSafe after48000 = true ∧ fIsNaN 0x7FC00000#32 = true ∧
    fLe 0x3F800000#32 0x3F800000#32 = true ∧ (snapshotOf true true 0x3F800000 0 0 0).autoGain = true := by
  decide +kernel

theorem witness_SymmetricSilence : followerSafe after48000 = true ∧ (snapshotOf true true 0 0 0 0).symmetric = true ∧
    fIsFinite 0x7F800000#32 = false ∧ fIsZero 0x80000000#32 = true ∧ fIsZero after48000.env = true := by
  decide +kernel

theorem witness_GateBoundary : fLt 0x3BA3D709#32 0x3BA3D70A#32 = true ∧ fLe 0x3BA3D70A#32 0x3BA3D70A#32 = true := by
  decide +kernel

theorem witness_BranchOwnership :
    followerSafe { after48000 with env := 0x3E800000 } = true ∧ inUnit 0x3F800000 = true ∧ inUnit 0 = true ∧
    fLt 0x3E800000#32 0x3F800000#32 = true ∧ fLe 0x3E800000#32 0x3E800000#32 = true ∧
    sameValue b32 0x3E800000 0x3E800000 = true ∧ fLt 0#32 0x3E800000#32 = true := by decide +kernel

theorem witness_ZeroGainDrivesNothing : fIsZero (clampGainDb b32 hw 0xC0A00000) = true ∧
    fIsFinite 0x3F333333#32 = true := by decide +kernel

/-- A configuration whose `POW` gives the base and whose `EXP10` gives 1. -/
def plainConfig : Config Word := { hw with pow := fun b _ => b, exp10 := fun _ => 0x3F800000#32 }

theorem plain_exp10_named : Exp10Named b32 (fun _ : Word => 0x3F800000#32) :=
  ⟨fun _ _ => by decide +kernel, fun _ _ => by decide +kernel⟩

theorem plain_exp10_mono : Exp10Mono b32 (fun _ : Word => 0x3F800000#32) := fun _ _ _ => by
  simp only [b32_le]; decide +kernel

theorem plain_pow_named : PowNamed b32 (fun b _ : Word => b) where
  zero := fun _ _ h _ => h
  one := fun _ _ h _ => h
  id := fun b _ h _ => by
    have := fLe_dest h
    have h2 : fLe b b = true := (fLe_iff this.2.1 this.2.1).2 le_rfl
    simp [sameValue, h2]
  range := fun _ _ h _ => h
  finite := fun _ _ h _ _ => h

theorem plain_pow_mono : PowMono b32 (fun b _ : Word => b) := fun _ _ _ _ h _ => h

theorem witness_DriveGainRange : Exp10Named b32 plainConfig.exp10 ∧ Exp10Mono b32 plainConfig.exp10 ∧
    within b32 (snapshotOf true true 0 0 0 0x41A00000).gainDb (fLit 0 1) (fLit 20 1) = true :=
  ⟨plain_exp10_named, plain_exp10_mono, by decide +kernel⟩

theorem witness_WarpProperties : (plainConfig = hw ∨ PowNamed b32 plainConfig.pow ∧ PowMono b32 plainConfig.pow) ∧
    (hw = hw ∨ PowNamed b32 hw.pow ∧ PowMono b32 hw.pow) ∧
    within b32 0x41200000 (fLit 1 10) (fLit 10 1) = true ∧ inFullScale 0xBF800000 = true ∧ inFullScale 0 = true ∧
    fIsZero 0#32 = true ∧ fVal 0x3F800000#32 = 2 ^ 149 ∧ fVal 0xBF800000#32 = -2 ^ 149 ∧
    fLe 0xBF800000#32 0#32 = true := by
  refine ⟨.inr ⟨plain_pow_named, plain_pow_mono⟩, .inl rfl, ?_⟩
  decide +kernel

theorem witness_GammaValueRange : fIsZero 0x80000000#32 = true := by decide

/-- An `EXP` with the named properties: 0 at `−∞`, else 1. -/
theorem plain_exp_named : ExpNamed b32 (fun v : Word => if fIsInf v then 0#32 else 0x3F800000#32) where
  range := fun v _ => by
    show within b32 (if fIsInf v then 0#32 else 0x3F800000#32) _ _ = true
    split <;> decide +kernel
  negInf := fun v h hf => by
    have hi : fIsInf v = true := by
      have a := (fLe_dest h).1
      have b : fIsFinite v = false := hf
      simp only [fIsNaN, fIsFinite, fIsInf, decide_eq_false_iff_not, beq_iff_eq] at *
      omega
    show sameValue b32 (if fIsInf v then 0#32 else 0x3F800000#32) _ = true
    rw [if_pos hi]; decide +kernel
  zero := fun v h => by
    have h' : fLe v (fLit 0 1) = true ∧ fLe (fLit 0 1) v = true := by simpa [sameValue] using h
    rw [fLit_zero] at h'
    have hv : fVal v = 0 := by have a := (fLe_dest h'.1).2.2; have b := (fLe_dest h'.2).2.2; rw [fVal_zero] at a b; omega
    have hi : fIsInf v = false := notInf_of_finite (finite_of_isZero ((isZero_iff (fLe_dest h'.1).1).2 hv))
    show sameValue b32 (if fIsInf v then 0#32 else 0x3F800000#32) _ = true
    rw [hi]; decide +kernel

/-- A `ZX` with the named properties: 0 inside the zone. -/
theorem plain_zx_named : ZxNamed b32 (zxOf fun _ _ _ => 0) where
  one := fun w s => by rw [zxOf, if_pos rfl]; decide +kernel
  locality := fun w L s hd hL ho => by
    obtain ⟨hw, ⟨b, hb1, hb2, hb⟩, hs⟩ := hd
    have hw' : inFullScale w = true := by
      simp only [within, Bool.and_eq_true, b32_le, b32_toF] at hw
      have a := fLe_dest hw.1; have b := fLe_dest hw.2
      rw [fVal_negOne] at a; rw [fVal_one] at b
      exact inFullScale_of_bounded ⟨a.2.1, abs_le.2 ⟨by simpa using a.2.2, by simpa using b.2.2⟩⟩
    have hs' : inUnit s = true := by simpa [inUnit, within, fLit_zero] using hs
    have hL2 : L ≤ 65535 := by
      have := Nat.pow_le_pow_right (n := 2) (by norm_num) hb2
      omega
    have q := (bounded_quantize (bounded_of_inFullScale hw') (inUnit_bounded hs') (.inr hL) hL2).1
    rw [zxOf, if_neg (by omega), if_pos ho]
    have h2 : fLe (quantize b32 w L s) (quantize b32 w L s) = true := (fLe_iff q q).2 le_rfl
    simp [sameValue, h2]
  range := fun w L s _ hL ho => by
    rw [zxOf, if_neg (by omega), if_neg (by rw [ho]; decide)]
    decide +kernel

/-- A configuration the spec allows and the machine's is not: another ceiling, `NANP` the upper bound, the bypassed drive. -/
def otherConfig : Config Word where
  pow := fun b _ => b
  exp := fun v => if fIsInf v then 0#32 else 0x3F800000#32
  exp10 := fun _ => 0x3F800000#32
  zx := zxOf fun _ _ _ => 0
  gainCeil := 0x41200000
  nanp := fun _ hi => hi
  pregainInAuto := .bypassed
  wireEndian := .big

theorem other_conforms : ConfigConforms otherConfig where
  pow := plain_pow_named
  powMono := plain_pow_mono
  exp := plain_exp_named
  exp10 := plain_exp10_named
  exp10Mono := plain_exp10_mono
  zx := plain_zx_named
  gainCeilFinite := by decide
  gainCeilAtLeastOne := by decide +kernel
  nanp := fun lo hi h => by
    have d := fLe_dest h
    show within b32 hi lo hi = true
    exact (within_iff d.1 d.2.1).2 ⟨d.2.1, d.2.2, le_rfl⟩

theorem witness_InvariantKeptByEveryStep_other : ConfigConforms otherConfig ∧
    (stateOf true after48000 [.frame [0x02000002, 0, 0, 0, 0, 0x3F333333]]).inv = true ∧
    ∃ t, stepWith otherConfig (stateOf true after48000 [.frame [0x02000002, 0, 0, 0, 0, 0x3F333333]]) = .next t :=
  ⟨other_conforms, by decide +kernel, _, rfl⟩

/-- V24 row 3 with another ceiling; a NaN bit depth with another `NANP`; the drive bypassed (00_scope.md R10). -/
theorem test_other_config : envGain b32 otherConfig 0x3BA3D709 = 0x41200000 ∧
    clampBitDepth b32 otherConfig 0x7FC00000 = 0x41800000 ∧
    driveGain b32 otherConfig (snapshotOf true true 0 0 0 0x41A00000) = 0x3F800000 := by decide +kernel

/-- A word on a transport of either byte order (20_memory.md R43). -/
theorem test_wire : toWire otherConfig 0x3F80A001 = [0x3F, 0x80, 0xA0, 0x01] ∧
    toWire { otherConfig with wireEndian := .little } 0x3F80A001 = [0x01, 0xA0, 0x80, 0x3F] := by decide

theorem witness_ImposingPropertiesLosesNothing :
    (PowNamed b32 plainConfig.pow ∧ PowMono b32 plainConfig.pow ∧ fIsFinite 0x3F000000#32 = true ∧
      fLe (fLit 0 1) 0x3F000000#32 = true ∧ within b32 0x3DCCCCCD (fLit 1 10) (fLit 10 1) = true) ∧
    (Exp10Named b32 plainConfig.exp10 ∧ Exp10Mono b32 plainConfig.exp10 ∧
      within b32 0x3F000000 (fLit (-1) 1) (fLit 1 1) = true) ∧
    (∃ raw, ExpNamed b32 raw ∧ fLe 0xFF800000#32 (fLit 0 1) = true) ∧
    (∃ raw, ZxNamed b32 raw ∧ ZxDomain b32 0x3D4CCCCD 15 0x3F800000 ∧
      sameValue b32 (raw (plusZero 0x3D4CCCCD) 15 (plusZero 0x3F800000)) (raw 0x3D4CCCCD 15 0x3F800000) = true) :=
  ⟨⟨plain_pow_named, plain_pow_mono, by decide +kernel⟩, ⟨plain_exp10_named, plain_exp10_mono, by decide +kernel⟩,
    ⟨_, plain_exp_named, by decide +kernel⟩,
    ⟨_, plain_zx_named, ⟨by decide +kernel, ⟨4, by decide, by decide, by decide⟩, by decide +kernel⟩, by decide +kernel⟩⟩

theorem witness_Binary32RoundsToNearestEven : fIsFinite 0x3F333333#32 = true ∧ fIsFinite 0x00000001#32 = true ∧
    fIsZero 0x00000001#32 = false ∧ (0 : Nat) < 1 := by decide

theorem witness_Binary32Comparisons : fIsNaN 0x7FC00000#32 = true := by decide

/-! ### Witnesses in the reference reading -/

/-- A configuration of the reference reading, its `ZX` passing a sample inside the zone unchanged. -/
theorem reference_config : ∃ cfg : Config ℝ, ReferenceConfig cfg := by
  let zx : ℝ → Nat → ℝ → ℝ := fun w L s =>
    if L = 1 then 0 else if outsideZone (exactNum ℝ) w L then quantize (exactNum ℝ) w L s else w
  refine ⟨{ pow := fun b e => b ^ e, exp := Real.exp, exp10 := fun v => (10 : ℝ) ^ v, zx := zx, gainCeil := 200,
            nanp := fun lo _ => lo, pregainInAuto := .applied, wireEndian := .little },
    fun _ _ => rfl, fun _ => rfl, fun _ => rfl, ⟨?_, ?_, ?_⟩, ?_, rfl, fun _ _ => rfl, rfl⟩
  · intro w s; simp [zx]
  · intro w L s _ hL ho
    have : L ≠ 1 := by omega
    simp [zx, this, ho]
  · intro w L s hd hL ho
    have : L ≠ 1 := by omega
    simpa [zx, this, ho] using hd.1
  · intro w L s _ hL hw
    have hL1 : L ≠ 1 := by omega
    have ho : outsideZone (exactNum ℝ) w L = false := by
      simpa [outsideZone] using hw
    have hp : 0 ≤ gridStep (exactNum ℝ) L / 2 := div_nonneg ((abs_nonneg w).trans hw.le) (by norm_num)
    simpa [zx, hL1, ho] using hp

theorem witness_InitResult_example : ∃ (cfg : Config ℝ) (f : Follower ℝ), ReferenceConfig cfg ∧
    f = envInit (exactNum ℝ) cfg 48000 := ⟨_, _, reference_config.choose_spec, rfl⟩

theorem witness_WarpIdentity : PowNamed b32 plainConfig.pow ∧ fIsFinite 0xBF333333#32 = true ∧
    ∃ cfg : Config ℝ, PowNamed (exactNum ℝ) cfg.pow := by
  refine ⟨plain_pow_named, by decide, { reference_config.choose with pow := fun b _ => b }, ?_⟩
  exact ⟨fun _ _ h _ => h, fun _ _ h _ => h, fun b _ _ _ => by simp, fun _ _ h _ => h, fun _ _ h _ _ => h⟩

theorem witness_BlendProperties : ∃ T, T = blend (exactNum ℝ) ∧ (0 : ℝ) ≤ 1 / 4 ∧ (1 / 4 : ℝ) ≤ 1 / 3 ∧ (1 / 3 : ℝ) ≤ 1 ∧
    (1 / 4 : ℝ) ≠ 1 / 2 ∧ (1 / 2 : ℝ) < 3 / 4 := ⟨_, rfl, by norm_num⟩

/-- A boundary inside the range and the two at its ends. -/
theorem witness_TransitionContinuity : (1 / 2 : ℝ) ≤ 1 / 2 ∧ (1 / 2 : ℝ) < 3 / 4 ∧ 15 % 2 = 1 ∧ 3 ≤ 15 ∧
    |((3 : ℤ) : ℝ) * gridStep (exactNum ℝ) 15| ≤ 1 ∧ |((7 : ℤ) : ℝ) * gridStep (exactNum ℝ) 15| ≤ 1 ∧
    |((-7 : ℤ) : ℝ) * gridStep (exactNum ℝ) 15| ≤ 1 := by norm_num [abs_of_pos, abs_of_neg]

theorem witness_QuantizerGrid : ∃ (L : Nat) (x step : ℝ) (k : ℤ), L % 2 = 1 ∧ 3 ≤ L ∧ -1 ≤ x ∧ x ≤ 1 ∧
    step = gridStep (exactNum ℝ) L ∧ k = gridIndex (exactNum ℝ) x L :=
  ⟨65535, 1, _, _, by norm_num, by norm_num, by norm_num, le_rfl, rfl, rfl⟩

theorem witness_QuantizerLandmarks : ∃ (L : Nat) (x low step p : ℝ), 2 ≤ L ∧ L % 2 = 1 ∧ -1 ≤ x ∧ x ≤ 1 ∧
    low = gridLow (exactNum ℝ) x L ∧ step = gridStep (exactNum ℝ) L ∧ p = gridPhase (exactNum ℝ) x L :=
  ⟨3, -1, _, _, _, by norm_num, by norm_num, le_rfl, by norm_num, rfl, rfl, rfl⟩

/-- Phase exactly a half at a softness above it (V15 row 2), and the premises of the other clauses. -/
theorem witness_QuantizerRangeErrorAndSymmetry : ∃ (L : Nat) (x s low step p q : ℝ), L % 2 = 1 ∧ 3 ≤ L ∧ -1 ≤ x ∧
    x ≤ 1 ∧ 0 ≤ s ∧ s ≤ 1 ∧ low = gridLow (exactNum ℝ) x L ∧ step = gridStep (exactNum ℝ) L ∧
    p = gridPhase (exactNum ℝ) x L ∧ q = quantize (exactNum ℝ) x L s ∧ p = 1 / 2 ∧ 1 / 2 < s := by
  obtain ⟨k, _, hk, _, _, _, hp⟩ := grid_spec (L := 3) (m := 1) (x := 1 / 2) le_rfl (by norm_num) (by norm_num)
    (by norm_num)
  have h0 : ⌊(1 / 2 : ℝ) * ((1 : ℕ) : ℝ)⌋ = 0 := by norm_num
  refine ⟨3, 1 / 2, 1, _, _, _, _, by norm_num, le_rfl, by norm_num, by norm_num, by norm_num, le_rfl, rfl, rfl, rfl, rfl,
    ?_, by norm_num⟩
  rw [hp, hk, h0]; norm_num

theorem witness_GammaRoundTrip : (∃ cfg : Config ℝ, ReferenceConfig cfg) ∧ (0 : ℝ) < 1 / 10 :=
  ⟨reference_config, by norm_num⟩

theorem witness_OnePoleClosedForm : (∃ cfg : Config ℝ, ReferenceConfig cfg) ∧ (0 : ℝ) < 5 / 10000 ∧ (0 : ℝ) < 48000 ∧
    (0 : ℝ) ≤ 1 / 25 ∧ (1 / 25 : ℝ) ≤ 1 ∧ (0 : ℝ) < 1 / 2 ∧ (1 / 2 : ℝ) ≤ 1 / 2 := ⟨reference_config, by norm_num⟩

theorem witness_LevelMovesTowardTarget : (∃ cfg : Config ℝ, ReferenceConfig cfg) ∧
    (∃ f : Follower ℝ, 0 ≤ f.atk ∧ f.atk ≤ 1 ∧ 0 ≤ f.rel ∧ f.rel ≤ 1) ∧ (0 : ℝ) < 5 / 100 ∧ (0 : ℝ) < 48000 :=
  ⟨reference_config, ⟨{ env := 1, atk := 0, rel := 1 }, by norm_num⟩, by norm_num⟩

theorem witness_ReferenceGainRange : (∃ cfg : Config ℝ, ReferenceConfig cfg) ∧
    (∃ f : Follower ℝ, 0 ≤ f.env ∧ f.env ≤ 1 ∧ 0 ≤ f.atk ∧ f.atk ≤ 1 ∧ 0 ≤ f.rel ∧ f.rel ≤ 1) ∧ |(-1 : ℝ)| ≤ 1 :=
  ⟨reference_config, ⟨{ env := 1, atk := 0, rel := 1 }, by norm_num⟩, by norm_num⟩

theorem witness_NamedZxInstancesConform : (∃ zx, zx = zxId (exactNum ℝ)) ∧ (∃ zx, zx = zxRef (exactNum ℝ)) ∧
    ZxDomain (exactNum ℝ) (1 / 20) 15 1 ∧ ZxDomain (exactNum ℝ) 0 65535 (1 / 2) := by
  refine ⟨⟨_, rfl⟩, ⟨_, rfl⟩, ⟨?_, ⟨4, by norm_num⟩, ?_⟩, ⟨?_, ⟨16, by norm_num⟩, ?_⟩⟩ <;>
    rw [exact_within] <;> norm_num

theorem witness_BitDepthContinuity : (1 ≤ 15 ∧ (0 : ℝ) ≤ 1 ∧ (1 : ℝ) ≤ 1) ∧ 2 ≤ 2 ∧ (-1 : ℝ) ≤ -1 ∧ (-1 : ℝ) ≤ 1 := by
  norm_num

/-- A sample below zero on a soft grid, and one above zero. -/
theorem witness_CrushModesAgree : ∃ (cfg : Config ℝ) (P : Snapshot ℝ) (w : ℝ), cfg.zx = zxId (exactNum ℝ) ∧
    1 ≤ P.bitDepth ∧ P.bitDepth ≤ 16 ∧ 0 ≤ P.smoothing ∧ P.smoothing ≤ 1 ∧ -1 ≤ w ∧ w ≤ 1 ∧ w < 0 ∧
    P.smoothing ≤ 1 / 2 :=
  ⟨{ reference_config.choose with zx := zxId (exactNum ℝ) },
    { bitDepth := 7 / 2, gammaParam := 0, smoothing := 1 / 2, gainDb := 0, autoGain := false, symmetric := false },
    -1, rfl, by norm_num⟩

theorem witness_SymmetricSignNeverOpposite : (∃ cfg : Config ℝ, ReferenceConfig cfg) ∧
    ∃ P : Snapshot ℝ, P.symmetric = true :=
  ⟨reference_config, { bitDepth := 4, gammaParam := 0, smoothing := 1, gainDb := 0, autoGain := true,
                       symmetric := true }, rfl⟩

theorem witness_SmoothingTransparency : (∃ cfg : Config ℝ, ReferenceConfig cfg) ∧ (-1 : ℝ) ≤ 3 / 10 ∧ (3 / 10 : ℝ) ≤ 1 ∧
    (1 / 32767 : ℝ) ≤ |3 / 10| := ⟨reference_config, by norm_num, by norm_num, by norm_num [abs_of_pos]⟩

theorem witness_ReferenceWorkedExamples : ∃ (cfg : Config ℝ), ReferenceConfig cfg := reference_config

end Sys2Proof.Tests
end

section
/-! SUPPORT. Rounding is to nearest, ties to even (00_scope.md R13): no finite word is nearer to `n / d` than
`roundVal n d`, which every binary32 operation gives. -/

namespace Sys2Proof.Machine

/-! ### Preference between two candidates -/

/-- Against the fraction `n / d`, rounding takes `v` rather than the rival `x`: `v` is no farther from it, and on a tie
between two values the bits of `v` are even. -/
def PreferredTo (v x n : Int) (d bits : Nat) : Prop :=
  |v * d - n| ≤ |x * d - n| ∧ (|v * d - n| = |x * d - n| → x ≠ v → bits % 2 = 0)

theorem nearestTo_iff {v : Word} {n : Int} {d : Nat} : NearestTo v n d ↔
    fIsNaN v = false ∧ ∀ w, fIsFinite w = true → PreferredTo (fVal v) (fVal w) n d (magBits v) := Iff.rfl

namespace PreferredTo

variable {v x n : Int} {d bits : Nat}

theorem of_lt (h : |v * d - n| < |x * d - n|) : PreferredTo v x n d bits := ⟨h.le, fun e => absurd e h.ne⟩

theorem neg (h : PreferredTo v x n d bits) : PreferredTo (-v) (-x) (-n) d bits := by
  have mirror (a : Int) : |-a * d - -n| = |a * d - n| := by rw [← abs_neg]; congr 1; ring
  unfold PreferredTo
  rw [mirror, mirror]
  exact ⟨h.1, fun e hne => h.2 e (by simpa using hne)⟩

/-- A common factor of the candidates may stand with the denominator. -/
theorem scale {a j : Int} (c : Nat) (h : PreferredTo a j n (d * c) bits) : PreferredTo (a * c) (j * c) n d bits := by
  have factor (b : Int) : b * c * d = b * ((d * c : Nat) : Int) := by push_cast; ring
  unfold PreferredTo
  rw [factor, factor]
  exact ⟨h.1, fun e hne => h.2 e (by rintro rfl; exact hne rfl)⟩

/-- What is preferred to zero and to `x` is preferred to `-x` too, which lies on the other side of zero. -/
theorem neg_rival (hd : 0 < d) (hv : 0 ≤ v) (hx : 0 ≤ x) (hn : 0 ≤ n) (h0 : PreferredTo v 0 n d bits)
    (h : PreferredTo v x n d bits) : PreferredTo v (-x) n d bits := by
  have hd' : (0 : Int) < d := by exact_mod_cast hd
  have hvd : 0 ≤ v * d := by positivity
  have hxd : 0 ≤ x * d := by positivity
  have h0' : |v * d - n| ≤ n := by simpa [abs_of_nonneg hn] using h0.1
  have far : |-x * d - n| = x * d + n := by rw [← abs_neg, abs_of_nonneg] <;> linarith
  have near : |x * d - n| ≤ x * d + n := abs_le.2 ⟨by linarith, by linarith⟩
  refine ⟨far ▸ h.1.trans near, fun e hne => h.2 (le_antisymm h.1 (by rw [e, far]; exact near)) ?_⟩
  -- were `x = v`, the tie would leave no distance between `x` and `-x`
  rintro rfl
  rw [far] at e
  have hx0 : x * d = 0 := by
    rcases abs_cases (x * d - n) with ⟨e', _⟩ | ⟨e', _⟩ <;> rw [e'] at e h0' <;> linarith
  rcases mul_eq_zero.1 hx0 with rfl | hd0
  · exact hne rfl
  · exact hd'.ne' hd0

end PreferredTo

/-! ### Rounding a magnitude is nearest -/

/-- `roundHalfEven` is off by at most half a unit, and by exactly half only at an even integer. -/
theorem roundHalfEven_error (n : Nat) {d : Nat} (hd : 0 < d) :
    2 * |(roundHalfEven n d * d - n : Int)| ≤ d ∧
      (2 * |(roundHalfEven n d * d - n : Int)| = d → roundHalfEven n d % 2 = 0) := by
  have hn : (n : Int) = (n / d : Nat) * d + (n % d : Nat) := by exact_mod_cast (Nat.div_add_mod' n d).symm
  have hr := Nat.mod_lt n hd
  unfold roundHalfEven
  dsimp only
  generalize n / d = q at *
  generalize n % d = r at *
  have up : ((q + 1 : Nat) : Int) * d - n = d - r := by rw [hn]; push_cast; ring
  have down : (q : Int) * d - n = -r := by rw [hn]; ring
  split_ifs with h1 h2
  · rw [down, abs_neg, Nat.abs_cast]; omega
  · rw [up, abs_of_nonneg (by omega)]; omega
  · rcases Nat.mod_two_eq_zero_or_one q with h | h <;> rw [h]
    · rw [add_zero, down, abs_neg, Nat.abs_cast]; omega
    · rw [up, abs_of_nonneg (by omega)]; omega

/-- `roundHalfEven` gives the nearest integer, the even one on a tie: any other integer is a whole `d` away from it. -/
theorem roundHalfEven_preferred (n : Nat) {d : Nat} (hd : 0 < d) (j : Nat) :
    PreferredTo (roundHalfEven n d) j n d (roundHalfEven n d) := by
  obtain ⟨herr, heven⟩ := roundHalfEven_error n hd
  generalize roundHalfEven n d = h at *
  rcases eq_or_ne j h with rfl | hne
  · exact ⟨le_rfl, fun _ hne => absurd rfl hne⟩
  · have apart : (d : Int) ≤ |(j : Int) - h| * d :=
      le_mul_of_one_le_left (by positivity) (Int.one_le_abs (by omega))
    have triangle : |(j : Int) - h| * d ≤ |(j * d - n : Int)| + |(h * d - n : Int)| := by
      rw [← Nat.abs_cast d, ← abs_mul, Nat.abs_cast]
      simpa [sub_mul] using abs_sub (j * d - n : Int) (h * d - n)
    exact ⟨by linarith, fun e _ => heven (le_antisymm herr (by linarith))⟩

/-- What `roundMag` computes: `k` bits are dropped, so that the rounded significand has 24 bits, fewer only where none
is dropped. -/
theorem roundMag_eq (n : Nat) {d : Nat} (hd : 0 < d) : ∃ k, (k = 0 ∨ 2 ^ 23 * (d * 2 ^ k) ≤ n) ∧
    n < 2 ^ 24 * (d * 2 ^ k) ∧ roundMag n d = min (k * 2 ^ 23 + roundHalfEven n (d * 2 ^ k)) infBits := by
  refine ⟨(n / d).log2 - 23, ?_, ?_, rfl⟩
  · rcases drop_cases (n / d) with ⟨hk, _⟩ | ⟨_, hlo, _⟩
    · exact .inl hk
    · exact .inr (by have := (Nat.le_div_iff_mul_le hd).1 hlo; linarith)
  · rcases drop_cases (n / d) with ⟨hk, hup⟩ | ⟨_, _, hup⟩
    · rw [hk]; have := (Nat.div_lt_iff_lt_mul hd).1 hup; linarith
    · have := (Nat.div_lt_iff_lt_mul hd).1 hup; linarith

/-- The magnitude whose significand is `h`, a carry out of its 24 bits included. -/
theorem magVal_significand {k h : Nat} (hlo : k = 0 ∨ 2 ^ 23 ≤ h) (hhi : h ≤ 2 ^ 24) :
    magVal (k * 2 ^ 23 + h) = h * 2 ^ k := by
  rcases hhi.lt_or_eq with hlt | rfl
  · rcases hlo with rfl | hlo
    · simpa using magVal_small hlt
    · exact magVal_scaled hlo hlt
  · have := magVal_scaled (k := k + 1) (s := 2 ^ 23) le_rfl (by norm_num)
    rw [show k * 2 ^ 23 + 2 ^ 24 = (k + 1) * 2 ^ 23 + 2 ^ 23 by ring, this, pow_succ]; ring

/-- From `2^(23 + k)` on, every magnitude is a multiple of `2^k`. -/
theorem magVal_lt_or_dvd (m k : Nat) : magVal m < 2 ^ 23 * 2 ^ k ∨ ∃ j, magVal m = j * 2 ^ k := by
  have hf : m % 2 ^ 23 < 2 ^ 23 := Nat.mod_lt _ (by norm_num)
  unfold magVal
  split
  · exact .inl (lt_of_lt_of_le (by omega) (Nat.le_mul_of_pos_right _ (by positivity)))
  · rcases Nat.lt_or_ge (m / 2 ^ 23 - 1) k with hk | hk
    · left
      calc (2 ^ 23 + m % 2 ^ 23) * 2 ^ (m / 2 ^ 23 - 1) < 2 ^ 24 * 2 ^ (m / 2 ^ 23 - 1) :=
            Nat.mul_lt_mul_of_pos_right (by omega) (by positivity)
        _ = 2 ^ 23 * 2 ^ (m / 2 ^ 23 - 1 + 1) := by rw [pow_succ]; ring
        _ ≤ 2 ^ 23 * 2 ^ k := Nat.mul_le_mul_left _ (Nat.pow_le_pow_right (by norm_num) hk)
    · right
      refine ⟨(2 ^ 23 + m % 2 ^ 23) * 2 ^ (m / 2 ^ 23 - 1 - k), ?_⟩
      rw [mul_assoc, ← pow_add, Nat.sub_add_cancel hk]

/-- Rounding to a 24-bit significand is nearest among all magnitudes: a rival on the same grid loses to `roundHalfEven`,
one below the grid loses to the grid's least value. -/
theorem significand_preferred {n d k : Nat} (hd : 0 < d) (hk : k = 0 ∨ 2 ^ 23 * (d * 2 ^ k) ≤ n) (m : Nat) :
    PreferredTo (roundHalfEven n (d * 2 ^ k) * 2 ^ k : Nat) (magVal m) n d (roundHalfEven n (d * 2 ^ k)) := by
  have hD : 0 < d * 2 ^ k := by positivity
  have onGrid (j : Nat) : PreferredTo (roundHalfEven n (d * 2 ^ k) * 2 ^ k : Nat) (j * 2 ^ k : Nat) n d
      (roundHalfEven n (d * 2 ^ k)) := by
    simpa using (roundHalfEven_preferred n hD j).scale (2 ^ k)
  rcases magVal_lt_or_dvd m k with hlt | ⟨j, hj⟩
  · rcases hk with rfl | hk
    · simpa using onGrid (magVal m)
    · have least := (onGrid (2 ^ 23)).1
      have hle : ((2 ^ 23 * 2 ^ k : Nat) : Int) * d ≤ n := by exact_mod_cast (by linarith)
      have hlt' : (magVal m : Int) * d < ((2 ^ 23 * 2 ^ k : Nat) : Int) * d := by
        exact_mod_cast Nat.mul_lt_mul_of_pos_right hlt hd
      refine .of_lt (least.trans_lt ?_)
      rw [abs_of_nonpos (by linarith), abs_of_neg (by linarith)]
      linarith
  · rw [hj]; exact onGrid j

/-- `roundMag` gives the magnitude nearest to `n / d` among all finite ones, with even bits on a tie. -/
theorem roundMag_preferred (n : Nat) {d : Nat} (hd : 0 < d) {m : Nat} (hm : m < infBits) :
    PreferredTo (magVal (roundMag n d)) (magVal m) n d (roundMag n d) := by
  obtain ⟨k, hlo, hhi, hr⟩ := roundMag_eq n hd
  have hD : 0 < d * 2 ^ k := by positivity
  have hpref := significand_preferred hd hlo m
  have hup : roundHalfEven n (d * 2 ^ k) ≤ 2 ^ 24 := roundHalfEven_le hD hhi.le
  have hdn : k = 0 ∨ 2 ^ 23 ≤ roundHalfEven n (d * 2 ^ k) := hlo.imp_right (le_roundHalfEven hD)
  have hinf : infBits = 255 * 2 ^ 23 := by decide
  rw [hr]
  generalize roundHalfEven n (d * 2 ^ k) = h at *
  rcases Nat.lt_or_ge infBits (k * 2 ^ 23 + h) with hover | hfit
  · -- overflow: the fraction is not below the infinity's value, and every finite magnitude is
    rw [min_eq_right hover.le]
    have hk : 254 ≤ k := by omega
    have hn : ((magVal infBits : Nat) : Int) * d ≤ n := by
      rw [magVal_inf]
      have hbig : 2 ^ 23 * (d * 2 ^ k) ≤ n := hlo.resolve_left (by omega)
      have hpow : 2 ^ 254 ≤ 2 ^ k := Nat.pow_le_pow_right (by norm_num) hk
      have : 2 ^ 23 * (d * 2 ^ 254) ≤ n := (Nat.mul_le_mul_left _ (Nat.mul_le_mul_left _ hpow)).trans hbig
      exact_mod_cast (by linarith)
    have hlt : (magVal m : Int) * d < (magVal infBits : Int) * d := by
      exact_mod_cast Nat.mul_lt_mul_of_pos_right (magVal_lt_of_lt hm le_rfl) hd
    refine .of_lt ?_
    rw [abs_of_nonpos (by linarith), abs_of_neg (by linarith)]
    linarith
  · rw [min_eq_left hfit, magVal_significand hdn hup]
    exact ⟨hpref.1, fun e hne => by have := hpref.2 e hne; omega⟩

/-! ### Every operator is nearest -/

theorem nearestTo_fNeg {v : Word} {n : Int} {d : Nat} (h : NearestTo (fNeg v) (-n) d) : NearestTo v n d := by
  obtain ⟨hv, hall⟩ := nearestTo_iff.1 h
  refine nearestTo_iff.2 ⟨by simpa using hv, fun w hw => ?_⟩
  simpa using (hall (fNeg w) (by simpa using hw)).neg

theorem nearestTo_of_nonneg {v : Word} {n d : Nat} (hd : 0 < d) (hn : fIsNaN v = false)
    (hv : fVal v = roundVal n d) : NearestTo v n d := by
  have hv' : fVal v = magVal (roundMag n d) := by
    rw [hv, roundVal, if_neg (by omega), Int.natAbs_natCast]
  have hbits : magBits v = roundMag n d :=
    magVal_inj (notNaN_le hn) (roundMag_le_inf n d) (by rw [← fVal_natAbs, hv', Int.natAbs_natCast])
  refine nearestTo_iff.2 ⟨hn, fun w hw => ?_⟩
  have hw' : magBits w < infBits := by simpa [fIsFinite] using hw
  rw [hv', hbits]
  have hpos := roundMag_preferred n hd hw'
  have hzero := roundMag_preferred n hd (m := 0) (by decide)
  rw [magVal_zero] at hzero
  unfold fVal
  split
  · exact PreferredTo.neg_rival hd (by positivity) (by positivity) (by positivity) hzero hpos
  · exact hpos

/-- A word of value `roundVal n d` is the binary32 nearest to `n / d`. -/
theorem nearestTo_of_roundVal {v : Word} {n : Int} {d : Nat} (hd : 0 < d)
    (h : fIsNaN v = false ∧ fVal v = roundVal n d) : NearestTo v n d := by
  obtain ⟨hn, hv⟩ := h
  rcases Int.eq_nat_or_neg n with ⟨a, rfl | rfl⟩
  · exact nearestTo_of_nonneg hd hn hv
  · refine nearestTo_fNeg ?_
    rw [neg_neg]
    exact nearestTo_of_nonneg hd (by simpa using hn) (by rw [fVal_fNeg, hv, roundVal_neg, neg_neg])

end Sys2Proof.Machine
end

section
/-! SUPPORT. The machine's open functions have the named properties, whatever the raw functions are (00_scope.md R15,
43_bitcrusher_channel.md R135). -/

namespace Sys2Proof.Machine

/-! ### Values and ranges, by word -/

theorem sameValue_self {a : Word} (h : fIsNaN a = false) : sameValue b32 a a = true := sameValue_iff.2 ⟨h, h, rfl⟩

theorem sameValue_symm {a b : Word} (h : sameValue b32 a b = true) : sameValue b32 b a = true := by
  obtain ⟨ha, hb, hv⟩ := sameValue_iff.1 h
  exact sameValue_iff.2 ⟨hb, ha, hv.symm⟩

theorem sameValue_trans {a b c : Word} (h : sameValue b32 a b = true) (h' : sameValue b32 b c = true) :
    sameValue b32 a c = true := by
  obtain ⟨ha, _, hv⟩ := sameValue_iff.1 h
  obtain ⟨_, hc, hv'⟩ := sameValue_iff.1 h'
  exact sameValue_iff.2 ⟨ha, hc, hv.trans hv'⟩

/-- Comparing by `≤` reads values only. -/
theorem fLe_congr {a a' b b' : Word} (ha : sameValue b32 a a' = true) (hb : sameValue b32 b b' = true) :
    fLe a b = fLe a' b' := by
  obtain ⟨ha, ha', hva⟩ := sameValue_iff.1 ha
  obtain ⟨hb, hb', hvb⟩ := sameValue_iff.1 hb
  simp [fLe, ha, ha', hb, hb', hva, hvb]

theorem sameValue_zero_iff {v : Word} : sameValue b32 v (toF b32 0) = true ↔ fIsZero v = true := by
  rw [sameValue_iff, b32_toF, fLit_zero, fVal_zero]
  exact ⟨fun ⟨hn, _, hv⟩ => (isZero_iff hn).2 hv,
    fun h => ⟨notNaN_of_isZero h, notNaN_zero, fVal_of_isZero h⟩⟩

theorem sameValue_one_iff {v : Word} : sameValue b32 v (toF b32 1) = true ↔ fEq v (fLit 1 1) = true := by
  rw [sameValue_iff, b32_toF]
  exact ⟨fun ⟨hn, ho, hv⟩ => (fEq_iff hn ho).2 hv, fEq_dest⟩

theorem toF_zero_le_iff {v : Word} : b32.le (toF b32 0) v = true ↔ fIsNaN v = false ∧ 0 ≤ fVal v := by
  rw [b32_le, b32_toF, fLit_zero, ← fVal_zero]
  exact ⟨fun h => (fLe_dest h).2, fun ⟨hn, hv⟩ => (fLe_iff notNaN_zero hn).2 hv⟩

theorem le_toF_zero_iff {v : Word} : b32.le v (toF b32 0) = true ↔ fIsNaN v = false ∧ fVal v ≤ 0 := by
  rw [b32_le, b32_toF, fLit_zero, ← fVal_zero]
  exact ⟨fun h => ⟨(fLe_dest h).1, (fLe_dest h).2.2⟩, fun ⟨hn, hv⟩ => (fLe_iff hn notNaN_zero).2 hv⟩

theorem toF_zero_lt_iff {v : Word} : b32.lt (toF b32 0) v = true ↔ fIsNaN v = false ∧ 0 < fVal v := by
  rw [b32_lt, b32_toF, fLit_zero, ← fVal_zero]
  exact ⟨fun h => (fLt_dest h).2, fun ⟨hn, hv⟩ => (fLt_iff notNaN_zero hn).2 hv⟩

/-- `[0, 1]` as the named properties write it. -/
theorem within_unit_iff {v : Word} : within b32 v (toF b32 0) (toF b32 1) = true ↔ inUnit v = true := by
  simp only [within, inUnit, b32_le, b32_toF, fLit_zero]

theorem finite_of_abs_le {v c : Word} (hn : fIsNaN v = false) (hc : fIsFinite c = true) (h : |fVal v| ≤ |fVal c|) :
    fIsFinite v = true := (finite_iff hn).2 (h.trans_lt (abs_fVal_lt hc))

/-- The low 31 bits of words that are no NaN order as the magnitudes. -/
theorem magBits_le_iff {a b : Word} (ha : fIsNaN a = false) (hb : fIsNaN b = false) :
    magBits a ≤ magBits b ↔ |fVal a| ≤ |fVal b| := by
  rw [← Int.natCast_natAbs, ← Int.natCast_natAbs, fVal_natAbs, fVal_natAbs, Int.ofNat_le]
  refine ⟨fun h => magVal_le_of_le h (notNaN_le hb), fun h => ?_⟩
  by_contra hc
  exact absurd (magVal_lt_of_lt (not_le.1 hc) (notNaN_le ha)) (not_lt.2 h)

theorem fVal_nonneg_of_signBit {v : Word} (h : signBit v = false) : 0 ≤ fVal v := by simp [fVal, h]

theorem fVal_nonpos_of_signBit {v : Word} (h : signBit v = true) : fVal v ≤ 0 := by simp [fVal, h]

/-- A word above zero has its sign bit clear. -/
theorem signBit_of_pos {v : Word} (h : 0 < fVal v) : signBit v = false := by
  by_contra hs
  exact absurd (fVal_nonpos_of_signBit (by simpa using hs)) (not_le.2 h)

/-- A word below zero has its sign bit set. -/
theorem signBit_of_neg {v : Word} (h : fVal v < 0) : signBit v = true := by
  by_contra hs
  exact absurd (fVal_nonneg_of_signBit (by simpa using hs)) (not_le.2 h)

/-- `limitTo` leaves a value of the range alone. -/
theorem limitTo_of_within {v lo hi : Word} (h : within b32 v lo hi = true) : limitTo v lo hi = v := by
  obtain ⟨hlo, hhi⟩ : fLe lo v = true ∧ fLe v hi = true := by simpa [within] using h
  obtain ⟨hnlo, hnv, hlov⟩ := fLe_dest hlo
  obtain ⟨_, hnhi, hvhi⟩ := fLe_dest hhi
  simp [limitTo, clampP, hnv, fLt, not_lt.2 hlov, not_lt.2 hvhi]

/-! ### Running along the magnitudes: monotone, and no change to what is monotone -/

theorem runMax_mono {f : Nat → Word} (h : ∀ k, fIsNaN (f k) = false) {m m' : Nat} (hm : m ≤ m') :
    fLe (runMax f m) (runMax f m') = true := by
  obtain ⟨hn, _, k, hk, he⟩ := runMax_spec (m := m) fun k _ => h k
  obtain ⟨hn', hle, _⟩ := runMax_spec (m := m') fun k _ => h k
  rw [fLe_iff hn hn', he]
  exact hle k (hk.trans hm)

theorem runMin_antitone {f : Nat → Word} (h : ∀ k, fIsNaN (f k) = false) {m m' : Nat} (hm : m ≤ m') :
    fLe (runMin f m') (runMin f m) = true := by
  obtain ⟨hn, _, k, hk, he⟩ := runMin_spec (m := m) fun k _ => h k
  obtain ⟨hn', hle, _⟩ := runMin_spec (m := m') fun k _ => h k
  rw [fLe_iff hn' hn, he]
  exact hle k (hk.trans hm)

/-- Where `f` has the values of `g` and `g m` is greatest, running up gives the value of `g m`. -/
theorem runMax_sameValue {f g : Nat → Word} {m : Nat} (hfg : ∀ k ≤ m, sameValue b32 (f k) (g k) = true)
    (hg : ∀ k ≤ m, fLe (g k) (g m) = true) : sameValue b32 (runMax f m) (g m) = true := by
  obtain ⟨hn, hle, k, hk, he⟩ := runMax_spec (f := f) (m := m) fun k hk => (sameValue_iff.1 (hfg k hk)).1
  obtain ⟨_, hgm, hvm⟩ := sameValue_iff.1 (hfg m le_rfl)
  obtain ⟨_, _, hvk⟩ := sameValue_iff.1 (hfg k hk)
  refine sameValue_iff.2 ⟨hn, hgm, le_antisymm ?_ (hvm ▸ hle m le_rfl)⟩
  rw [he, hvk]
  exact (fLe_dest (hg k hk)).2.2

/-- Where `f` has the values of `g` and `g m` is least, running down gives the value of `g m`. -/
theorem runMin_sameValue {f g : Nat → Word} {m : Nat} (hfg : ∀ k ≤ m, sameValue b32 (f k) (g k) = true)
    (hg : ∀ k ≤ m, fLe (g m) (g k) = true) : sameValue b32 (runMin f m) (g m) = true := by
  obtain ⟨hn, hle, k, hk, he⟩ := runMin_spec (f := f) (m := m) fun k hk => (sameValue_iff.1 (hfg k hk)).1
  obtain ⟨_, hgm, hvm⟩ := sameValue_iff.1 (hfg m le_rfl)
  obtain ⟨_, _, hvk⟩ := sameValue_iff.1 (hfg k hk)
  refine sameValue_iff.2 ⟨hn, hgm, le_antisymm (hvm ▸ hle m le_rfl) ?_⟩
  rw [he, hvk]
  exact (fLe_dest (hg k hk)).2.2

/-! ### `POW` -/

section Pow
variable {raw : Word → Word → Word} {b e : Word}

theorem powOf_of_isZero (hb : fIsZero b = true) : powOf raw b e = 0#32 := if_pos hb

theorem not_isZero_of_eq_one (h : fEq b (fLit 1 1) = true) : ¬ fIsZero b = true := fun hz => by
  have := (fEq_dest h).2.2
  rw [fVal_of_isZero hz, fVal_one] at this
  exact absurd this (by norm_num)

theorem powOf_of_eq_one (hb : fEq b (fLit 1 1) = true) : powOf raw b e = fLit 1 1 := by
  rw [powOf, if_neg (not_isZero_of_eq_one hb), if_pos hb]

/-- The exponent 1 keeps the base (00_scope.md R15, [POW-id]). -/
theorem powOf_exponent_one (hb : fIsNaN b = false) (he : fEq e (fLit 1 1) = true) :
    sameValue b32 (powOf raw b e) b = true := by
  by_cases hz : fIsZero b = true
  · rw [powOf_of_isZero hz, ← fLit_zero]
    exact sameValue_symm (sameValue_zero_iff.2 hz)
  · by_cases ho : fEq b (fLit 1 1) = true
    · rw [powOf_of_eq_one ho]
      exact sameValue_symm (sameValue_one_iff.2 ho)
    · rw [powOf, if_neg hz, if_neg ho, if_pos he]
      exact sameValue_self hb

/-- With another exponent the power is the value the run along the bases reaches, at the bases 0 and 1 too. -/
theorem powOf_sameValue_runMax (hb : fIsNaN b = false) (h0 : 0 ≤ fVal b) (he : ¬ fEq e (fLit 1 1) = true) :
    sameValue b32 (powOf raw b e) (runMax (powAt raw e) (magBits b)) = true := by
  obtain ⟨hn, hle, k, hk, hrun⟩ := runMax_spec (f := powAt raw e) (m := magBits b) fun k _ => (powAt_spec raw e k).1
  by_cases hz : fIsZero b = true
  · rw [powOf_of_isZero hz, show magBits b = 0 by simpa [fIsZero] using hz]
    exact sameValue_self notNaN_zero
  · by_cases ho : fEq b (fLit 1 1) = true
    · rw [powOf_of_eq_one ho]
      have hb1 : b = fLit 1 1 := eq_of_fVal_eq hb notNaN_one (fEq_dest ho).2.2 (by
        rw [(fEq_dest ho).2.2, fVal_one]; norm_num)
      subst hb1
      -- the run ends at the power 1 of the base 1, which no power of a smaller base exceeds
      have hlast : powAt raw e (magBits (fLit 1 1)) = fLit 1 1 := by
        rw [powAt, if_neg (by decide +kernel), if_neg (lt_irrefl _), if_pos rfl]
      have hup := (powAt_spec raw e k).2.2.2 hk
      have hlo := hle _ le_rfl
      rw [hlast] at hlo
      refine sameValue_iff.2 ⟨notNaN_one, hn, le_antisymm hlo ?_⟩
      rw [hrun, fVal_one]; exact hup
    · rw [powOf, if_neg hz, if_neg ho, if_neg he]
      exact sameValue_self hn

theorem powOf_named (raw : Word → Word → Word) : PowNamed b32 (powOf raw) where
  zero b e hb _ := by
    rw [powOf_of_isZero (sameValue_zero_iff.1 hb), ← fLit_zero]
    exact sameValue_zero_iff.2 (by decide +kernel)
  one b e hb _ := by
    rw [powOf_of_eq_one (sameValue_one_iff.1 hb)]
    exact sameValue_self notNaN_one
  id b e hb he := powOf_exponent_one (toF_zero_le_iff.1 hb).1 (sameValue_one_iff.1 he)
  range b e hb _ := within_unit_iff.2 (powOf_unit raw e (within_unit_iff.1 hb))
  finite b e hf hb _ := (powOf_spec raw e hf (toF_zero_le_iff.1 hb).2).1

/-- [POW-mono] (00_scope.md R15). -/
theorem powOf_mono (raw : Word → Word → Word) : PowMono b32 (powOf raw) := by
  intro b₁ b₂ e h0 hle _
  obtain ⟨hn₁, h0₁⟩ := toF_zero_le_iff.1 h0
  obtain ⟨_, hn₂, hv⟩ := fLe_dest hle
  by_cases he : fEq e (fLit 1 1) = true
  · rw [b32_le, fLe_congr (powOf_exponent_one hn₁ he) (powOf_exponent_one hn₂ he)]
    exact hle
  · rw [b32_le, fLe_congr (powOf_sameValue_runMax hn₁ h0₁ he) (powOf_sameValue_runMax hn₂ (h0₁.trans hv) he)]
    refine runMax_mono (fun k => (powAt_spec raw e k).1) ((magBits_le_iff hn₁ hn₂).2 ?_)
    rw [abs_of_nonneg h0₁, abs_of_nonneg (h0₁.trans hv)]
    exact hv

end Pow

/-! ### `EXP10` -/

section Exp10
variable {raw : Word → Word} {v : Word}

theorem exp10Of_of_isZero (h : fIsZero v = true) : exp10Of raw v = fLit 1 1 := if_pos h

/-- Where the sign bit is clear, `EXP10` is the run up from 0. -/
theorem exp10Of_of_signBit_clear (h : signBit v = false) : exp10Of raw v = runMax (exp10Above raw) (magBits v) := by
  by_cases hz : fIsZero v = true
  · rw [exp10Of_of_isZero hz, show magBits v = 0 by simpa [fIsZero] using hz]; rfl
  · rw [exp10Of, if_neg hz, if_neg (by simp [h])]

/-- Where the sign bit is set, `EXP10` is the run down from 0. -/
theorem exp10Of_of_signBit_set (h : signBit v = true) : exp10Of raw v = runMin (exp10Below raw) (magBits v) := by
  by_cases hz : fIsZero v = true
  · rw [exp10Of_of_isZero hz, show magBits v = 0 by simpa [fIsZero] using hz]; rfl
  · rw [exp10Of, if_neg hz, if_pos h]

theorem exp10Of_named (raw : Word → Word) : Exp10Named b32 (exp10Of raw) where
  zero v hv := by
    rw [exp10Of_of_isZero (sameValue_zero_iff.1 hv)]
    exact sameValue_self notNaN_one
  range v _ := by
    obtain ⟨hn, hlo, hhi, _⟩ := exp10Of_spec raw v
    have hpos := tenth_pos.trans_le hlo
    refine ⟨(within_iff notNaN_tenth notNaN_ten).2 ⟨hn, hlo, hhi⟩,
      finite_of_abs_le hn (fLit_int (n := 10) (by decide)).2.1 ?_⟩
    rw [abs_of_pos hpos, abs_of_pos (hpos.trans_le hhi)]
    exact hhi

/-- [EXP10-mono] (00_scope.md R15): each side of 0 by its run, and 1 between them. -/
theorem exp10Of_mono (raw : Word → Word) : Exp10Mono b32 (exp10Of raw) := by
  intro v₁ v₂ hle
  obtain ⟨hn₁, hn₂, hv⟩ := fLe_dest hle
  obtain ⟨ho₁, _, _, habove₁, hbelow₁⟩ := exp10Of_spec raw v₁
  obtain ⟨ho₂, _, _, habove₂, hbelow₂⟩ := exp10Of_spec raw v₂
  rw [b32_le]
  cases hs₁ : signBit v₁ <;> cases hs₂ : signBit v₂
  · rw [exp10Of_of_signBit_clear hs₁, exp10Of_of_signBit_clear hs₂]
    refine runMax_mono (fun k => (exp10Above_spec raw k).1) ((magBits_le_iff hn₁ hn₂).2 ?_)
    rwa [abs_of_nonneg (fVal_nonneg_of_signBit hs₁), abs_of_nonneg (fVal_nonneg_of_signBit hs₂)]
  · -- only the two zeros are ordered so
    have h₁ := fVal_nonneg_of_signBit hs₁
    have h₂ := fVal_nonpos_of_signBit hs₂
    rw [exp10Of_of_isZero ((isZero_iff hn₁).2 (by omega)), exp10Of_of_isZero ((isZero_iff hn₂).2 (by omega))]
    exact (fLe_iff notNaN_one notNaN_one).2 le_rfl
  · exact (fLe_iff ho₁ ho₂).2 ((hbelow₁ hs₁).trans (habove₂ hs₂))
  · rw [exp10Of_of_signBit_set hs₁, exp10Of_of_signBit_set hs₂]
    refine runMin_antitone (fun k => (exp10Below_spec raw k).1) ((magBits_le_iff hn₂ hn₁).2 ?_)
    rw [abs_of_nonpos (fVal_nonpos_of_signBit hs₁), abs_of_nonpos (fVal_nonpos_of_signBit hs₂)]
    omega

end Exp10

/-! ### `EXP` -/

section Exp
variable {raw : Word → Word} {v : Word}

theorem expOf_of_isZero (h : fIsZero v = true) : expOf raw v = fLit 1 1 := if_pos h

/-- An operand up to 0 that is not finite is `−∞`, with the power 0. -/
theorem expOf_of_not_finite (hn : fIsNaN v = false) (h0 : fVal v ≤ 0) (hf : fIsFinite v = false) :
    expOf raw v = 0#32 := by
  have hz : ¬ fIsZero v = true := fun hz => by simp [finite_of_isZero hz] at hf
  have hs : signBit v = true := signBit_of_neg (lt_of_le_of_ne h0 fun h => hz ((isZero_iff hn).2 h))
  have hi : fIsInf v = true := by
    have := notNaN_le hn
    simp only [fIsFinite, decide_eq_false_iff_not] at hf
    simp only [fIsInf, beq_iff_eq]; omega
  rw [expOf, if_neg hz, if_pos (by simp [hi, hs])]

/-- An operand below 0 and finite gives the raw power limited to `[0, 1]`. -/
theorem expOf_of_neg (hf : fIsFinite v = true) (h0 : fVal v < 0) :
    expOf raw v = limitTo (raw v) 0#32 (fLit 1 1) := by
  have hn := notNaN_of_finite hf
  have hz : ¬ fIsZero v = true := fun hz => h0.ne (fVal_of_isZero hz)
  rw [expOf, if_neg hz, if_neg (by simp [notInf_of_finite hf]), if_pos]
  rw [fLt_iff hn notNaN_zero, fVal_zero]; exact h0

theorem expOf_named (raw : Word → Word) : ExpNamed b32 (expOf raw) where
  range v hv := by
    obtain ⟨hn, h0⟩ := le_toF_zero_iff.1 hv
    rw [within_unit_iff]
    rcases h0.lt_or_eq with hneg | hzero
    · exact expOf_unit raw (signBit_of_neg hneg) hn
    · rw [expOf_of_isZero ((isZero_iff hn).2 hzero)]; decide +kernel
  negInf v hv hf := by
    obtain ⟨hn, h0⟩ := le_toF_zero_iff.1 hv
    rw [expOf_of_not_finite hn h0 hf]
    exact sameValue_zero_iff.2 (by decide)
  zero v hv := by
    rw [expOf_of_isZero (sameValue_zero_iff.1 hv)]
    exact sameValue_self notNaN_one

end Exp

/-! ### `ZX` -/

section Zx
variable {raw : Word → Nat → Word → Word} {w s : Word} {L : Nat}

theorem zxOf_one : zxOf raw w 1 s = 0#32 := if_pos rfl

theorem zxOf_outside (hL : 3 ≤ L) (h : outsideZone b32 w L = true) : zxOf raw w L s = quantize b32 w L s := by
  rw [zxOf, if_neg (by omega), if_pos h]

theorem zxOf_inside (hL : 3 ≤ L) (h : outsideZone b32 w L = false) :
    zxOf raw w L s = limitTo (raw (plusZero w) L (plusZero s)) (fLit (-1) 1) (fLit 1 1) := by
  rw [zxOf, if_neg (by omega), if_neg (by simp [h])]

theorem within_full_bounded (h : within b32 w (toF b32 (-1)) (toF b32 1) = true) : Bounded 0 w := by
  obtain ⟨hn, hlo, hhi⟩ := within_dest h
  rw [b32_toF, fVal_negOne] at hlo
  rw [b32_toF, fVal_one] at hhi
  exact ⟨hn, abs_le.2 ⟨by simpa using hlo, by simpa using hhi⟩⟩

theorem zxOf_named (raw : Word → Nat → Word → Word) : ZxNamed b32 (zxOf raw) where
  one w s := by
    rw [zxOf_one]
    exact sameValue_zero_iff.2 (by decide)
  locality w L s hd hL ho := by
    obtain ⟨hw, hcount, hs⟩ := hd
    rw [zxOf_outside hL ho]
    exact sameValue_self (bounded_quantize (within_full_bounded hw) (inUnit_bounded (within_unit_iff.1 hs)) (.inr hL)
      hcount.bounds.2).1
  range w L s _ hL ho := by
    rw [zxOf_inside hL ho]
    have hlim := limitTo_spec (raw (plusZero w) L (plusZero s)) notNaN_negOne notNaN_one
      (by rw [fVal_negOne, fVal_one]; norm_num)
    have hin := (within_iff notNaN_negOne notNaN_one).2 hlim
    exact ⟨hin, (within_full_bounded hin).finite (by norm_num)⟩

end Zx

/-! ### The machine -/

/-- The machine's configuration has every named property (00_scope.md R15, 43_bitcrusher_channel.md R135). -/
theorem hw_conforms : ConfigConforms hw where
  pow := powOf_named Config.powRaw
  powMono := powOf_mono Config.powRaw
  exp := expOf_named Config.expRaw
  exp10 := exp10Of_named Config.exp10Raw
  exp10Mono := exp10Of_mono Config.exp10Raw
  zx := zxOf_named Config.zxRaw
  gainCeilFinite := hw_safe.gainCeil
  gainCeilAtLeastOne := by decide +kernel
  nanp lo hi h := by
    obtain ⟨hlo, hhi, hv⟩ := fLe_dest h
    exact (within_iff hlo hhi).2 (hw_safe.nanp lo hi hlo hhi hv)

end Sys2Proof.Machine
end

section
/-! SUPPORT. An open function that has the named properties keeps its values when they are imposed on it. -/

namespace Sys2Proof.Machine

/-! ### A conforming open function keeps its values -/

/-- Words with a clear sign bit order as their bits. -/
theorem fLe_ofSignMag_false {k m : Nat} (hkm : k ≤ m) (hm : m ≤ infBits) :
    fLe (ofSignMag false k) (ofSignMag false m) = true := by
  rw [fLe_iff (notNaN_ofSignMag _ (hkm.trans hm)) (notNaN_ofSignMag _ hm), fVal_ofSignMag _ (hkm.trans hm),
    fVal_ofSignMag _ hm]
  simpa using magVal_le_of_le hkm hm

/-- Words with a set sign bit order against their bits. -/
theorem fLe_ofSignMag_true {k m : Nat} (hkm : k ≤ m) (hm : m ≤ infBits) :
    fLe (ofSignMag true m) (ofSignMag true k) = true := by
  rw [fLe_iff (notNaN_ofSignMag _ hm) (notNaN_ofSignMag _ (hkm.trans hm)), fVal_ofSignMag _ (hkm.trans hm),
    fVal_ofSignMag _ hm]
  simpa using magVal_le_of_le hkm hm

theorem ofSignMag_false_zero : ofSignMag false 0 = 0#32 := by decide

theorem ofSignMag_false_one : ofSignMag false (magBits (fLit 1 1)) = fLit 1 1 := by decide +kernel

theorem magBits_one_le_inf : magBits (fLit 1 1) ≤ infBits := notNaN_le notNaN_one

theorem fVal_le_maxFinite {v : Word} (h : fIsFinite v = true) : fVal v ≤ fVal maxFinite := by
  have hbits : magBits v ≤ magBits maxFinite := by
    have : magBits maxFinite = infBits - 1 := by decide
    simp only [fIsFinite, decide_eq_true_eq] at h
    omega
  have habs := (magBits_le_iff (notNaN_of_finite h) notNaN_maxFinite).1 hbits
  have hpos : 0 ≤ fVal maxFinite := fVal_nonneg_of_signBit (by decide)
  exact (le_abs_self _).trans (habs.trans (abs_of_nonneg hpos).le)

/-- Limiting a value of the range keeps it. -/
theorem limitTo_sameValue {v lo hi : Word} (h : within b32 v lo hi = true) :
    sameValue b32 (limitTo v lo hi) v = true := by
  rw [limitTo_of_within h]
  exact sameValue_self (within_dest h).1

section PowKept
variable {raw : Word → Word → Word} {b e : Word}

/-- An exponent of the warp is above 0, as the named properties ask. -/
theorem warpExponent_pos (he : within b32 e (fLit 1 10) (fLit 10 1) = true) : b32.lt (toF b32 0) e = true :=
  toF_zero_lt_iff.2 ⟨(within_dest he).1, tenth_pos.trans_le (within_dest he).2.1⟩

/-- Before the run, `powAt` already has the values of a conforming `POW`. -/
theorem powAt_sameValue (hraw : PowNamed b32 raw) (hmono : PowMono b32 raw)
    (he : within b32 e (fLit 1 10) (fLit 10 1) = true) {m : Nat} (hm : m < infBits) :
    sameValue b32 (powAt raw e m) (raw (ofSignMag false m) e) = true := by
  have he0 := warpExponent_pos he
  have hbase0 : b32.le (toF b32 0) (ofSignMag false m) = true := by
    rw [b32_le, b32_toF, fLit_zero, ← ofSignMag_false_zero]
    exact fLe_ofSignMag_false (Nat.zero_le m) hm.le
  unfold powAt
  split_ifs with h0 hlt h1
  · rw [h0, ← fLit_zero]
    exact sameValue_symm (hraw.zero _ e (sameValue_zero_iff.2 (by decide)) he0)
  · have hbase1 : b32.le (ofSignMag false m) (toF b32 1) = true := by
      rw [b32_le, b32_toF, ← ofSignMag_false_one]
      exact fLe_ofSignMag_false hlt.le magBits_one_le_inf
    have hin := hraw.range (ofSignMag false m) e (by rw [within, hbase0, hbase1]; rfl) he0
    rw [b32_toF, b32_toF, fLit_zero] at hin
    exact limitTo_sameValue hin
  · rw [h1, ofSignMag_false_one]
    exact sameValue_symm (hraw.one _ e (sameValue_self notNaN_one) he0)
  · have hfin : fIsFinite (raw (ofSignMag false m) e) = true :=
      hraw.finite _ e (by simpa [fIsFinite, magBits_ofSignMag false (hm.trans (by decide))] using hm) hbase0 he
    have hone : sameValue b32 (raw (fLit 1 1) e) (fLit 1 1) = true := hraw.one _ e (sameValue_self notNaN_one) he0
    have hge : fLe (raw (fLit 1 1) e) (raw (ofSignMag false m) e) = true := by
      refine hmono _ _ e (by decide +kernel) ?_ he0
      rw [b32_le, ← ofSignMag_false_one]
      exact fLe_ofSignMag_false (by omega) hm.le
    rw [fLe_congr hone (sameValue_self (notNaN_of_finite hfin))] at hge
    exact limitTo_sameValue ((within_iff notNaN_one notNaN_maxFinite).2
      ⟨notNaN_of_finite hfin, (fLe_dest hge).2.2, fVal_le_maxFinite hfin⟩)

/-- A conforming `POW` keeps every value on the operands of the warp. -/
theorem powOf_sameValue (hraw : PowNamed b32 raw) (hmono : PowMono b32 raw) (hb : fIsFinite b = true)
    (h0 : fLe (fLit 0 1) b = true) (he : within b32 e (fLit 1 10) (fLit 10 1) = true) :
    sameValue b32 (powOf raw b e) (raw b e) = true := by
  have he0 := warpExponent_pos he
  obtain ⟨hn, hb0⟩ := toF_zero_le_iff.1 h0
  by_cases hz : fIsZero b = true
  · rw [powOf_of_isZero hz, ← fLit_zero]
    exact sameValue_symm (hraw.zero b e (sameValue_zero_iff.2 hz) he0)
  · by_cases ho : fEq e (fLit 1 1) = true
    · exact sameValue_trans (powOf_exponent_one hn ho) (sameValue_symm (hraw.id b e h0 (sameValue_one_iff.2 ho)))
    · have hs : signBit b = false := signBit_of_pos (lt_of_le_of_ne hb0 fun h => hz ((isZero_iff hn).2 h.symm))
      have hm : magBits b < infBits := by simpa [fIsFinite] using hb
      have hself : ofSignMag false (magBits b) = b := hs ▸ ofSignMag_self b
      have hrun := runMax_sameValue (f := powAt raw e) (g := fun k => raw (ofSignMag false k) e) (m := magBits b)
        (fun k hk => powAt_sameValue hraw hmono he (hk.trans_lt hm)) fun k hk =>
          hmono _ _ e (fLe_ofSignMag_false (Nat.zero_le k) (hk.trans hm.le)) (fLe_ofSignMag_false hk hm.le) he0
      rw [hself] at hrun
      exact sameValue_trans (powOf_sameValue_runMax hn hb0 ho) hrun

end PowKept

section Exp10Kept
variable {raw : Word → Word} {v : Word}

/-- A conforming `EXP10` at an operand of the form `±m` up to 1. -/
theorem exp10_range_ofSignMag (hraw : Exp10Named b32 raw) (s : Bool) {m : Nat} (hm : m ≤ magBits (fLit 1 1)) :
    within b32 (raw (ofSignMag s m)) (fLit 1 10) (fLit 10 1) = true := by
  have hinf := hm.trans magBits_one_le_inf
  have hn := notNaN_ofSignMag s hinf
  have habs : |fVal (ofSignMag s m)| ≤ |fVal (fLit 1 1)| := by
    rw [← magBits_le_iff hn notNaN_one, magBits_ofSignMag s (hinf.trans_lt (by decide))]; exact hm
  rw [fVal_one, abs_of_pos (show (0 : Int) < 2 ^ 149 by positivity)] at habs
  refine (hraw.range _ ((within_iff notNaN_negOne notNaN_one).2 ⟨hn, ?_⟩)).1
  rw [fVal_negOne, fVal_one]
  exact abs_le.1 habs

theorem exp10Above_sameValue (hraw : Exp10Named b32 raw) (hmono : Exp10Mono b32 raw) {m : Nat}
    (hm : m ≤ magBits (fLit 1 1)) : sameValue b32 (exp10Above raw m) (raw (ofSignMag false m)) = true := by
  have hone : sameValue b32 (raw (ofSignMag false 0)) (fLit 1 1) = true :=
    hraw.zero _ (sameValue_zero_iff.2 (by decide))
  obtain ⟨hn, _, hhi⟩ := within_dest (exp10_range_ofSignMag hraw false hm)
  unfold exp10Above
  split_ifs with h0
  · rw [h0]; exact sameValue_symm hone
  · have hge := hmono _ _ (fLe_ofSignMag_false (Nat.zero_le m) (hm.trans magBits_one_le_inf))
    rw [b32_le, fLe_congr hone (sameValue_self hn)] at hge
    exact limitTo_sameValue ((within_iff notNaN_one notNaN_ten).2 ⟨hn, (fLe_dest hge).2.2, hhi⟩)

theorem exp10Below_sameValue (hraw : Exp10Named b32 raw) (hmono : Exp10Mono b32 raw) {m : Nat}
    (hm : m ≤ magBits (fLit 1 1)) : sameValue b32 (exp10Below raw m) (raw (ofSignMag true m)) = true := by
  have hone : sameValue b32 (raw (ofSignMag true 0)) (fLit 1 1) = true :=
    hraw.zero _ (sameValue_zero_iff.2 (by decide))
  obtain ⟨hn, hlo, _⟩ := within_dest (exp10_range_ofSignMag hraw true hm)
  unfold exp10Below
  split_ifs with h0
  · rw [h0]; exact sameValue_symm hone
  · have hle := hmono _ _ (fLe_ofSignMag_true (Nat.zero_le m) (hm.trans magBits_one_le_inf))
    rw [b32_le, fLe_congr (sameValue_self hn) hone] at hle
    exact limitTo_sameValue ((within_iff notNaN_tenth notNaN_one).2 ⟨hn, hlo, (fLe_dest hle).2.2⟩)

/-- A conforming `EXP10` keeps every value on `[−1, 1]`. -/
theorem exp10Of_sameValue (hraw : Exp10Named b32 raw) (hmono : Exp10Mono b32 raw)
    (hv : within b32 v (fLit (-1) 1) (fLit 1 1) = true) : sameValue b32 (exp10Of raw v) (raw v) = true := by
  have hb := within_full_bounded hv
  have hm : magBits v ≤ magBits (fLit 1 1) := by
    rw [magBits_le_iff hb.1 notNaN_one, fVal_one]
    simpa using hb.2
  have hinf := hm.trans magBits_one_le_inf
  have hself := ofSignMag_self v
  cases hs : signBit v <;> rw [hs] at hself
  · rw [exp10Of_of_signBit_clear hs]
    have hrun := runMax_sameValue (f := exp10Above raw) (g := fun k => raw (ofSignMag false k)) (m := magBits v)
      (fun k hk => exp10Above_sameValue hraw hmono (hk.trans hm)) fun k hk =>
        hmono _ _ (fLe_ofSignMag_false hk hinf)
    rwa [hself] at hrun
  · rw [exp10Of_of_signBit_set hs]
    have hrun := runMin_sameValue (f := exp10Below raw) (g := fun k => raw (ofSignMag true k)) (m := magBits v)
      (fun k hk => exp10Below_sameValue hraw hmono (hk.trans hm)) fun k hk =>
        hmono _ _ (fLe_ofSignMag_true hk hinf)
    rwa [hself] at hrun

end Exp10Kept

/-- A conforming `EXP` keeps every value on operands up to 0. -/
theorem expOf_sameValue {raw : Word → Word} (hraw : ExpNamed b32 raw) {v : Word} (h : fLe v (fLit 0 1) = true) :
    sameValue b32 (expOf raw v) (raw v) = true := by
  obtain ⟨hn, h0⟩ := le_toF_zero_iff.1 h
  rcases h0.lt_or_eq with hneg | hzero
  · cases hf : fIsFinite v
    · rw [expOf_of_not_finite hn h0 hf, ← fLit_zero]
      exact sameValue_symm (hraw.negInf v h hf)
    · rw [expOf_of_neg hf hneg, ← fLit_zero]
      exact limitTo_sameValue (hraw.range v h)
  · have hz := (isZero_iff hn).2 hzero
    rw [expOf_of_isZero hz]
    exact sameValue_symm (hraw.zero v (sameValue_zero_iff.2 hz))

/-- A conforming `ZX` that reads the two zeros alike keeps every value. -/
theorem zxOf_sameValue {raw : Word → Nat → Word → Word} (hraw : ZxNamed b32 raw) {w s : Word} {L : Nat}
    (hd : ZxDomain b32 w L s) (hzeros : sameValue b32 (raw (plusZero w) L (plusZero s)) (raw w L s) = true) :
    sameValue b32 (zxOf raw w L s) (raw w L s) = true := by
  rcases hd.2.1.bounds.1 with rfl | hL
  · rw [zxOf_one, ← fLit_zero]
    exact sameValue_symm (hraw.one w s)
  · cases ho : outsideZone b32 w L
    · obtain ⟨hn, hlo, hhi⟩ := within_dest (hraw.range w L s hd hL ho).1
      obtain ⟨hn', _, hv⟩ := sameValue_iff.1 hzeros
      rw [zxOf_inside hL ho]
      exact sameValue_trans (limitTo_sameValue ((within_iff notNaN_negOne notNaN_one).2
        ⟨hn', hv ▸ hlo, hv ▸ hhi⟩)) hzeros
    · rw [zxOf_outside hL ho]
      exact sameValue_symm (hraw.locality w L s hd hL ho)

end Sys2Proof.Machine
end

section
/-! PROOFS. The statements on numbers and open functions (00_scope.md). -/

namespace Sys2Proof.Machine

/-- No comparison with a NaN holds. -/
theorem comparisons_of_isNaN {a b : Word} (h : fIsNaN a = true ∨ fIsNaN b = true) :
    fLt a b = false ∧ fLe a b = false ∧ fEq a b = false := by
  rcases h with h | h
  · simp [fLt, fLe, fEq, h]
  · simp [fLt, fLe, fEq, h]

/-- Settles O44: the zeros compare as the one value 0, and each comparison asks first that no operand is a NaN. -/
theorem binary32Comparisons : Obligations.Binary32Comparisons :=
  ⟨by decide, fun _ _ => comparisons_of_isNaN⟩

/-- Settles O43: each operator gives the word of value `roundVal` of the exact result, and that is the nearest word. -/
theorem binary32RoundsToNearestEven : Obligations.Binary32RoundsToNearestEven := by
  intro a b ha hb
  refine ⟨nearestTo_of_roundVal one_pos (fAdd_spec ha hb), nearestTo_of_roundVal one_pos (fSub_spec ha hb),
    nearestTo_of_roundVal (by positivity) (fMul_spec ha hb), fun hz => ?_,
    fun n d hd => nearestTo_of_roundVal hd (fLit_spec n d)⟩
  have h0 : fVal b ≠ 0 := fun h => by simp [(isZero_iff (notNaN_of_finite hb)).2 h] at hz
  rw [mul_right_comm]
  exact nearestTo_of_roundVal (Int.natAbs_pos.2 h0) (fDiv_spec ha hb h0)

/-- Settles O41: each open function has its properties over every raw function, so over the machine's free ones. -/
theorem machineInstancesConform : Obligations.MachineInstancesConform := hw_conforms

/-- Settles O42: limiting keeps a value of the range, and running along the magnitudes keeps a monotone function. -/
theorem imposingPropertiesLosesNothing : Obligations.ImposingPropertiesLosesNothing :=
  ⟨fun _ hraw hmono _ _ hb h0 he => powOf_sameValue hraw hmono hb h0 he,
    fun _ hraw hmono _ hv => exp10Of_sameValue hraw hmono hv,
    fun _ hraw _ h => expOf_sameValue hraw h,
    fun _ hraw _ _ _ hd hzeros => zxOf_sameValue hraw hd hzeros⟩

end Sys2Proof.Machine
end

section
/-! SUPPORT. What a step can leave, said once: the two inversions that invariants and frames are read off. -/

namespace Sys2Proof.Machine

/-- A step that completes is idle, the reset pin, or a command that completes and is accepted. A property of `s` that the
pin and the commands keep therefore holds after the step. -/
theorem stepBy_keeps {I : State → Prop} {run : Instr → State → Result} {s t : State} (h : stepBy run s = .next t)
    (hs : I s) (hpin : I s.hardReset.consumed) (hrun : ∀ i u, run i s = .next u → I u.accepted) : I t := by
  obtain ⟨_, e⟩ | ⟨_, _, e⟩ | ⟨_, _, _, _, _, e⟩ | ⟨_, _, i, _, _, e⟩ := stepBy_cases run s <;> rw [e] at h
  · cases h; exact hs
  · cases h; exact hpin
  · cases h
  · cases hr : run i s <;> rw [hr] at h <;> cases h
    exact hrun i _ hr

/-- A PROC row is the lanes' work on one snapshot, with the row's own `AUTO`. -/
theorem execWith_proc {i : Instr} (h : isProc i = true) :
    ∃ P xL xR, P.autoGain = !isManual i ∧ ∀ cfg s, execWith cfg i s =
      if s.ready then .next (s.afterProcWith cfg P xL xR) else .refused .notReady := by
  cases i
  case init => cases h
  case tdwn => cases h
  all_goals exact ⟨snapshotOf _ _ _ _ _ _, _, _, rfl, fun _ _ => rfl⟩

/-- The state a command that completes leaves, under any configuration. -/
theorem execWith_next {cfg : Config Word} {i : Instr} {s t : State} (h : execWith cfg i s = .next t) :
    (∃ sr, i = .init sr ∧ positiveFiniteWord sr = true ∧
      t = (s.withLanes (envInit b32 cfg sr) (envInit b32 cfg sr) none).withReady true) ∨
    (isProc i = true ∧ s.ready = true ∧ ∃ P xL xR, P.autoGain = !isManual i ∧ t = s.afterProcWith cfg P xL xR) ∨
    (i = .tdwn ∧ t = s.losingLanes.withReady false) := by
  obtain ⟨sr, rfl, e⟩ | ⟨hp, _⟩ | ⟨rfl, e⟩ := execWith_cases cfg i
  · obtain ⟨hr, e'⟩ | ⟨_, e'⟩ := execInitWith_eq cfg sr s <;> rw [e, e'] at h <;> cases h
    exact .inl ⟨sr, rfl, rateValid_eq sr ▸ hr, rfl⟩
  · obtain ⟨P, xL, xR, hauto, e⟩ := execWith_proc hp
    rw [e] at h
    split at h <;> cases h
    exact .inr (.inl ⟨hp, ‹_›, P, xL, xR, hauto, rfl⟩)
  · obtain ⟨_, e'⟩ | ⟨_, e'⟩ := execTdwn_eq s <;> rw [e, e'] at h <;> cases h
    exact .inr (.inr ⟨rfl, rfl⟩)

/-! ### What a lane's work leaves -/

section
variable (cfg : Config Word) (f : Follower Word) (x : Word) (P : Snapshot Word)

@[simp] theorem laneStepWith_atk : (laneStepWith cfg f x P).1.atk = f.atk := rfl
@[simp] theorem laneStepWith_rel : (laneStepWith cfg f x P).1.rel = f.rel := rfl

end

/-- With `AUTO = 0` the lane's follower is not written (43_bitcrusher_channel.md R140). -/
theorem laneStepWith_manual (cfg : Config Word) (f : Follower Word) (x : Word) {P : Snapshot Word}
    (h : P.autoGain = false) : (laneStepWith cfg f x P).1 = f := by
  have henv : (processCh b32 cfg f x P).1 = f.env :=
    if_neg (show ¬ (clampSnapshot b32 cfg P).autoGain = true from by simp [clampSnapshot, h])
  simp [laneStepWith, henv]

/-! ### The invariant -/

theorem State.inv_iff {s : State} : s.inv = true ↔
    (s.ready = true → followerSafe s.laneL = true ∧ followerSafe s.laneR = true) ∧ outSafe s.out = true := by
  cases h : s.ready <;> simp [State.inv, h]

/-- In `UNINIT` with nothing on `OUT` the invariant says nothing of the registers (10_state.md R34). -/
theorem State.inv_of_uninit {s : State} (hr : s.ready = false) (ho : s.out = none) : s.inv = true :=
  State.inv_iff.2 ⟨fun h => by simp [hr] at h, by rw [ho]; rfl⟩

@[simp] theorem State.accepted_inv (s : State) : s.accepted.inv = s.inv := rfl

/-- Every command keeps the invariant: `INIT` sets it up, a PROC row keeps it lane by lane, `TDWN` leaves `UNINIT`. -/
theorem execWith_keeps_inv {cfg : Config Word} (hc : ConfigSafe cfg) {i : Instr} {s t : State} (hs : s.inv = true)
    (h : execWith cfg i s = .next t) : t.inv = true := by
  obtain ⟨sr, _, hr, rfl⟩ | ⟨_, hready, P, xL, xR, _, rfl⟩ | ⟨_, rfl⟩ := execWith_next h
  · exact State.inv_iff.2 ⟨fun _ => ⟨envInit_safe hc hr, envInit_safe hc hr⟩, rfl⟩
  · obtain ⟨hL, hR⟩ := (State.inv_iff.1 hs).1 hready
    obtain ⟨hL', hyL⟩ := laneStepWith_spec hc hL xL P
    obtain ⟨hR', hyR⟩ := laneStepWith_spec hc hR (rightInput xL xR) P
    exact State.inv_iff.2 ⟨fun _ => ⟨hL', hR'⟩, by simp [outSafe, hyL, hyR]⟩
  · exact State.inv_of_uninit rfl rfl

/-- Every step keeps the invariant, under every safe configuration. -/
theorem stepWith_keeps_inv {cfg : Config Word} (hc : ConfigSafe cfg) {s t : State} (hs : s.inv = true)
    (h : stepWith cfg s = .next t) : t.inv = true :=
  stepBy_keeps (I := fun u => u.inv = true) h hs (State.inv_of_uninit rfl rfl)
    fun _ u hu => (State.accepted_inv u).trans (execWith_keeps_inv hc hs hu)

/-! ### The two copies of the coefficients -/

/-- While `READY = 1` the two lanes hold equal coefficients (10_state.md R23). -/
def State.coefficientsAgree (s : State) : Prop :=
  s.ready = true → s.laneL.atk = s.laneR.atk ∧ s.laneL.rel = s.laneR.rel

theorem State.accepted_coefficientsAgree {s : State} : s.accepted.coefficientsAgree ↔ s.coefficientsAgree := Iff.rfl

/-- Every command keeps the copies equal: `INIT` writes both alike, a PROC row writes neither. -/
theorem execWith_keeps_coefficientsAgree {cfg : Config Word} {i : Instr} {s t : State} (hs : s.coefficientsAgree)
    (h : execWith cfg i s = .next t) : t.coefficientsAgree := by
  obtain ⟨sr, _, _, rfl⟩ | ⟨_, _, P, xL, xR, _, rfl⟩ | ⟨_, rfl⟩ := execWith_next h
  · exact fun _ => ⟨rfl, rfl⟩
  · simpa [State.coefficientsAgree] using hs
  · exact nofun

theorem stepWith_keeps_coefficientsAgree {cfg : Config Word} {s t : State} (hs : s.coefficientsAgree)
    (h : stepWith cfg s = .next t) : t.coefficientsAgree :=
  stepBy_keeps (I := State.coefficientsAgree) h hs nofun
    fun _ _ hu => State.accepted_coefficientsAgree.2 (execWith_keeps_coefficientsAgree hs hu)

/-! ### The stream index -/

/-- An answer with the stream index of its next state, if it has one, set to `m`. -/
def withIndex (m : Nat) : Result → Result
  | .next t => .next { t with n := m }
  | .fault r => .fault r
  | .refused r => .refused r

theorem withIndex_acceptResult (m : Nat) (r : Result) :
    acceptResult (withIndex m r) = withIndex (m + 1) (acceptResult r) := by
  cases r <;> rfl

/-- A command neither reads the stream index nor writes it: its condition and its effect are those of every other
index. -/
theorem exec_withIndex (i : Instr) (s : State) (m : Nat) : exec i { s with n := m } = withIndex m (exec i s) := by
  obtain ⟨sr, rfl⟩ | ⟨_, _, _, sym, auto, bd, gp, sm, gdb, xL, xR, e⟩ | rfl := exec_cases i
  · simp only [exec_init, execInit, execInitWith]
    split <;> rfl
  · simp only [e, execProc, execProcWith]
    split <;> rfl
  · simp only [exec_tdwn, execTdwn]
    split <;> rfl

/-- A step from another stream index gives the same answer but for the index it leaves. -/
theorem step_withIndex (s : State) (m : Nat) : ∃ k, step { s with n := m } = withIndex k (step s) := by
  have hfetch : State.fetch { s with n := m } = s.fetch := rfl
  unfold step stepBy
  rw [hfetch]
  cases s.fetch with
  | nothing => exact ⟨m, rfl⟩
  | pin => exact ⟨0, rfl⟩
  | rejected r => exact ⟨0, rfl⟩
  | command i => exact ⟨m + 1, by simp only [exec_withIndex, withIndex_acceptResult]⟩

end Sys2Proof.Machine
end

section
/-! PROOFS. The statements on the state (10_state.md). -/

namespace Sys2Proof.Machine

/-- Settles O23: `INIT` writes both copies alike, a PROC row writes no coefficient, and every other event leaves
`READY = 0`. -/
theorem coefficientCopiesStayEqual : Obligations.CoefficientCopiesStayEqual := by
  intro s t hs h
  rw [step_eq_stepWith] at h
  exact stepWith_keeps_coefficientsAgree hs h

/-- Settles O24: the machine's configuration and every conforming one are safe, and a safe one keeps the invariant. -/
theorem invariantKeptByEveryStep : Obligations.InvariantKeptByEveryStep := by
  refine ⟨fun s t hs h => ?_, fun cfg hc s t hs h => stepWith_keeps_inv hc.safe hs h⟩
  rw [step_eq_stepWith] at h
  exact stepWith_keeps_inv hw_safe hs h

/-- Settles O9: the step from another index is the same answer with another index. -/
theorem streamIndexIsNeverRead : Obligations.StreamIndexIsNeverRead := by
  intro s m
  obtain ⟨k, hk⟩ := step_withIndex s m
  refine ⟨fun t h => ⟨k, ?_⟩, fun r h => ?_⟩ <;> rw [hk, h] <;> rfl

/-- Settles O14, command by command from the state it leaves. -/
theorem instructionFrame : Obligations.InstructionFrame := by
  intro i s t h
  rw [exec_eq_execWith] at h
  obtain ⟨sr, rfl, _, rfl⟩ | ⟨hp, _, P, xL, xR, hauto, rfl⟩ | ⟨rfl, rfl⟩ := execWith_next h
  · exact ⟨rfl, rfl, nofun, nofun, fun _ => rfl, fun _ _ => rfl⟩
  · refine ⟨rfl, rfl, fun _ => ⟨rfl, rfl, rfl, rfl, rfl, rfl, rfl⟩, fun hm => ?_, fun hn => ?_, ?_⟩
    · have hP : P.autoGain = false := by simp [hauto, hm]
      exact ⟨laneStepWith_manual hw s.laneL xL hP, laneStepWith_manual hw s.laneR (rightInput xL xR) hP⟩
    · simp [hp] at hn
    · rintro sr rfl; cases hp
  · exact ⟨rfl, rfl, nofun, nofun, fun _ => rfl, nofun⟩

/-- Settles O25: reset leaves `UNINIT`, with nothing on `OUT`. -/
theorem invariantHoldsAtReset : Obligations.InvariantHoldsAtReset :=
  ⟨State.inv_of_uninit rfl rfl, rfl⟩

end Sys2Proof.Machine
end

section
/-! SUPPORT. What a repeated frame meets: the step of a presented command, a lane's work with `AUTO = 0` apart from its
follower, and a level that moves. -/

namespace Sys2Proof.Machine

/-- The step that meets a frame the decoder accepts is that frame's command, accepted if it completes. -/
theorem step_of_command {s : State} {ws : Frame} {rest : List HostEvent} {i : Instr} (hc : s.cmd = .frame ws :: rest)
    (hd : decode ws = .ok i) : step s = acceptResult (exec i s) := by
  have hfetch : s.fetch = .command i := by simp [State.fetch, hc, hd]
  simp [step, stepBy, hfetch]

theorem isProc_of_isManual {i : Instr} (h : isManual i = true) : isProc i = true := by
  cases i
  case init => cases h
  case tdwn => cases h
  all_goals rfl

/-! ### A lane with `AUTO = 0` -/

/-- With `AUTO = 0` the lane's output word does not depend on its follower (10_state.md R24, 43_bitcrusher_channel.md
R140). -/
theorem laneStepWith_manual_output (cfg : Config Word) (f g : Follower Word) (x : Word) {P : Snapshot Word}
    (h : P.autoGain = false) : (laneStepWith cfg f x P).2 = (laneStepWith cfg g x P).2 := by
  have hclamped : (clampSnapshot b32 cfg P).autoGain = false := h
  simp [laneStepWith, processCh, gainStage, zeroSignOf, h, hclamped]

/-- With `AUTO = 0` a frame writes `OUT` alone, and what it writes there is what it writes in every other state. -/
theorem afterProcWith_manual (cfg : Config Word) (s s' : State) {P : Snapshot Word} (xL : Word) (xR : Option Word)
    (h : P.autoGain = false) :
    s'.afterProcWith cfg P xL xR = { s' with out := (s.afterProcWith cfg P xL xR).out } := by
  refine State.ext_fields rfl ?_ ?_ rfl ?_ rfl rfl
  · exact laneStepWith_manual cfg s'.laneL xL h
  · exact laneStepWith_manual cfg s'.laneR (rightInput xL xR) h
  · simp [laneStepWith_manual_output cfg s'.laneL s.laneL xL h,
      laneStepWith_manual_output cfg s'.laneR s.laneR (rightInput xL xR) h]

/-- A PROC row with `AUTO = 0` reads no state but `READY` and writes `OUT` alone. -/
theorem exec_manual_of_ready_eq {i : Instr} {s s' t : State} (hm : isManual i = true) (h : exec i s = .next t)
    (hready : s'.ready = s.ready) : exec i s' = .next { s' with out := t.out } := by
  obtain ⟨P, xL, xR, hauto, e⟩ := execWith_proc (isProc_of_isManual hm)
  have hP : P.autoGain = false := by simp [hauto, hm]
  rw [exec_eq_execWith, e] at h ⊢
  split at h <;> cases h
  rename_i hr
  rw [if_pos (hready.trans hr), afterProcWith_manual hw s s' xL xR hP]

/-! ### A level that moves -/

/-- A lane's registers with level `e` and both coefficients one half. -/
def halvingFollower (e : Word) : Follower Word := { env := e, atk := 0x3F000000, rel := 0x3F000000 }

/-- `READY = 1`, both levels 0 and every coefficient one half. -/
def halvingState : State :=
  { State.reset with ready := true, laneL := halvingFollower 0, laneR := halvingFollower 0 }

/-- A snapshot with `AUTO = 1` and every parameter word zero: the sample meets neither drive nor warp. -/
def neutralAuto : Snapshot Word := snapshotOf true true 0 0 0 0

/-- On a full-scale sample the level covers half the way to 1: from 0 to 0.5, from 0.5 to 0.75. -/
theorem laneStep_halving :
    (laneStep (halvingFollower 0) 0x3F800000 neutralAuto).1 = halvingFollower 0x3F000000 ∧
    (laneStep (halvingFollower 0x3F000000) 0x3F800000 neutralAuto).1 = halvingFollower 0x3F400000 := by
  decide +kernel

/-- The state after one full-scale frame with `AUTO = 1` is not the state after two. -/
theorem afterProc_afterProc_ne :
    (halvingState.afterProc neutralAuto 0x3F800000 none).afterProc neutralAuto 0x3F800000 none ≠
      halvingState.afterProc neutralAuto 0x3F800000 none := by
  intro h
  have hlevel := congrArg (fun s => s.laneL.env) h
  obtain ⟨hfirst, hsecond⟩ := laneStep_halving
  have hstart : halvingState.laneL = halvingFollower 0 := rfl
  simp only [State.afterProc_laneL, hstart, hfirst, hsecond] at hlevel
  exact absurd hlevel (by decide)

end Sys2Proof.Machine
end

section
/-! PROOFS. The statements on frames at the interface (20_memory.md). -/

namespace Sys2Proof.Machine

/-- Settles O13: `INIT` writes the same registers from its own result, a manual row reads `READY` alone, a level with
`AUTO = 1` moves on, and `TDWN` leaves `UNINIT`. -/
theorem repeatedFrames : Obligations.RepeatedFrames := by
  refine ⟨fun sr s t h => ?_, fun i s t hm h => ?_, ?_, fun s t h => ?_⟩
  · obtain ⟨hr, e⟩ | ⟨_, e⟩ := execInitWith_eq hw sr s <;> rw [exec_init, execInit, e] at h <;> cases h
    exact if_pos hr
  · obtain ⟨_, _, hproc, _⟩ := instructionFrame i s t h
    obtain ⟨hready, _⟩ := hproc (isProc_of_isManual hm)
    exact ⟨exec_manual_of_ready_eq hm h hready, fun s' => exec_manual_of_ready_eq hm h⟩
  · exact ⟨.procSymAutoMono 0 0 0 0 0x3F800000, halvingState, _, _, rfl, rfl, rfl, afterProc_afterProc_ne⟩
  · obtain ⟨_, e⟩ | ⟨_, e⟩ := execTdwn_eq s <;> rw [exec_tdwn, e] at h <;> cases h
    rfl

/-- Settles O5: a command keeps `CMD` and the stream index, so accepting its result consumes the frame and counts it. -/
theorem stepRunsDecodedCommand : Obligations.StepRunsDecodedCommand := by
  intro s ws rest i hc hd
  refine ⟨fun t h => ?_, fun r h => ?_⟩
  · obtain ⟨hcmd, hn, _⟩ := instructionFrame i s t h
    rw [step_of_command hc hd, h, acceptResult, State.accepted, State.consumed, hcmd, hn, hc, List.tail_cons]
  · rw [step_of_command hc hd, h, acceptResult]

end Sys2Proof.Machine
end

section
/-! SUPPORT. The decoder, said once: the fields of a command word by their numbers, an equation per check and per row of
30_encoding.md R67, and what an accepted frame is. -/

namespace Sys2Proof

/-! ### The fields of a command word, by their numbers -/

section
variable {w : Word}

theorem fieldOpc_eq_iff {k : BitVec 8} : fieldOpc w = k ↔ w.toNat / 2 ^ 24 = k.toNat := by
  rw [← BitVec.toNat_inj, fieldOpc_toNat]

theorem fieldRsv_eq_zero_iff : fieldRsv w = 0#21 ↔ w.toNat / 2 ^ 3 % 2 ^ 21 = 0 := by
  rw [← BitVec.toNat_inj, fieldRsv_toNat]; rfl

theorem fieldLow_eq_zero_iff : fieldLow w = 0#3 ↔ w.toNat % 2 ^ 3 = 0 := by
  rw [← BitVec.toNat_inj, fieldLow_toNat]; rfl

theorem fieldRp_iff : fieldRp w = true ↔ w.toNat % 2 ^ 3 / 4 = 1 := by
  rw [← Bool.toNat_eq_one, fieldRp_toNat]; omega

theorem fieldAuto_iff : fieldAuto w = true ↔ w.toNat % 2 ^ 3 / 2 % 2 = 1 := by
  rw [← Bool.toNat_eq_one, fieldAuto_toNat]; omega

theorem fieldSym_iff : fieldSym w = true ↔ w.toNat % 2 ^ 3 % 2 = 1 := by
  rw [← Bool.toNat_eq_one, fieldSym_toNat]; omega

theorem fieldRp_eq_false_iff : fieldRp w = false ↔ w.toNat % 2 ^ 3 / 4 = 0 := by
  rw [← Bool.not_eq_true, fieldRp_iff]; omega

/-- The length `OPC` and `RP` call for (30_encoding.md R58), in numbers. -/
theorem needWords_eq : needWords w =
    if w.toNat / 2 ^ 24 = 1 then 2 else if w.toNat / 2 ^ 24 = 3 then 1 else 6 + w.toNat % 2 ^ 3 / 4 := by
  have hlow : w.toNat % 2 ^ 3 / 4 = if fieldRp w = true then 1 else 0 := by
    split <;> rename_i h <;> rw [fieldRp_iff] at h <;> omega
  simp only [needWords, fieldOpc_eq_iff, BitVec.reduceToNat, hlow]
  split_ifs <;> rfl

/-- A command word without `RSV` and low bits is its `OPC` alone. -/
theorem commandWord_of_fieldLow_zero {opc : BitVec 8} (hopc : fieldOpc w = opc) (hrsv : fieldRsv w = 0#21)
    (hlow : fieldLow w = 0#3) : w = commandWord opc false false false := by
  have hw := commandWord_of_fields hrsv
  rw [fieldLow_eq_zero_iff] at hlow
  have hrp : ¬ fieldRp w = true := by rw [fieldRp_iff]; omega
  have hauto : ¬ fieldAuto w = true := by rw [fieldAuto_iff]; omega
  have hsym : ¬ fieldSym w = true := by rw [fieldSym_iff]; omega
  rwa [hopc, Bool.eq_false_of_not_eq_true hrp, Bool.eq_false_of_not_eq_true hauto,
    Bool.eq_false_of_not_eq_true hsym] at hw

end

/-! ### The checks on the command word -/

section
variable {w : Word} (ops : List Word)

/-- `OPC` is one of the three operation classes (30_encoding.md R57). -/
def KnownOpc (w : Word) : Prop := fieldOpc w = 0x01#8 ∨ fieldOpc w = 0x02#8 ∨ fieldOpc w = 0x03#8

/-- Every bit that must be zero is zero: `RSV`, and the low bits in every command but PROC (30_encoding.md R57). -/
def ReservedClear (w : Word) : Prop := fieldRsv w = 0#21 ∧ (fieldOpc w = 0x02#8 ∨ fieldLow w = 0#3)

/-- The decoder's check of `OPC` lets a known one pass. -/
theorem KnownOpc.passes (hk : KnownOpc w) :
    ¬ (fieldOpc w ≠ 0x01#8 ∧ fieldOpc w ≠ 0x02#8 ∧ fieldOpc w ≠ 0x03#8) := by
  simpa only [KnownOpc, ← not_or, not_not] using hk

theorem decode_reservedOpcode (h : ¬ KnownOpc w) : decode (w :: ops) = .error .reservedOpcode := by
  simp only [KnownOpc, not_or] at h
  exact if_pos h

theorem decode_reservedBits (hk : KnownOpc w) (h : ¬ ReservedClear w) :
    decode (w :: ops) = .error .reservedBits := by
  simp only [ReservedClear, not_and, not_or] at h
  rw [decode, if_neg hk.passes]
  split_ifs with hrsv hlow
  · rfl
  · rfl
  · exact absurd (h (not_not.1 hrsv)) hlow

/-- What passes the checks on the command word goes on to its operands. -/
theorem decode_admitted (hk : KnownOpc w) (h : ReservedClear w) : decode (w :: ops) = decodeOperands w ops := by
  obtain ⟨hrsv, hlow⟩ := h
  rw [decode, if_neg hk.passes, if_neg (not_not.2 hrsv), if_neg (by tauto)]

end

/-! ### The operand words -/

section
variable {w : Word}

theorem decodeOperands_init (h : fieldOpc w = 0x01#8) (sr : Word) : decodeOperands w [sr] = .ok (.init sr) := by
  simp [decodeOperands, h]

theorem decodeOperands_tdwn (h : fieldOpc w = 0x03#8) : decodeOperands w [] = .ok .tdwn := by
  simp [decodeOperands, h]

theorem decodeOperands_mono (h : fieldOpc w = 0x02#8) (hrp : fieldRp w = false) (bd gp sm gdb xL : Word) :
    decodeOperands w [bd, gp, sm, gdb, xL] = .ok (procMono (fieldSym w) (fieldAuto w) bd gp sm gdb xL) := by
  simp [decodeOperands, h, hrp]

theorem decodeOperands_stereo (h : fieldOpc w = 0x02#8) (hrp : fieldRp w = true) (bd gp sm gdb xL xR : Word) :
    decodeOperands w [bd, gp, sm, gdb, xL, xR] =
      .ok (procStereo (fieldSym w) (fieldAuto w) bd gp sm gdb xL xR) := by
  simp [decodeOperands, h, hrp]

/-- A frame of another length than its command word calls for is refused (30_encoding.md R58). -/
theorem decodeOperands_frameLength {ops : List Word} (h : ops.length + 1 ≠ needWords w) :
    decodeOperands w ops = .error .frameLength := by
  unfold needWords at h
  unfold decodeOperands
  split_ifs at h ⊢ <;> split <;> simp at h ⊢

/-- A known opcode with the length its command word calls for has the operand words of one of four frames
(30_encoding.md R59, R60, R62). -/
theorem operands_cases {ops : List Word} (hk : KnownOpc w) (h : ops.length + 1 = needWords w) :
    (fieldOpc w = 0x01#8 ∧ ∃ sr, ops = [sr]) ∨ (fieldOpc w = 0x03#8 ∧ ops = []) ∨
    (fieldOpc w = 0x02#8 ∧ fieldRp w = false ∧ ∃ bd gp sm gdb xL, ops = [bd, gp, sm, gdb, xL]) ∨
    (fieldOpc w = 0x02#8 ∧ fieldRp w = true ∧ ∃ bd gp sm gdb xL xR, ops = [bd, gp, sm, gdb, xL, xR]) := by
  obtain h1 | h2 | h3 := hk
  · simp only [needWords, h1] at h
    exact .inl ⟨h1, List.length_eq_one_iff.1 (by simpa using h)⟩
  · simp only [needWords, h2] at h
    cases hrp : fieldRp w <;> simp [hrp] at h
    · match ops, h with | [bd, gp, sm, gdb, xL], _ => simp [h2]
    · match ops, h with | [bd, gp, sm, gdb, xL, xR], _ => simp [h2]
  · simp only [needWords, h3] at h
    exact .inr (.inl ⟨h3, List.length_eq_zero_iff.1 (by simpa using h)⟩)

end

/-! ### Accepted frames -/

/-- The command word passes every check and the frame has the length it calls for (30_encoding.md R57, R58). -/
def AdmittedFrame (w : Word) (ops : List Word) : Prop := KnownOpc w ∧ ReservedClear w ∧ ops.length + 1 = needWords w

theorem admitted_of_decode_ok {w : Word} {ops : List Word} {i : Instr} (h : decode (w :: ops) = .ok i) :
    AdmittedFrame w ops := by
  have hk : KnownOpc w := by
    by_contra hk
    rw [decode_reservedOpcode ops hk] at h
    cases h
  have hr : ReservedClear w := by
    by_contra hr
    rw [decode_reservedBits ops hk hr] at h
    cases h
  refine ⟨hk, hr, ?_⟩
  by_contra hlen
  rw [decode_admitted ops hk hr, decodeOperands_frameLength hlen] at h
  cases h

section
variable (sym auto : Bool) (bd gp sm gdb xL xR : Word)

theorem encode_procMono : encode (procMono sym auto bd gp sm gdb xL) =
    [commandWord 0x02#8 false auto sym, bd, gp, sm, gdb, xL] := by
  cases sym <;> cases auto <;> rfl

theorem encode_procStereo : encode (procStereo sym auto bd gp sm gdb xL xR) =
    [commandWord 0x02#8 true auto sym, bd, gp, sm, gdb, xL, xR] := by
  cases sym <;> cases auto <;> rfl

end

/-- An admitted frame decodes to a command whose encoding it is: every bit of it is a fixed one or kept. -/
theorem AdmittedFrame.decodes {w : Word} {ops : List Word} (h : AdmittedFrame w ops) :
    ∃ i, decode (w :: ops) = .ok i ∧ w :: ops = encode i := by
  obtain ⟨hk, hr, hlen⟩ := h
  have hw := commandWord_of_fields hr.1
  rw [decode_admitted ops hk hr]
  obtain ⟨ho, sr, rfl⟩ | ⟨ho, rfl⟩ | ⟨ho, hrp, bd, gp, sm, gdb, xL, rfl⟩ | ⟨ho, hrp, bd, gp, sm, gdb, xL, xR, rfl⟩ :=
    operands_cases hk hlen
  · have hlow : fieldLow w = 0#3 := hr.2.resolve_left (by simp [ho])
    exact ⟨_, decodeOperands_init ho sr, congrArg (· :: [sr]) (commandWord_of_fieldLow_zero ho hr.1 hlow)⟩
  · have hlow : fieldLow w = 0#3 := hr.2.resolve_left (by simp [ho])
    exact ⟨_, decodeOperands_tdwn ho, congrArg (· :: []) (commandWord_of_fieldLow_zero ho hr.1 hlow)⟩
  · rw [ho, hrp] at hw
    exact ⟨_, decodeOperands_mono ho hrp bd gp sm gdb xL, by rw [encode_procMono, ← hw]⟩
  · rw [ho, hrp] at hw
    exact ⟨_, decodeOperands_stereo ho hrp bd gp sm gdb xL xR, by rw [encode_procStereo, ← hw]⟩

/-- The frame of a command decodes to it, row by row. -/
theorem decode_encode (i : Instr) : decode (encode i) = .ok i := by
  cases i <;> rfl

/-- The form of a frame in numbers and the decoder's fields say the same (30_encoding.md R57, R58). -/
theorem wellFormedFrame_cons_iff {w : Word} {ops : List Word} :
    wellFormedFrame (w :: ops) = true ↔ AdmittedFrame w ops := by
  simp only [wellFormedFrame, AdmittedFrame, KnownOpc, ReservedClear, needWords_eq, fieldOpc_eq_iff, fieldRsv_eq_zero_iff,
    fieldLow_eq_zero_iff, BitVec.reduceToNat, Bool.and_eq_true, Bool.or_eq_true, beq_iff_eq]
  generalize w.toNat / 2 ^ 24 = opc, w.toNat / 2 ^ 3 % 2 ^ 21 = rsv, w.toNat % 2 ^ 3 = low
  split_ifs <;> omega

end Sys2Proof
end

section
/-! PROOFS. The statements on the encoding (30_encoding.md). -/

namespace Sys2Proof.Machine

/-- Settles O1: an accepted frame is admitted, so it is the encoding of what it decodes to; and every encoding decodes
to its command. -/
theorem decodeAcceptsExactlyEncodings : Obligations.DecodeAcceptsExactlyEncodings := by
  refine fun ws i => ⟨fun h => ?_, fun h => h ▸ decode_encode i⟩
  cases ws with
  | nil => cases h
  | cons w ops =>
    obtain ⟨j, hj, hws⟩ := (admitted_of_decode_ok h).decodes
    cases h.symm.trans hj
    exact hws

/-- Settles O2: accepted, admitted and well formed are one. -/
theorem decodeAcceptsExactlyWellFormedFrames : Obligations.DecodeAcceptsExactlyWellFormedFrames := by
  intro ws
  cases ws with
  | nil => exact ⟨fun ⟨_, h⟩ => (nomatch h), nofun⟩
  | cons w ops =>
    rw [wellFormedFrame_cons_iff]
    exact ⟨fun ⟨_, h⟩ => admitted_of_decode_ok h, fun h => h.decodes.imp fun _ => And.left⟩

/-- Settles O3, each clause by the decoder's equation for it, the numbers read as fields. -/
theorem decodingProcedure : Obligations.DecodingProcedure := by
  refine ⟨rfl, ?_⟩
  rintro w ops _ _ _ rfl rfl rfl
  have hinit : w.toNat / 2 ^ 24 = 1 ↔ fieldOpc w = 0x01#8 := (fieldOpc_eq_iff (k := 0x01#8)).symm
  have hproc : w.toNat / 2 ^ 24 = 2 ↔ fieldOpc w = 0x02#8 := (fieldOpc_eq_iff (k := 0x02#8)).symm
  have htdwn : w.toNat / 2 ^ 24 = 3 ↔ fieldOpc w = 0x03#8 := (fieldOpc_eq_iff (k := 0x03#8)).symm
  rw [← needWords_eq]
  simp only [ne_eq, hinit, hproc, htdwn, ← fieldRsv_eq_zero_iff, ← fieldLow_eq_zero_iff,
    ← fieldRp_eq_false_iff, ← fieldRp_iff, ← fieldAuto_iff, ← fieldSym_iff, Bool.decide_eq_true]
  refine ⟨fun h1 h2 h3 => ?_, fun hk hrsv => ?_, fun hk hrsv hlow => ?_, fun hk hrsv hlen => ?_,
    fun ho hrsv hlow sr hops => ?_, fun ho hrsv hlow hops => ?_, fun ho hrsv hrp bd gp sm gdb xL hops => ?_,
    fun ho hrsv hrp bd gp sm gdb xL xR hops => ?_⟩
  · exact decode_reservedOpcode ops (by simp [KnownOpc, *])
  · exact decode_reservedBits ops hk (by simp [ReservedClear, *])
  · refine decode_reservedBits ops (hk.imp_right .inr) fun h => ?_
    obtain ho | ho := hk <;> simp [ReservedClear, ho, hlow] at h
  · rw [decode_admitted ops (by rw [KnownOpc]; tauto) ⟨hrsv, by tauto⟩, decodeOperands_frameLength hlen]
  · rw [hops, decode_admitted [sr] (.inl ho) ⟨hrsv, .inr hlow⟩, decodeOperands_init ho]
  · rw [hops, decode_admitted [] (.inr (.inr ho)) ⟨hrsv, .inr hlow⟩, decodeOperands_tdwn ho]
  · rw [hops, decode_admitted _ (.inr (.inl ho)) ⟨hrsv, .inl ho⟩, decodeOperands_mono ho hrp]
  · rw [hops, decode_admitted _ (.inr (.inl ho)) ⟨hrsv, .inl ho⟩, decodeOperands_stereo ho hrp]

/-- Settles O26: with `READY = 1` a PROC row runs both lanes, and a lane with a safe follower outputs a full-scale word
whatever its operands are. -/
theorem procOutputsAreFullScale : Obligations.ProcOutputsAreFullScale := by
  intro i s hinv hready hproc
  obtain ⟨P, xL, xR, _, hrun⟩ := execWith_proc hproc
  obtain ⟨hL, hR⟩ := (State.inv_iff.1 hinv).1 hready
  obtain ⟨_, hyL⟩ := laneStep_spec hL xL P
  obtain ⟨_, hyR⟩ := laneStep_spec hR (rightInput xL xR) P
  refine ⟨s.afterProc P xL xR, _, ?_, State.afterProc_out s P xL xR, hyL, hyR⟩
  rw [exec_eq_execWith, hrun, if_pos hready, State.afterProc]

/-- Settles O4: each of the ten frames is the encoding of its command. -/
theorem tableWordsDecode : Obligations.TableWordsDecode := by
  simp only [Obligations.TableWordsDecode, decodeAcceptsExactlyEncodings _ _]
  decide

end Sys2Proof.Machine
end

section
/-! SUPPORT. The transition blend over the real numbers: each half of the softness range mixes two of the three shapes
`p`, `smoothstep` and `hardstep` (40_quantizer.md R81), so a property the shapes share is one of the blend. -/

namespace Sys2Proof.Machine

variable {p s : ℝ}

/-! ### The shapes -/

/-- `smoothstep` is nondecreasing between its end points. -/
theorem smoothstep_monotoneOn : MonotoneOn (smoothstep (exactNum ℝ)) (Set.Icc 0 1) := by
  rintro p ⟨h0, _⟩ p' ⟨_, h1⟩ h
  rw [exact_smoothstep, exact_smoothstep, ← sub_nonneg]
  have hfactor : 3 * p' ^ 2 - 2 * p' ^ 3 - (3 * p ^ 2 - 2 * p ^ 3) =
      (p' - p) * (2 * (p' * (1 - p')) + 2 * (p * (1 - p)) + p' * (1 - p) + p * (1 - p')) := by ring
  have hp' := h0.trans h
  have hq' := sub_nonneg.2 h1
  have hq := sub_nonneg.2 (h.trans h1)
  rw [hfactor]
  exact mul_nonneg (sub_nonneg.2 h) (by positivity)

theorem smoothstep_one_sub (p : ℝ) : smoothstep (exactNum ℝ) (1 - p) = 1 - smoothstep (exactNum ℝ) p := by
  rw [exact_smoothstep, exact_smoothstep]; ring

theorem continuous_smoothstep : Continuous (smoothstep (exactNum ℝ)) := by
  rw [funext exact_smoothstep]; fun_prop

theorem hardstep_below (h : p < 1 / 2) : hardstep (exactNum ℝ) p = 0 := by rw [exact_hardstep, if_pos h]

theorem hardstep_above (h : 1 / 2 ≤ p) : hardstep (exactNum ℝ) p = 1 := by rw [exact_hardstep, if_neg h.not_gt]

theorem hardstep_monotone : Monotone (hardstep (exactNum ℝ)) := by
  intro p p' h
  obtain hp | hp := lt_or_ge p (1 / 2)
  · rw [hardstep_below hp, exact_hardstep]; split <;> norm_num
  · rw [hardstep_above hp, hardstep_above (hp.trans h)]

theorem hardstep_one_sub (h : p ≠ 1 / 2) : hardstep (exactNum ℝ) (1 - p) = 1 - hardstep (exactNum ℝ) p := by
  obtain hp | hp := h.lt_or_gt
  · rw [hardstep_below hp, hardstep_above (by linarith)]; norm_num
  · rw [hardstep_above hp.le, hardstep_below (by linarith)]; norm_num

theorem continuousAt_hardstep (h : p ≠ 1 / 2) : ContinuousAt (hardstep (exactNum ℝ)) p := by
  obtain hp | hp := h.lt_or_gt
  · exact continuousAt_const.congr ((eventually_lt_nhds hp).mono fun _ h => (hardstep_below h).symm)
  · exact continuousAt_const.congr ((eventually_gt_nhds hp).mono fun _ h => (hardstep_above h.le).symm)

/-! ### The blend -/

/-- Up to softness a half the blend mixes the line and `smoothstep`. -/
theorem blend_of_le (p : ℝ) (h : s ≤ 1 / 2) :
    blend (exactNum ℝ) p s = (1 - 2 * s) * p + 2 * s * smoothstep (exactNum ℝ) p := by
  rw [exact_blend, if_pos h, exact_smoothstep]; ring

/-- From softness a half on it mixes `smoothstep` and `hardstep`; at a half both mixtures are `smoothstep`. -/
theorem blend_of_ge (p : ℝ) (h : 1 / 2 ≤ s) :
    blend (exactNum ℝ) p s =
      (2 - 2 * s) * smoothstep (exactNum ℝ) p + (2 * s - 1) * hardstep (exactNum ℝ) p := by
  obtain rfl | h := h.eq_or_lt
  · rw [blend_of_le p le_rfl]; ring
  · rw [exact_blend, if_neg h.not_ge, exact_smoothstep, exact_hardstep]; ring

@[simp] theorem blend_phase_zero (s : ℝ) : blend (exactNum ℝ) 0 s = 0 := by
  rw [exact_blend]; norm_num

@[simp] theorem blend_phase_one (s : ℝ) : blend (exactNum ℝ) 1 s = 1 := by
  rw [exact_blend]; norm_num

theorem blend_phase_half_of_le (h : s ≤ 1 / 2) : blend (exactNum ℝ) (1 / 2) s = 1 / 2 := by
  rw [blend_of_le _ h, exact_smoothstep]; ring

theorem blend_phase_half_of_ge (h : 1 / 2 ≤ s) : blend (exactNum ℝ) (1 / 2) s = s := by
  rw [blend_of_ge _ h, exact_smoothstep, hardstep_above le_rfl]; ring

@[simp] theorem blend_soft_zero (p : ℝ) : blend (exactNum ℝ) p 0 = p := by
  rw [blend_of_le p (by norm_num)]; ring

theorem blend_soft_half (p : ℝ) : blend (exactNum ℝ) p (1 / 2) = smoothstep (exactNum ℝ) p := by
  rw [blend_of_le p le_rfl]; ring

@[simp] theorem blend_soft_one (p : ℝ) : blend (exactNum ℝ) p 1 = hardstep (exactNum ℝ) p := by
  rw [blend_of_ge p (by norm_num)]; ring

/-- All three shapes are nondecreasing, and the blend weighs them by nonnegative weights. -/
theorem blend_monotoneOn (h0 : 0 ≤ s) (h1 : s ≤ 1) :
    MonotoneOn (fun p => blend (exactNum ℝ) p s) (Set.Icc 0 1) := by
  intro p hp p' hp' h
  have hsmooth := smoothstep_monotoneOn hp hp' h
  obtain hs | hs := le_total s (1 / 2)
  · simp only [blend_of_le _ hs]
    exact add_le_add (mul_le_mul_of_nonneg_left h (by linarith)) (mul_le_mul_of_nonneg_left hsmooth (by linarith))
  · simp only [blend_of_ge _ hs]
    exact add_le_add (mul_le_mul_of_nonneg_left hsmooth (by linarith))
      (mul_le_mul_of_nonneg_left (hardstep_monotone h) (by linarith))

/-- The blend stays between its values at the end points. -/
theorem blend_mem_Icc (hp : p ∈ Set.Icc 0 1) (h0 : 0 ≤ s) (h1 : s ≤ 1) :
    blend (exactNum ℝ) p s ∈ Set.Icc 0 1 := by
  have hmono := blend_monotoneOn h0 h1
  have hlo := hmono (Set.left_mem_Icc.2 zero_le_one) hp hp.1
  have hhi := hmono hp (Set.right_mem_Icc.2 zero_le_one) hp.2
  simp only [blend_phase_zero, blend_phase_one] at hlo hhi
  exact ⟨hlo, hhi⟩

/-- Every shape is symmetric about the mid point, but `hardstep` at the mid point itself. -/
theorem blend_one_sub (h : p ≠ 1 / 2 ∨ s ≤ 1 / 2) :
    blend (exactNum ℝ) (1 - p) s = 1 - blend (exactNum ℝ) p s := by
  obtain hs | hs := le_or_gt s (1 / 2)
  · simp only [blend_of_le _ hs, smoothstep_one_sub]; ring
  · rw [blend_of_ge _ hs.le, blend_of_ge _ hs.le, smoothstep_one_sub, hardstep_one_sub (h.resolve_right hs.not_ge)]
    ring

/-! ### The distance from the line -/

theorem abs_hardstep_sub_le (hp : p ∈ Set.Icc 0 1) : |hardstep (exactNum ℝ) p - p| ≤ 1 / 2 := by
  obtain ⟨h0, h1⟩ := hp
  obtain h | h := lt_or_ge p (1 / 2)
  · rw [hardstep_below h, abs_le]; constructor <;> linarith
  · rw [hardstep_above h, abs_le]; constructor <;> linarith

theorem phase_eq_half_of_abs_hardstep_sub (hp : p ∈ Set.Icc 0 1) (h : |hardstep (exactNum ℝ) p - p| = 1 / 2) :
    p = 1 / 2 := by
  obtain ⟨h0, h1⟩ := hp
  obtain hlt | hge := lt_or_ge p (1 / 2)
  · rw [hardstep_below hlt, zero_sub, abs_neg, abs_of_nonneg h0] at h; exact h
  · rw [hardstep_above hge, abs_of_nonneg (by linarith)] at h; linarith

theorem abs_smoothstep_sub_le (hp : p ∈ Set.Icc 0 1) : |smoothstep (exactNum ℝ) p - p| ≤ 1 / 4 := by
  obtain ⟨h0, h1⟩ := hp
  have hfactor : smoothstep (exactNum ℝ) p - p = p * (1 - p) * (2 * p - 1) := by rw [exact_smoothstep]; ring
  have hprod : |p * (1 - p)| ≤ 1 / 4 := by
    rw [abs_of_nonneg (mul_nonneg h0 (by linarith))]; nlinarith [sq_nonneg (2 * p - 1)]
  have hlast : |2 * p - 1| ≤ 1 := abs_le.2 ⟨by linarith, by linarith⟩
  rw [hfactor, abs_mul]
  nlinarith [abs_nonneg (p * (1 - p)), abs_nonneg (2 * p - 1)]

/-- The blend is at most half the softness away from the line. -/
theorem abs_blend_sub_le (hp : p ∈ Set.Icc 0 1) (h0 : 0 ≤ s) (h1 : s ≤ 1) :
    |blend (exactNum ℝ) p s - p| ≤ s / 2 := by
  obtain ⟨hlo, hhi⟩ := abs_le.1 (abs_smoothstep_sub_le hp)
  obtain hs | hs := le_total s (1 / 2)
  · have hmix : blend (exactNum ℝ) p s - p = 2 * s * (smoothstep (exactNum ℝ) p - p) := by
      rw [blend_of_le p hs]; ring
    rw [hmix, abs_le]; constructor <;> nlinarith
  · have hmix : blend (exactNum ℝ) p s - p =
        (2 - 2 * s) * (smoothstep (exactNum ℝ) p - p) + (2 * s - 1) * (hardstep (exactNum ℝ) p - p) := by
      rw [blend_of_ge p hs]; ring
    obtain ⟨hlo', hhi'⟩ := abs_le.1 (abs_hardstep_sub_le hp)
    rw [hmix, abs_le]; constructor <;> nlinarith

theorem abs_blend_sub_le_half (hp : p ∈ Set.Icc 0 1) (h0 : 0 ≤ s) (h1 : s ≤ 1) :
    |blend (exactNum ℝ) p s - p| ≤ 1 / 2 :=
  (abs_blend_sub_le hp h0 h1).trans (by linarith)

/-- Only the hard blend, and only at the mid point, is a half away from the line. -/
theorem soft_one_of_abs_blend_sub (hp : p ∈ Set.Icc 0 1) (h0 : 0 ≤ s) (h1 : s ≤ 1)
    (h : |blend (exactNum ℝ) p s - p| = 1 / 2) : s = 1 ∧ p = 1 / 2 := by
  have hs : s = 1 := by linarith [abs_blend_sub_le hp h0 h1]
  subst hs
  rw [blend_soft_one] at h
  exact ⟨rfl, phase_eq_half_of_abs_hardstep_sub hp h⟩

/-! ### Continuity -/

theorem continuous_blend_soft (p : ℝ) : Continuous fun s => blend (exactNum ℝ) p s := by
  simp only [exact_blend]
  refine Continuous.if_le (by fun_prop) (by fun_prop) continuous_id continuous_const ?_
  rintro s rfl
  ring

theorem continuous_blend_phase (h : s ≤ 1 / 2) : Continuous fun p => blend (exactNum ℝ) p s := by
  simp only [blend_of_le _ h]
  exact (continuous_const.mul continuous_id).add (continuous_const.mul continuous_smoothstep)

/-- Away from the mid point the blend is continuous in the phase at every softness. -/
theorem continuousAt_blend_phase (s : ℝ) (hp : p ≠ 1 / 2) : ContinuousAt (fun p => blend (exactNum ℝ) p s) p := by
  obtain hs | hs := le_total s (1 / 2)
  · exact (continuous_blend_phase hs).continuousAt
  · simp only [blend_of_ge _ hs]
    exact (continuousAt_const.mul continuous_smoothstep.continuousAt).add
      (continuousAt_const.mul (continuousAt_hardstep hp))

/-- Below the mid point `hardstep` adds nothing, so the left limit there is that of `smoothstep` alone. -/
theorem tendsto_blend_below_half (h : 1 / 2 ≤ s) :
    Filter.Tendsto (fun p => blend (exactNum ℝ) p s) (nhdsWithin (1 / 2) (Set.Iio (1 / 2)))
      (nhds (s - (2 * s - 1))) := by
  have hcont : Continuous fun p => (2 - 2 * s) * smoothstep (exactNum ℝ) p :=
    continuous_const.mul continuous_smoothstep
  have hval : (2 - 2 * s) * smoothstep (exactNum ℝ) (1 / 2) = s - (2 * s - 1) := by rw [exact_smoothstep]; ring
  rw [← hval]
  refine (hcont.tendsto (1 / 2)).mono_left nhdsWithin_le_nhds |>.congr' ?_
  filter_upwards [self_mem_nhdsWithin] with p hp
  rw [blend_of_ge p h, hardstep_below hp, mul_zero, add_zero]

end Sys2Proof.Machine
end

section
/-! SUPPORT. The Quantizer on a grid of step 1: cell `k` carries the blend from `k` to `k + 1`. On an odd level count
the Quantizer is this curve, scaled by its step (`quantize_eq_unitStairs`). -/

namespace Sys2Proof.Machine

/-- The Quantizer on a grid of step 1: the floor, and the blend of what is above it. -/
noncomputable def unitStairs (s y : ℝ) : ℝ := ⌊y⌋ + blend (exactNum ℝ) (y - ⌊y⌋) s

variable {s y : ℝ}

theorem sub_floor_mem_Icc (y : ℝ) : y - ⌊y⌋ ∈ Set.Icc (0 : ℝ) 1 :=
  ⟨sub_nonneg.2 (Int.floor_le y), (sub_lt_iff_lt_add'.2 (Int.lt_floor_add_one y)).le⟩

/-- A closed cell, its upper end included: there the blend is 1, which is where the next cell begins. -/
theorem unitStairs_of_mem_cell (s : ℝ) {k : ℤ} (h0 : k ≤ y) (h1 : y ≤ k + 1) :
    unitStairs s y = k + blend (exactNum ℝ) (y - k) s := by
  obtain rfl | h1 := h1.eq_or_lt
  · have hfloor : ⌊(k : ℝ) + 1⌋ = k + 1 := by exact_mod_cast Int.floor_intCast (R := ℝ) (k + 1)
    rw [unitStairs, hfloor]
    simp
  · rw [unitStairs, Int.floor_eq_iff.2 ⟨h0, h1⟩]

@[simp] theorem unitStairs_intCast (s : ℝ) (k : ℤ) : unitStairs s k = k := by
  simp [unitStairs]

theorem unitStairs_soft_one (y : ℝ) : unitStairs 1 y = round y := by
  rw [unitStairs, blend_soft_one]
  obtain h | h := lt_or_ge (y - ⌊y⌋) (1 / 2)
  · have hround : round y = ⌊y⌋ := round_eq_iff.2 ⟨by linarith [Int.floor_le y], by linarith⟩
    rw [hardstep_below h, hround, add_zero]
  · have hround : round y = ⌊y⌋ + 1 :=
      round_eq_iff.2 ⟨by push_cast; linarith, by push_cast; linarith [Int.lt_floor_add_one y]⟩
    rw [hardstep_above h, hround]
    push_cast; ring

theorem unitStairs_mem_cell (h0 : 0 ≤ s) (h1 : s ≤ 1) (y : ℝ) : unitStairs s y ∈ Set.Icc (⌊y⌋ : ℝ) (⌊y⌋ + 1) := by
  obtain ⟨hlo, hhi⟩ := blend_mem_Icc (sub_floor_mem_Icc y) h0 h1
  exact ⟨le_add_of_nonneg_right hlo, by rw [unitStairs]; gcongr⟩

/-- Within a cell the blend is monotone, and different cells do not overlap. -/
theorem unitStairs_monotone (h0 : 0 ≤ s) (h1 : s ≤ 1) : Monotone (unitStairs s) := by
  intro y y' h
  obtain heq | hlt := (Int.floor_mono h).eq_or_lt
  · have hphase : y - ⌊y⌋ ≤ y' - ⌊y'⌋ := by rw [heq]; linarith
    have hblend := blend_monotoneOn h0 h1 (sub_floor_mem_Icc y) (sub_floor_mem_Icc y') hphase
    rw [unitStairs, unitStairs]
    exact add_le_add (by rw [heq]) hblend
  · have hcell : (⌊y⌋ : ℝ) + 1 ≤ ⌊y'⌋ := by exact_mod_cast hlt
    exact (unitStairs_mem_cell h0 h1 y).2.trans (hcell.trans (unitStairs_mem_cell h0 h1 y').1)

/-- The mirror image of cell `k` is cell `−k − 1`, read from its other end. -/
theorem unitStairs_neg (s y : ℝ) :
    unitStairs s (-y) = -(⌊y⌋ + 1) + blend (exactNum ℝ) (1 - (y - ⌊y⌋)) s := by
  obtain ⟨h0, h1⟩ := sub_floor_mem_Icc y
  rw [unitStairs_of_mem_cell (k := -(⌊y⌋ + 1)) s (by push_cast; linarith) (by push_cast; linarith)]
  push_cast
  congr 2
  ring

theorem unitStairs_odd (h : y - ⌊y⌋ ≠ 1 / 2 ∨ s ≤ 1 / 2) : unitStairs s (-y) = -unitStairs s y := by
  rw [unitStairs_neg, blend_one_sub h, unitStairs]; ring

/-- At the mid point of a cell the mirrored curve lies higher by the jump there. -/
theorem unitStairs_neg_midpoint (h : y - ⌊y⌋ = 1 / 2) (hs : 1 / 2 < s) :
    unitStairs s (-y) - -unitStairs s y = 2 * s - 1 := by
  have hhalf : (1 : ℝ) - 1 / 2 = 1 / 2 := by norm_num
  rw [unitStairs_neg, unitStairs, h, hhalf, blend_phase_half_of_ge hs.le]; ring

/-- Two neighbouring cells meet: each is continuous up to the boundary, and both have its value there. -/
theorem continuousAt_unitStairs (s : ℝ) (j : ℤ) : ContinuousAt (unitStairs s) j := by
  have hcell (k : ℤ) (hk : (j : ℝ) - k ≠ 1 / 2) : ContinuousAt (fun y => k + blend (exactNum ℝ) (y - k) s) (j : ℝ) :=
    continuousAt_const.add ((continuousAt_blend_phase s hk).comp (f := fun y => y - (k : ℝ)) (by fun_prop))
  refine continuousAt_iff_continuous_left_right.2 ⟨?_, ?_⟩
  · refine (hcell (j - 1) (by push_cast; norm_num)).continuousWithinAt.congr_of_eventuallyEq_of_mem ?_
      Set.self_mem_Iic
    filter_upwards [self_mem_nhdsWithin, mem_nhdsWithin_of_mem_nhds (Ioi_mem_nhds (sub_one_lt (j : ℝ)))] with y hy hy'
    exact unitStairs_of_mem_cell s (by push_cast; exact hy'.le) (by push_cast; simpa using hy)
  · refine (hcell j (by norm_num)).continuousWithinAt.congr_of_eventuallyEq_of_mem ?_ Set.self_mem_Ici
    filter_upwards [self_mem_nhdsWithin, mem_nhdsWithin_of_mem_nhds (Iio_mem_nhds (lt_add_one (j : ℝ)))] with y hy hy'
    exact unitStairs_of_mem_cell s hy hy'.le

/-! ### The Quantizer as the scaled curve -/

section
variable {L m : Nat} {x : ℝ} (hm : 1 ≤ m) (hstep : gridStep (exactNum ℝ) L = 1 / m)
include hm hstep

section
variable (h1 : -1 ≤ x) (h2 : x ≤ 1)
include h1 h2

/-- A full-scale sample on an odd level count. -/
theorem quantize_eq_unitStairs : quantize (exactNum ℝ) x L s = unitStairs s (x * m) / m := by
  refine exact_quantize s ?_ hm hstep h1 h2
  rintro rfl
  have : (0 : ℝ) < 1 / m := by positivity
  simp [← hstep] at this

/-- At softness 1 the sample goes to the nearest level, exact half steps up. -/
theorem quantize_hard : quantize (exactNum ℝ) x L 1 = round (x * m) / m := by
  rw [quantize_eq_unitStairs hm hstep h1 h2, unitStairs_soft_one]

/-- Above the last index there is no level left: the clamp acts at `x = 1` only (40_quantizer.md R84). -/
theorem gridHigh_eq :
    gridHigh (exactNum ℝ) x L = if x = 1 then 1 else (gridIndex (exactNum ℝ) x L + 1) * gridStep (exactNum ℝ) L := by
  obtain ⟨k, hk, hfloor, hlo, hhi, _, _⟩ := grid_spec hm hstep h1 h2
  have m0 : (0 : ℝ) < m := by positivity
  have hlevel : (exactNum ℝ).mul (toF (exactNum ℝ) (k + 1)) (gridStep (exactNum ℝ) L) = (k + 1) / m := by
    rw [exact_mul, exact_toF, hstep, mul_one_div]; push_cast; rfl
  rw [gridHigh, gridLevel, ← hk, hlevel, hstep, mul_one_div]
  split_ifs with hx
  · have hlast : k = m := by rw [hfloor, hx, one_mul, Int.floor_natCast]
    have habove : (1 : ℝ) < (k + 1) / m := by rw [hlast, lt_div_iff₀ m0]; push_cast; linarith
    simp [clamp, habove, (by linarith : ¬ ((k : ℝ) + 1) / m < -1)]
  · have hlt : (k : ℝ) < m := (Int.floor_eq_iff.1 hfloor.symm).1.trans_lt (mul_lt_of_lt_one_left m0 (h2.lt_of_ne hx))
    have hle : (k : ℝ) + 1 ≤ m := by exact_mod_cast hlt
    have hge : -(m : ℝ) ≤ k := by exact_mod_cast hlo
    refine exact_clamp_id ?_ ?_
    · rw [exact_toF, le_div_iff₀ m0]; push_cast; linarith
    · rw [exact_toF, div_le_iff₀ m0]; push_cast; linarith

theorem gridPhase_eq : gridPhase (exactNum ℝ) x L = x * m - ⌊x * m⌋ := by
  obtain ⟨k, _, hfloor, _, _, _, hphase⟩ := grid_spec hm hstep h1 h2
  rw [hphase, hfloor]

theorem gridPhase_mem_Icc : gridPhase (exactNum ℝ) x L ∈ Set.Icc 0 1 :=
  gridPhase_eq hm hstep h1 h2 ▸ sub_floor_mem_Icc _

/-- A grid level maps to itself at every softness. -/
theorem quantize_gridLevel {j : ℤ} (hj : x = j * gridStep (exactNum ℝ) L) :
    quantize (exactNum ℝ) x L s = x := by
  have m0 : (m : ℝ) ≠ 0 := by positivity
  have hscale : x * m = j := by rw [hj, hstep, mul_one_div, div_mul_cancel₀ _ m0]
  rw [quantize_eq_unitStairs hm hstep h1 h2, hscale, unitStairs_intCast, ← hscale, mul_div_cancel_right₀ x m0]

theorem quantize_odd (h : gridPhase (exactNum ℝ) x L ≠ 1 / 2 ∨ s ≤ 1 / 2) :
    quantize (exactNum ℝ) (-x) L s = -quantize (exactNum ℝ) x L s := by
  rw [gridPhase_eq hm hstep h1 h2] at h
  rw [quantize_eq_unitStairs hm hstep h1 h2, quantize_eq_unitStairs hm hstep (neg_le_neg h2) (neg_le.1 h1), neg_mul,
    unitStairs_odd h, neg_div]

theorem quantize_neg_midpoint (h : gridPhase (exactNum ℝ) x L = 1 / 2) (hs : 1 / 2 < s) :
    quantize (exactNum ℝ) (-x) L s - -quantize (exactNum ℝ) x L s = (2 * s - 1) * gridStep (exactNum ℝ) L := by
  rw [gridPhase_eq hm hstep h1 h2] at h
  rw [quantize_eq_unitStairs hm hstep h1 h2, quantize_eq_unitStairs hm hstep (neg_le_neg h2) (neg_le.1 h1), neg_mul,
    ← neg_div, ← sub_div, unitStairs_neg_midpoint h hs, hstep, mul_one_div]

end

theorem quantize_zero (s : ℝ) : quantize (exactNum ℝ) 0 L s = 0 :=
  quantize_gridLevel hm hstep (by norm_num) (by norm_num) (j := 0) (by simp)

theorem quantize_one (s : ℝ) : quantize (exactNum ℝ) 1 L s = 1 :=
  quantize_gridLevel hm hstep (by norm_num) le_rfl (j := m) (by rw [hstep]; push_cast; field_simp)

theorem quantize_neg_one (s : ℝ) : quantize (exactNum ℝ) (-1) L s = -1 :=
  quantize_gridLevel hm hstep le_rfl (by norm_num) (j := -m) (by rw [hstep]; push_cast; field_simp)

theorem quantize_monotoneOn (h0 : 0 ≤ s) (h1 : s ≤ 1) :
    MonotoneOn (fun x => quantize (exactNum ℝ) x L s) (Set.Icc (-1) 1) := by
  intro x hx x' hx' h
  simp only [quantize_eq_unitStairs hm hstep hx.1 hx.2, quantize_eq_unitStairs hm hstep hx'.1 hx'.2]
  exact div_le_div_of_nonneg_right (unitStairs_monotone h0 h1 (by gcongr)) m.cast_nonneg

/-- Monotone, and fixed at both ends of full scale. -/
theorem quantize_mem_full (hx1 : -1 ≤ x) (hx2 : x ≤ 1) (h0 : 0 ≤ s) (h1 : s ≤ 1) :
    -1 ≤ quantize (exactNum ℝ) x L s ∧ quantize (exactNum ℝ) x L s ≤ 1 := by
  have hmono := quantize_monotoneOn hm hstep h0 h1
  have hlo := hmono (Set.left_mem_Icc.2 (by norm_num)) ⟨hx1, hx2⟩ hx1
  have hhi := hmono ⟨hx1, hx2⟩ (Set.right_mem_Icc.2 (by norm_num)) hx2
  simp only [quantize_one hm hstep, quantize_neg_one hm hstep] at hlo hhi
  exact ⟨hlo, hhi⟩

end

/-- Three levels, the step being 1. -/
theorem quantize_three_hard {x : ℝ} (h1 : -1 ≤ x) (h2 : x ≤ 1) : quantize (exactNum ℝ) x 3 1 = ⌊x + 1 / 2⌋ := by
  rw [quantize_hard (m := 1) le_rfl (by norm_num) h1 h2, Nat.cast_one, mul_one, div_one, round_eq]

/-! ### Any level count of two or more -/

section
variable {L : Nat} {x : ℝ}

/-- The Quantizer's fifth step (40_quantizer.md R86). -/
theorem quantize_eq (h : 2 ≤ L) (x s : ℝ) : quantize (exactNum ℝ) x L s =
    gridLow (exactNum ℝ) x L + blend (exactNum ℝ) (gridPhase (exactNum ℝ) x L) s * gridStep (exactNum ℝ) L := by
  rw [quantize, if_neg (by omega)]; rfl

theorem gridStep_pos (h : 2 ≤ L) : 0 < gridStep (exactNum ℝ) L := by
  have : (2 : ℝ) ≤ L := by exact_mod_cast h
  rw [exact_gridStep]
  exact div_pos two_pos (by linarith)

/-- The phase times the step is what the sample has above its lower level. -/
theorem gridPhase_mul_gridStep (h : 2 ≤ L) (x : ℝ) :
    gridPhase (exactNum ℝ) x L * gridStep (exactNum ℝ) L = x - gridLow (exactNum ℝ) x L :=
  div_mul_cancel₀ _ (gridStep_pos h).ne'

theorem quantize_mem_cell (h : 2 ≤ L) (h0 : 0 ≤ s) (h1 : s ≤ 1) (hp : gridPhase (exactNum ℝ) x L ∈ Set.Icc 0 1) :
    gridLow (exactNum ℝ) x L ≤ quantize (exactNum ℝ) x L s ∧
      quantize (exactNum ℝ) x L s ≤ gridLow (exactNum ℝ) x L + gridStep (exactNum ℝ) L := by
  obtain ⟨hlo, hhi⟩ := blend_mem_Icc hp h0 h1
  have hstep := (gridStep_pos h).le
  rw [quantize_eq h]
  exact ⟨le_add_of_nonneg_right (mul_nonneg hlo hstep), by gcongr; exact mul_le_of_le_one_left hstep hhi⟩

theorem quantize_sub_self (h : 2 ≤ L) (x s : ℝ) : quantize (exactNum ℝ) x L s - x =
    (blend (exactNum ℝ) (gridPhase (exactNum ℝ) x L) s - gridPhase (exactNum ℝ) x L) * gridStep (exactNum ℝ) L := by
  rw [quantize_eq h, sub_mul, gridPhase_mul_gridStep h]; ring

theorem abs_quantize_sub_self (h : 2 ≤ L) (x s : ℝ) : |quantize (exactNum ℝ) x L s - x| =
    |blend (exactNum ℝ) (gridPhase (exactNum ℝ) x L) s - gridPhase (exactNum ℝ) x L| * gridStep (exactNum ℝ) L := by
  rw [quantize_sub_self h, abs_mul, abs_of_pos (gridStep_pos h)]

/-- Half a step is the greatest error, and only the hard staircase at a mid point has it. -/
theorem abs_quantize_sub_self_le (h : 2 ≤ L) (h0 : 0 ≤ s) (h1 : s ≤ 1)
    (hp : gridPhase (exactNum ℝ) x L ∈ Set.Icc 0 1) :
    |quantize (exactNum ℝ) x L s - x| ≤ gridStep (exactNum ℝ) L / 2 ∧
      (|quantize (exactNum ℝ) x L s - x| = gridStep (exactNum ℝ) L / 2 →
        s = 1 ∧ gridPhase (exactNum ℝ) x L = 1 / 2) := by
  have hstep := gridStep_pos h
  rw [abs_quantize_sub_self h, ← one_div_mul_eq_div]
  exact ⟨mul_le_mul_of_nonneg_right (abs_blend_sub_le_half hp h0 h1) hstep.le,
    fun he => soft_one_of_abs_blend_sub hp h0 h1 (mul_right_cancel₀ hstep.ne' he)⟩

end

end Sys2Proof.Machine
end

section
/-! PROOFS. The statements on the Quantizer (40_quantizer.md). -/

namespace Sys2Proof.Machine

/-- Settles O45: the end points, the mid point, and what the blend has from its shapes. -/
theorem blendProperties : Obligations.BlendProperties := by
  rintro _ rfl
  refine ⟨fun s => ⟨blend_phase_zero s, blend_phase_one s⟩,
    fun s => ⟨blend_phase_half_of_le, fun h => blend_phase_half_of_ge h.le⟩,
    fun p s hp hp' h0 h1 => blend_mem_Icc ⟨hp, hp'⟩ h0 h1,
    fun p p' s hp h hp' h0 h1 => blend_monotoneOn h0 h1 ⟨hp, h.trans hp'⟩ ⟨hp.trans h, hp'⟩ h,
    fun p s => blend_one_sub, fun s hs => ?_,
    fun p => ⟨blend_soft_zero p, (blend_soft_half p).trans (exact_smoothstep p), blend_soft_one p⟩⟩
  have hhalf : (1 : ℝ) - 1 / 2 = 1 / 2 := by norm_num
  rw [hhalf, blend_phase_half_of_ge hs.le]
  exact ⟨rfl, rfl⟩

/-- Settles O46: the blend by its shapes, and the Quantizer as the scaled curve, whose cells meet at the boundaries. -/
theorem transitionContinuity : Obligations.TransitionContinuity := by
  refine ⟨continuous_blend_soft, fun s => continuous_blend_phase, fun s hs =>
    ⟨fun p hp => (continuousAt_blend_phase s hp).continuousWithinAt, tendsto_blend_below_half hs.le,
      blend_phase_half_of_ge hs.le⟩, fun L s j hodd h3 _ _ hj => ?_⟩
  obtain ⟨m, hm, rfl, hstep⟩ := gridStep_odd hodd h3
  have hm0 : (m : ℝ) ≠ 0 := by positivity
  have hscale : j * gridStep (exactNum ℝ) (2 * m + 1) * m = j := by rw [hstep]; field_simp
  have hcurve : ContinuousAt (fun x => unitStairs s (x * m) / m) (j * gridStep (exactNum ℝ) (2 * m + 1)) := by
    refine ContinuousAt.div_const (ContinuousAt.comp (g := unitStairs s) ?_ (by fun_prop)) _
    rw [hscale]
    exact continuousAt_unitStairs s j
  exact hcurve.continuousWithinAt.congr_of_mem
    (fun x hx => quantize_eq_unitStairs hm hstep hx.1 hx.2) (abs_le.1 hj)

/-! ### The grid -/

/-- Settles O47: the cell of the sample is `grid_spec`; the upper level is clamped only for the last one. -/
theorem quantizerGrid : Obligations.QuantizerGrid := by
  rintro L x _ k hodd h3 h1 h2 rfl hk
  obtain ⟨m, hm, rfl, hstep⟩ := gridStep_odd hodd h3
  obtain ⟨_, rfl, hfloor, hlo, hhi, hlow, hphase⟩ := grid_spec hm hstep h1 h2
  have m0 : (0 : ℝ) < m := by positivity
  rw [← hk] at hfloor hlo hhi hlow hphase
  have hcell : (k : ℝ) ≤ x * m ∧ x * m < k + 1 := Int.floor_eq_iff.1 hfloor.symm
  have hside : ((2 * m + 1 : Nat) - 1 : ℤ) / 2 = m := by omega
  refine ⟨exact_gridStep _, by rwa [hside], by rwa [hside], ?_, ?_, ?_, ?_, ?_, ?_, ?_⟩
  · rw [hstep, mul_one_div, div_le_iff₀ m0]; exact hcell.1
  · rw [hstep, mul_one_div, lt_div_iff₀ m0]; exact hcell.2
  · rw [hlow, hstep, mul_one_div]
  · rw [gridHigh_eq hm hstep h1 h2, ← hk]
  · rw [hphase]; linarith
  · rw [hphase]; linarith
  · rw [hphase, hstep, sub_eq_zero]
    simp only [mul_one_div, eq_div_iff m0.ne']
    exact ⟨fun h => ⟨k, h⟩, fun ⟨j, hj⟩ => by rw [hj, hfloor, hj, Int.floor_intCast]⟩

/-- Settles O48: at the landmark softnesses the blend is one of its shapes, and the hard curve rounds. -/
theorem quantizerLandmarks : Obligations.QuantizerLandmarks := by
  rintro L x _ _ _ h2 hx1 hx2 rfl rfl rfl
  refine ⟨?_, ?_, ?_, fun hodd j => ?_⟩
  · rw [quantize_eq h2, blend_soft_zero, gridPhase_mul_gridStep h2, add_sub_cancel]
  · rw [quantize_eq h2, blend_soft_one, exact_hardstep]
    split
    · rw [zero_mul, add_zero]
    · rw [one_mul]
  · rw [quantize_eq h2, blend_soft_half, exact_smoothstep]
  · obtain ⟨m, hm, rfl, hstep⟩ := gridStep_odd hodd (by omega)
    have m0 : (0 : ℝ) < m := by positivity
    have hscale (y : ℝ) : |y / m - x| = |x * m - y| / m := by
      have hfactor : y / m - x = (y - x * m) / m := by field_simp
      rw [hfactor, abs_div, abs_of_pos m0, abs_sub_comm]
    rw [quantize_hard hm hstep hx1 hx2, hstep, mul_one_div, hscale, hscale]
    exact div_le_div_of_nonneg_right (round_le (x * m) j) m0.le

/-- Settles O49: range and error are the blend's, the rest is read off the scaled curve. -/
theorem quantizerRangeErrorAndSymmetry : Obligations.QuantizerRangeErrorAndSymmetry := by
  refine ⟨?_, fun L s hodd h3 _ _ => ?_, ?_, ?_⟩
  · rintro L x s _ _ _ _ hodd h3 hx1 hx2 h0 h1 rfl rfl rfl rfl
    obtain ⟨m, hm, rfl, hstep⟩ := gridStep_odd hodd h3
    have hp := gridPhase_mem_Icc hm hstep hx1 hx2
    have hL : 2 ≤ 2 * m + 1 := by omega
    obtain ⟨hlow, hhigh⟩ := quantize_mem_cell hL h0 h1 hp
    exact ⟨⟨hlow, hhigh, quantize_mem_full hm hstep hx1 hx2 h0 h1⟩,
      ⟨quantize_sub_self hL x s, abs_blend_sub_le_half hp h0 h1, abs_quantize_sub_self_le hL h0 h1 hp⟩,
      fun ⟨j, hj⟩ => quantize_gridLevel hm hstep hx1 hx2 hj,
      fun x' h h' => quantize_monotoneOn hm hstep h0 h1 ⟨hx1, hx2⟩ ⟨hx1.trans h, h'⟩ h,
      quantize_odd hm hstep hx1 hx2, quantize_neg_midpoint hm hstep hx1 hx2⟩
  · obtain ⟨m, hm, rfl, hstep⟩ := gridStep_odd hodd h3
    exact ⟨quantize_zero hm hstep s, quantize_one hm hstep s, quantize_neg_one hm hstep s⟩
  · rw [quantize_three_hard (by norm_num) (by norm_num)]; norm_num
  · rw [quantize_three_hard (by norm_num) (by norm_num)]; norm_num

/-! ### The single level and the worked example -/

/-- Settles O37: the shortcut returns the literal zero before anything else is computed. -/
theorem singleLevelGivesZero : Obligations.SingleLevelGivesZero :=
  ⟨fun _ _ => (if_pos rfl).trans fLit_zero, fun _ _ => (if_pos rfl).trans ((exact_toF 0).trans Int.cast_zero)⟩

/-- Settles O50: every value is rational, and the reference reading computes over the rational numbers. -/
theorem quantizerWorkedExample : Obligations.QuantizerWorkedExample := by
  unfold Obligations.QuantizerWorkedExample
  decide +kernel

end Sys2Proof.Machine
end

section
/-! SUPPORT. The signed power of the warp (41_gammawarp.md R101, R102) as the sign of the sample times the power of its
magnitude: exactly so in the datapath reading too, since a product with a sign does not round. -/

namespace Sys2Proof.Machine

/-! ### Signs in the datapath reading -/

theorem fVal_sign {v : Word} (h : fIsNaN v = false) : fVal (sign b32 v) = (fVal v).sign * 2 ^ 149 := by
  have h0 := fLit_zero ▸ notNaN_zero
  simp only [sign, b32_lt, b32_toF, fLt_iff h h0, fLt_iff h0 h]
  rw [fLit_zero, fVal_zero]
  split_ifs with hneg hpos
  · rw [Int.sign_eq_neg_one_of_neg hneg, fVal_negOne]; rfl
  · rw [Int.sign_eq_one_of_pos hpos, fVal_one, one_mul]
  · rw [show fVal v = 0 by omega, fVal_zero, Int.sign_zero, zero_mul]

theorem representable_sign_mul (v : Int) {w : Word} (h : fIsNaN w = false) : Representable (v.sign * fVal w) := by
  obtain hs | hs | hs := Int.sign_trichotomy v <;> rw [hs]
  · simpa using representable_fVal h
  · simpa using representable_zero
  · simpa using representable_neg (representable_fVal h)

/-- A product with a sign is exact. -/
theorem fMul_sign {v m : Word} (hv : fIsNaN v = false) (hm : fIsFinite m = true) :
    fIsNaN (fMul (sign b32 v) m) = false ∧ fVal (fMul (sign b32 v) m) = (fVal v).sign * fVal m := by
  obtain ⟨hn, hval⟩ := fMul_spec ((bounded_sign v).finite (by norm_num)) hm
  refine ⟨hn, ?_⟩
  rw [hval, fVal_sign hv, mul_right_comm]
  exact_mod_cast roundVal_exact (d := 2 ^ 149) (by positivity) (representable_sign_mul (fVal v) (notNaN_of_finite hm))

@[simp] theorem fAbs_fNeg (w : Word) : fAbs (fNeg w) = fAbs w := by simp [fAbs]

/-! ### The warp of a full-scale sample in the datapath reading -/

section
variable {cfg : Config Word} {e : Word} (hpow : PowNamed b32 cfg.pow) (he : within b32 e (fLit 1 10) (fLit 10 1) = true)
include hpow he

/-- The magnitude of a full-scale sample has a power in `[0, 1]` ([POW-range]). -/
theorem inUnit_pow_fAbs {x : Word} (hx : Bounded 0 x) : inUnit (cfg.pow (fAbs x) e) = true := by
  refine within_unit_iff.1 (hpow.range _ e (within_unit_iff.2 (inUnit_iff.2 ?_)) (warpExponent_pos he))
  simpa [hx.1] using hx.2

/-- The warped sample is the sign of the sample times the power of its magnitude, of full scale. -/
theorem signedPow_spec {x : Word} (hx : Bounded 0 x) :
    Bounded 0 (signedPow b32 cfg x e) ∧
      fVal (signedPow b32 cfg x e) = (fVal x).sign * fVal (cfg.pow (fAbs x) e) := by
  have hp := inUnit_bounded (inUnit_pow_fAbs hpow he hx)
  have hfin := hp.finite (by norm_num)
  obtain ⟨hn, hle⟩ := sign_mul_spec x hfin
  exact ⟨⟨hn, hle.trans hp.2⟩, (fMul_sign hx.1 hfin).2⟩

theorem signedPow_isZero {x : Word} (hx : Bounded 0 x) (h : fIsZero x = true) :
    fIsZero (signedPow b32 cfg x e) = true := by
  obtain ⟨hb, hval⟩ := signedPow_spec hpow he hx
  rw [isZero_iff hb.1, hval, fVal_of_isZero h, Int.sign_zero, zero_mul]

theorem signedPow_keeps_sign {x : Word} (hx : Bounded 0 x) : 0 ≤ fVal (signedPow b32 cfg x e) * fVal x := by
  obtain ⟨_, hpos, _⟩ := inUnit_iff.1 (inUnit_pow_fAbs hpow he hx)
  rw [(signedPow_spec hpow he hx).2, mul_right_comm, Int.sign_mul_self]
  exact mul_nonneg (by positivity) hpos

/-- `±1` goes to itself ([POW-one]). -/
theorem signedPow_of_abs_one {x : Word} (hx : Bounded 0 x) (h : |fVal x| = 2 ^ 149) :
    fVal (signedPow b32 cfg x e) = fVal x := by
  have hone : sameValue b32 (fAbs x) (toF b32 1) = true :=
    sameValue_iff.2 ⟨by simpa using hx.1, notNaN_one, by rw [fVal_fAbs, h, b32_toF, fVal_one]⟩
  obtain ⟨_, _, hp⟩ := sameValue_iff.1 (hpow.one _ e hone (warpExponent_pos he))
  rw [(signedPow_spec hpow he hx).2, hp, b32_toF, fVal_one, ← h, Int.sign_mul_abs]

theorem signedPow_fNeg {x : Word} (hx : Bounded 0 x) :
    fVal (signedPow b32 cfg (fNeg x) e) = -fVal (signedPow b32 cfg x e) := by
  rw [(signedPow_spec hpow he (bounded_neg hx)).2, (signedPow_spec hpow he hx).2, fAbs_fNeg, fVal_fNeg, Int.sign_neg,
    neg_mul]

variable (hmono : PowMono b32 cfg.pow)
include hmono

/-- From zero up the warp is the power itself, which is nondecreasing ([POW-mono]). -/
theorem signedPow_mono_of_nonneg {x y : Word} (hx : Bounded 0 x) (hy : Bounded 0 y) (h0 : 0 ≤ fVal x)
    (h : fVal x ≤ fVal y) : fVal (signedPow b32 cfg x e) ≤ fVal (signedPow b32 cfg y e) := by
  have hle : b32.le (fAbs x) (fAbs y) = true := by
    rw [b32_le, fLe_iff (by simpa using hx.1) (by simpa using hy.1), fVal_fAbs, fVal_fAbs]
    exact abs_le_abs_of_nonneg h0 h
  have hnonneg : b32.le (toF b32 0) (fAbs x) = true := toF_zero_le_iff.2 ⟨by simpa using hx.1, by simp⟩
  obtain ⟨_, _, hp⟩ := fLe_dest (hmono _ _ e hnonneg hle (warpExponent_pos he))
  obtain ⟨_, hpx, _⟩ := inUnit_iff.1 (inUnit_pow_fAbs hpow he hx)
  rw [(signedPow_spec hpow he hx).2, (signedPow_spec hpow he hy).2]
  obtain hzero | hpos := h0.eq_or_lt
  · rw [← hzero, Int.sign_zero, zero_mul]
    exact mul_nonneg (Int.sign_nonneg_iff.2 (h0.trans h)) (hpx.trans hp)
  · rwa [Int.sign_eq_one_of_pos hpos, Int.sign_eq_one_of_pos (hpos.trans_le h), one_mul, one_mul]

/-- Below zero the warp mirrors what it does above, and it keeps the sign. -/
theorem signedPow_mono {x y : Word} (hx : Bounded 0 x) (hy : Bounded 0 y) (h : fVal x ≤ fVal y) :
    fVal (signedPow b32 cfg x e) ≤ fVal (signedPow b32 cfg y e) := by
  obtain h0 | hneg := le_or_gt 0 (fVal x)
  · exact signedPow_mono_of_nonneg hpow he hmono hx hy h0 h
  obtain hy0 | hpos := le_or_gt (fVal y) 0
  · have hmirror := signedPow_mono_of_nonneg hpow he hmono (bounded_neg hy) (bounded_neg hx)
      (by simpa using hy0) (by simpa using h)
    simpa [signedPow_fNeg hpow he hx, signedPow_fNeg hpow he hy] using hmirror
  · exact (nonpos_of_mul_nonneg_left (signedPow_keeps_sign hpow he hx) hneg).trans
      (nonneg_of_mul_nonneg_left (signedPow_keeps_sign hpow he hy) hpos)

end

/-- The exponent 1 keeps every finite sample ([POW-id]). -/
theorem signedPow_exponent_one {cfg : Config Word} (hpow : PowNamed b32 cfg.pow) {x e : Word}
    (hx : fIsFinite x = true) (he : sameValue b32 e (fLit 1 1) = true) :
    sameValue b32 (signedPow b32 cfg x e) x = true := by
  have hn := notNaN_of_finite hx
  have hnonneg : b32.le (toF b32 0) (fAbs x) = true := toF_zero_le_iff.2 ⟨by simpa using hn, by simp⟩
  obtain ⟨hp, _, hval⟩ := sameValue_iff.1 (hpow.id _ e hnonneg he)
  have hfin : fIsFinite (cfg.pow (fAbs x) e) = true := finite_of_abs_le hp hx (by simp [hval])
  obtain ⟨hm, hprod⟩ := fMul_sign hn hfin
  exact sameValue_iff.2 ⟨hm, hn, hprod.trans (by rw [hval, fVal_fAbs, Int.sign_mul_abs])⟩

/-! ### The warp in the reference reading -/

theorem exact_sign_eq_coe (x : ℝ) : sign (exactNum ℝ) x = (SignType.sign x : ℝ) := by
  rw [exact_sign]
  obtain h | rfl | h := lt_trichotomy x 0
  · simp [h]
  · simp
  · simp [h, h.not_gt]

theorem exact_signedPow (cfg : Config ℝ) (x e : ℝ) :
    signedPow (exactNum ℝ) cfg x e = SignType.sign x * cfg.pow |x| e := by
  rw [signedPow, exact_sign_eq_coe, exact_abs, exact_mul]

/-- The exponent 1 keeps every sample ([POW-id]). -/
theorem exact_signedPow_exponent_one {cfg : Config ℝ} (hpow : PowNamed (exactNum ℝ) cfg.pow) (x : ℝ) :
    signedPow (exactNum ℝ) cfg x 1 = x := by
  have hid : cfg.pow |x| 1 = |x| := by simpa using hpow.id |x| 1
  rw [exact_signedPow, hid, sign_mul_abs]

/-- A power of a nonzero magnitude is above zero, so the warp keeps the sign and acts on the magnitude alone. -/
theorem sign_abs_signedPow {cfg : Config ℝ} (hpow : ∀ b e, cfg.pow b e = b ^ e) {x : ℝ} (hx : x ≠ 0) (e : ℝ) :
    SignType.sign (signedPow (exactNum ℝ) cfg x e) = SignType.sign x ∧
      |signedPow (exactNum ℝ) cfg x e| = |x| ^ e := by
  have hpos : 0 < |x| ^ e := Real.rpow_pos_of_pos (abs_pos.2 hx) e
  rw [exact_signedPow, hpow]
  obtain h | h := hx.lt_or_gt
  · simp only [sign_neg h, SignType.coe_neg_one, neg_one_mul, abs_neg, abs_of_pos hpos, and_true]
    exact sign_neg (neg_neg_of_pos hpos)
  · simp only [sign_pos h, SignType.coe_one, one_mul, abs_of_pos hpos, and_true]
    exact sign_pos hpos

/-- Inverse exponents undo each other. -/
theorem signedPow_signedPow_inv {cfg : Config ℝ} (hpow : ∀ b e, cfg.pow b e = b ^ e) (x : ℝ) {e : ℝ} (he : e ≠ 0) :
    signedPow (exactNum ℝ) cfg (signedPow (exactNum ℝ) cfg x e⁻¹) e = x := by
  obtain rfl | hx := eq_or_ne x 0
  · simp [exact_signedPow]
  · obtain ⟨hsign, habs⟩ := sign_abs_signedPow hpow hx e⁻¹
    rw [exact_signedPow, hsign, habs, hpow, Real.rpow_inv_rpow (abs_nonneg x) he, sign_mul_abs]

end Sys2Proof.Machine
end

section
/-! PROOFS. The statements on GammaWarp (41_gammawarp.md). -/

namespace Sys2Proof.Machine

/-- Settles O38: both directions are the signed power, with an exponent between the words of 0.1 and 10. -/
theorem warpProperties : Obligations.WarpProperties := by
  intro cfg gv hcfg hgv g hg x hx
  obtain ⟨hpow, hmono⟩ : PowNamed b32 cfg.pow ∧ PowMono b32 cfg.pow := by
    obtain rfl | h := hcfg
    · exact ⟨hw_conforms.pow, hw_conforms.powMono⟩
    · exact h
  obtain ⟨e, he, rfl⟩ : ∃ e, within b32 e (fLit 1 10) (fLit 10 1) = true ∧ g = fun x => signedPow b32 cfg x e := by
    obtain rfl | rfl := hg
    · exact ⟨_, recip_within hgv, rfl⟩
    · exact ⟨gv, hgv, rfl⟩
  have hb := bounded_of_inFullScale hx
  obtain ⟨hfull, _⟩ := signedPow_spec hpow he hb
  refine ⟨signedPow_isZero hpow he hb, signedPow_keeps_sign hpow he hb, inFullScale_of_bounded hfull, fun h => ?_,
    signedPow_fNeg hpow he hb, fun y hy hle => ?_⟩
  · exact signedPow_of_abs_one hpow he hb ((abs_eq (by positivity)).2 (by simpa using h))
  · have hby := bounded_of_inFullScale hy
    obtain ⟨hfull', _⟩ := signedPow_spec hpow he hby
    obtain ⟨_, _, hval⟩ := fLe_dest hle
    exact (fLe_iff hfull.1 hfull'.1).2 (signedPow_mono hpow he hmono hb hby hval)

/-- Settles O39: the quotient `1 ÷ 1` is 1, and with the exponent 1 both directions keep the sample. -/
theorem warpIdentity : Obligations.WarpIdentity := by
  refine ⟨fun cfg hpow x hx => ⟨signedPow_exponent_one hpow hx ?_,
    signedPow_exponent_one hpow hx (sameValue_self notNaN_one)⟩,
    fun cfg hpow x => ⟨?_, exact_signedPow_exponent_one hpow x⟩⟩
  · -- `1 ÷ 1` in binary32
    decide +kernel
  · have hquot : (exactNum ℝ).div (toF (exactNum ℝ) 1) 1 = 1 := by simp
    rw [warp, hquot, exact_signedPow_exponent_one hpow]

/-- Settles O40: the clamp keeps a zero, and `EXP10` of it is 1. -/
theorem gammaValueRange : Obligations.GammaValueRange := by
  refine fun v => ⟨gammaValue_within hw_safe v, fun hz => ?_⟩
  have hclamp : clampGamma b32 hw v = v := by
    refine limitTo_of_within ((within_iff notNaN_negOne notNaN_one).2 ?_)
    rw [fVal_of_isZero hz, fVal_negOne, fVal_one]
    exact ⟨notNaN_of_isZero hz, by norm_num, by norm_num⟩
  rw [hclamp, ← fLit_one]
  exact exp10Of_of_isZero hz

/-- Settles O51: the two directions have inverse exponents. -/
theorem gammaRoundTrip : Obligations.GammaRoundTrip := by
  intro cfg x gv hcfg hgv
  have hexp : (exactNum ℝ).div (toF (exactNum ℝ) 1) gv = gv⁻¹ := by simp
  rw [unwarp, warp, hexp]
  exact signedPow_signedPow_inv hcfg.pow x hgv.ne'

end Sys2Proof.Machine
end

section
/-! SUPPORT. The follower (42_envelope_follower.md): which branch moves the level and how far, in either reading; the two
ends of the coefficient in binary32; and what a zero sample leaves at each stage of a lane in symmetric mode. -/

namespace Sys2Proof.Machine

/-! ### The coefficient in the datapath reading -/

theorem hw_exp (v : Word) : hw.exp v = expOf Config.expRaw v := rfl

/-- The product of two finite positive words has a clear sign bit. -/
theorem signBit_fMul_of_positiveFinite {tc sr : Word} (ht : positiveFiniteWord tc = true)
    (hr : positiveFiniteWord sr = true) : signBit (fMul tc sr) = false := by
  obtain ⟨ts, tf, _⟩ := positiveFiniteWord_dest ht
  obtain ⟨rs, rf, _⟩ := positiveFiniteWord_dest hr
  rw [signBit_fMul tf rf, ts, rs]; rfl

/-- Where `tc × sr` overflows, `1 ÷ ∞` is 0 and `EXP(−0)` is 1 ([EXP-range]), so the coefficient is 0. -/
theorem coeff_isZero_of_overflow {tc sr : Word} (ht : positiveFiniteWord tc = true)
    (hr : positiveFiniteWord sr = true) (h : fIsInf (fMul tc sr) = true) : fIsZero (coeff b32 hw tc sr) = true := by
  have hprod : fMul tc sr = 0x7F800000#32 := 
    word_eq (signBit_fMul_of_positiveFinite ht hr) (by rwa [fIsInf, beq_iff_eq] at h)
  have hexp : hw.exp (fNeg (fDiv (fLit 1 1) 0x7F800000#32)) = fLit 1 1 := by
    rw [hw_exp]; exact expOf_of_isZero (by decide +kernel)
  simp only [coeff, b32_sub, b32_neg, b32_div, b32_mul, b32_toF, hprod, hexp]
  decide +kernel

/-- Where `tc × sr` underflows to zero, `1 ÷ 0` is `+∞` and `EXP(−∞)` is 0 ([EXP-range]), so the coefficient is 1. -/
theorem coeff_eq_one_of_underflow {tc sr : Word} (ht : positiveFiniteWord tc = true)
    (hr : positiveFiniteWord sr = true) (h : fIsZero (fMul tc sr) = true) : coeff b32 hw tc sr = 0x3F800000#32 := by
  have hprod : fMul tc sr = 0#32 := 
    word_eq (signBit_fMul_of_positiveFinite ht hr) (by rwa [fIsZero, beq_iff_eq] at h)
  have hexp : hw.exp (fNeg (fDiv (fLit 1 1) 0#32)) = 0#32 := by
    rw [hw_exp]; exact expOf_of_not_finite (by decide +kernel) (by decide +kernel) (by decide +kernel)
  simp only [coeff, b32_sub, b32_neg, b32_div, b32_mul, b32_toF, hprod, hexp]
  decide +kernel

/-! ### The branches of the update in the datapath reading -/

theorem envLevel_of_attack {f : Follower Word} {t : Word} (h : fLt f.env t = true) :
    envLevel b32 f t = fAdd f.env (fMul f.atk (fSub t f.env)) := if_pos h

theorem envLevel_of_release {f : Follower Word} {t : Word} (h : fLe t f.env = true) :
    envLevel b32 f t = fAdd f.env (fMul f.rel (fSub t f.env)) :=
  if_neg fun hlt : fLt f.env t = true => absurd (fLe_dest h).2.2 (not_le.2 (fLt_dest hlt).2.2)

theorem fLe_of_fLt {a b : Word} (h : fLt a b = true) : fLe a b = true := by
  obtain ⟨ha, hb, hv⟩ := fLt_dest h
  exact (fLe_iff ha hb).2 hv.le

/-- A move towards a target at the level itself stays at the level. -/
theorem move_of_sameValue {e t c : Word} (he : fIsFinite e = true) (hc : fIsFinite c = true)
    (h : sameValue b32 t e = true) : sameValue b32 (fAdd e (fMul c (fSub t e))) e = true := by
  obtain ⟨ht, hen, hv⟩ := sameValue_iff.1 h
  have htf : fIsFinite t = true := finite_of_abs_le ht he (by rw [hv])
  obtain ⟨hdn, hdv⟩ := fSub_spec htf he
  rw [hv, sub_self, roundVal_zero] at hdv
  have hdf : fIsFinite (fSub t e) = true := finite_of_isZero ((isZero_iff hdn).2 hdv)
  obtain ⟨hmn, hmv⟩ := fMul_spec hc hdf
  rw [hdv, mul_zero, roundVal_zero] at hmv
  obtain ⟨hsn, hsv⟩ := fAdd_spec he (finite_of_isZero ((isZero_iff hmn).2 hmv))
  refine sameValue_iff.2 ⟨hsn, hen, hsv.trans ?_⟩
  rw [hmv, add_zero]
  simpa using roundVal_exact one_pos (representable_fVal hen)

/-- At a target equal to the level the release branch changes nothing (42_envelope_follower.md R115). -/
theorem envLevel_of_sameValue {f : Follower Word} {t : Word} (hf : followerSafe f = true)
    (h : sameValue b32 t f.env = true) : sameValue b32 (envLevel b32 f t) f.env = true := by
  obtain ⟨he, _, _, hrel⟩ := followerSafe_iff.1 hf
  obtain ⟨ht, hen, hv⟩ := sameValue_iff.1 h
  rw [envLevel_of_release ((fLe_iff ht hen).2 hv.le)]
  exact move_of_sameValue he ((inUnit_bounded hrel).finite (by norm_num)) h

/-- Below the level the release branch lowers it (42_envelope_follower.md R115). -/
theorem envLevel_le_of_release {f : Follower Word} {t : Word} (hf : followerSafe f = true) (ht : inUnit t = true)
    (h : fLe t f.env = true) : fLe (envLevel b32 f t) f.env = true := by
  obtain ⟨he, he0, _, hrel⟩ := followerSafe_iff.1 hf
  obtain ⟨hfin, _, hle⟩ := move_spec he he0 ht hrel
  rw [envLevel_of_release h, fLe_iff (notNaN_of_finite hfin) (notNaN_of_finite he)]
  exact hle (fLe_dest h).2.2

/-! ### The gate in the datapath reading -/

theorem envGain_of_below {cfg : Config Word} {e1 : Word} (h : fLt e1 0x3BA3D70A#32 = true) :
    envGain b32 cfg e1 = cfg.gainCeil :=
  if_pos (show fLt e1 (gateThreshold b32) = true by rwa [gateThreshold_word])

theorem envGain_of_not_below {cfg : Config Word} {e1 : Word} (h : fLe 0x3BA3D70A#32 e1 = true) :
    envGain b32 cfg e1 = fDiv 0x3F800000#32 e1 := by
  have hopen : ¬ gateClosed b32 e1 = true := by
    rw [gateClosed, gateThreshold_word]
    exact fun hlt => absurd (fLe_dest h).2.2 (not_le.2 (fLt_dest hlt).2.2)
  rw [envGain, if_neg hopen, b32_div, b32_toF, fLit_one]

/-- The machine's ceiling is 200. -/
theorem hw_gainCeil : hw.gainCeil = 0x43480000#32 := by decide +kernel

theorem envGain_of_isZero {cfg : Config Word} {e1 : Word} (h : fIsZero e1 = true) :
    envGain b32 cfg e1 = cfg.gainCeil := by
  refine envGain_of_below ((fLt_iff (notNaN_of_isZero h) (by decide)).2 ?_)
  rw [fVal_of_isZero h]
  decide +kernel

/-! ### A zero sample in symmetric mode -/

theorem fMul_isZero_of_left {a b : Word} (ha : fIsZero a = true) (hb : fIsFinite b = true) :
    fIsZero (fMul a b) = true := by
  obtain ⟨hn, hv⟩ := fMul_spec (finite_of_isZero ha) hb
  rw [isZero_iff hn, hv, fVal_of_isZero ha, zero_mul, roundVal_zero]

theorem bounded_of_isZero {v : Word} (h : fIsZero v = true) : Bounded 0 v :=
  ⟨notNaN_of_isZero h, by rw [fVal_of_isZero h]; norm_num⟩

theorem sign_isZero {v : Word} (h : fIsZero v = true) : fIsZero (sign b32 v) = true := by
  rw [isZero_iff (bounded_sign v).1, fVal_sign (notNaN_of_isZero h), fVal_of_isZero h, Int.sign_zero, zero_mul]

theorem clampFullScale_isZero {v : Word} (h : fIsZero v = true) :
    fIsZero (clamp b32 v (fLit (-1) 1) (fLit 1 1)) = true := by
  obtain ⟨hn, _, _, hv⟩ := clamp_spec (notNaN_of_isZero h) notNaN_negOne notNaN_one
    (by rw [fVal_negOne, fVal_one]; norm_num)
  rw [isZero_iff hn, hv, fVal_of_isZero h, fVal_negOne, fVal_one]
  norm_num

theorem settleZero_isZero (neg : Bool) {y : Word} (h : fIsZero y = true) : fIsZero (settleZero neg y) = true := by
  obtain ⟨hn, hv⟩ := settleZero_fVal neg (notNaN_of_isZero h)
  rw [isZero_iff hn, hv, fVal_of_isZero h]

/-- Stage S0 makes a sample that is not finite `+0` and passes a zero (43_bitcrusher_channel.md R127). -/
theorem sanitiseSample_isZero {x : Word} (h : fIsFinite x = false ∨ fIsZero x = true) :
    fIsZero (sanitiseSample b32 x) = true := by
  unfold sanitiseSample
  obtain h | h := h
  · rw [b32_isFinite, if_neg (by simp [h]), b32_toF, fLit_zero]; decide
  · rwa [b32_isFinite, if_pos (finite_of_isZero h)]

section
variable {cfg : Config Word} (hc : ConfigConforms cfg) (P : Snapshot Word)
include hc

/-- Stages S1 and S2 keep a zero: the drive is a product, and the warp is 0 at 0 ([POW-zero]). -/
theorem warped_isZero {x0 : Word} (hx : fIsZero x0 = true) :
    fIsZero (warped b32 cfg (clampSnapshot b32 cfg P) x0) = true := by
  obtain ⟨hgn, hglo, hghi⟩ := driveGain_spec hc.safe P
  have hgain : fIsFinite (driveGain b32 cfg (clampSnapshot b32 cfg P)) = true :=
    (finite_iff hgn).2 (abs_lt.2 ⟨by omega, by omega⟩)
  exact signedPow_isZero hc.pow (recip_within (gammaValue_within hc.safe P.gammaParam))
    (bounded_drive hc.safe P (finite_of_isZero hx)) (clampFullScale_isZero (fMul_isZero_of_left hx hgain))

/-- Stages S4 and S5 keep a zero in symmetric mode, where the sign of the sample multiplies the quantized magnitude
(43_bitcrusher_channel.md R133, R143). -/
theorem crushed_isZero {w : Word} (hsym : P.symmetric = true) (hz : fIsZero w = true) :
    fIsZero (crushed b32 cfg (clampSnapshot b32 cfg P) w) = true := by
  have hsmooth := clampSmoothing_unit hc.safe P.smoothing
  have hcross : Bounded 62 (crossfade b32 (quantize b32) (clampSnapshot b32 cfg P) (fAbs w)) :=
    bounded_crossfade hc.safe P fun L hL =>
      bounded_quantize (bounded_abs (bounded_of_isZero hz)) (inUnit_bounded hsmooth) hL.bounds.1 hL.bounds.2
  have hcrush : fIsZero (crush b32 cfg (clampSnapshot b32 cfg P) w) = true := by
    rw [crush, if_pos (show (clampSnapshot b32 cfg P).symmetric = true from hsym)]
    exact fMul_isZero_of_left (sign_isZero hz) (hcross.finite (by norm_num))
  exact signedPow_isZero hc.pow (gammaValue_within hc.safe P.gammaParam) (bounded_of_isZero hcrush) hcrush

/-- Stage S6 keeps a zero, its gain being finite. -/
theorem gainStage_isZero {f : Follower Word} {Q : Snapshot Word} {w u : Word} (hf : followerSafe f = true)
    (hw' : Bounded 0 w) (hu : fIsZero u = true) : fIsZero (gainStage b32 cfg f Q w u) = true := by
  unfold gainStage
  split
  · exact fMul_isZero_of_left hu (finite_envGain hc.safe (envUpdateLevel_spec hf hw').1)
  · exact hu

/-- A lane in symmetric mode gives a zero output for a zero or non-finite sample (43_bitcrusher_channel.md R143). -/
theorem laneStepWith_symmetric_isZero {f : Follower Word} {x : Word} (hf : followerSafe f = true)
    (hsym : P.symmetric = true) (hx : fIsFinite x = false ∨ fIsZero x = true) :
    fIsZero (laneStepWith cfg f x P).2 = true := by
  have hw' := warped_isZero hc P (sanitiseSample_isZero hx)
  exact settleZero_isZero _ (clampFullScale_isZero
    (gainStage_isZero hc hf (bounded_of_isZero hw') (crushed_isZero hc P hsym hw')))

end

/-- From level 0 a zero sample leaves the level 0 (42_envelope_follower.md R121). -/
theorem envUpdateLevel_isZero {f : Follower Word} {x : Word} (hf : followerSafe f = true)
    (he : fIsZero f.env = true) (hx : fIsZero x = true) : fIsZero (envUpdateLevel b32 f x) = true := by
  have ht : fIsZero (fAbs (sanitiseSample b32 x)) = true := by
    rw [fIsZero_fAbs]; exact sanitiseSample_isZero (.inr hx)
  have hsame : sameValue b32 (fAbs (sanitiseSample b32 x)) f.env = true :=
    sameValue_iff.2 ⟨notNaN_of_isZero ht, notNaN_of_isZero he, by rw [fVal_of_isZero ht, fVal_of_isZero he]⟩
  obtain ⟨hn, _, hv⟩ := sameValue_iff.1 (envLevel_of_sameValue hf hsame)
  exact (isZero_iff hn).2 (hv.trans (fVal_of_isZero he))

/-- From level 0 a zero or non-finite sample leaves the level of a lane 0, whatever the mode. -/
theorem laneStepWith_env_isZero {cfg : Config Word} (hc : ConfigConforms cfg) {f : Follower Word} {x : Word}
    (P : Snapshot Word) (hf : followerSafe f = true) (he : fIsZero f.env = true)
    (hx : fIsFinite x = false ∨ fIsZero x = true) : fIsZero (laneStepWith cfg f x P).1.env = true := by
  simp only [laneStepWith, processCh, nextEnv]
  split
  · exact envUpdateLevel_isZero hf he (warped_isZero hc P (sanitiseSample_isZero hx))
  · exact he

/-! ### The update in the reference reading -/

/-- The coefficient of the branch taken (42_envelope_follower.md R115). -/
noncomputable def branchCoeff (f : Follower ℝ) (t : ℝ) : ℝ := if f.env < t then f.atk else f.rel

/-- One update moves the level by the branch's coefficient of its distance to the target. -/
theorem exact_envLevel (f : Follower ℝ) (t : ℝ) :
    envLevel (exactNum ℝ) f t = f.env + branchCoeff f t * (t - f.env) := by
  simp only [envLevel, attackTaken, exact_lt, decide_eq_true_eq, exact_add, exact_mul, exact_sub, branchCoeff]
  split_ifs <;> rfl

/-- From a level up to the target, one update shrinks the distance by the attack coefficient; at the target both sides
are the target. -/
theorem exact_envLevel_of_le_target {f : Follower ℝ} {t : ℝ} (h : f.env ≤ t) :
    envLevel (exactNum ℝ) f t = t - (t - f.env) * (1 - f.atk) := by
  rw [exact_envLevel, branchCoeff]
  obtain hlt | heq := h.lt_or_eq
  · rw [if_pos hlt]; ring
  · rw [heq]; ring

/-- From a level down to the target, one update shrinks the distance by the release coefficient. -/
theorem exact_envLevel_of_target_le {f : Follower ℝ} {t : ℝ} (h : t ≤ f.env) :
    envLevel (exactNum ℝ) f t = t + (f.env - t) * (1 - f.rel) := by
  rw [exact_envLevel, branchCoeff, if_neg h.not_gt]; ring

/-- Attack towards a constant target (42_envelope_follower.md R119). -/
theorem exact_envLevel_iterate_attack {a t e₀ : ℝ} (r : ℝ) (ha : a ≤ 1) (h : e₀ ≤ t) (n : Nat) :
    (fun e => envLevel (exactNum ℝ) { env := e, atk := a, rel := r } t)^[n] e₀ = t - (t - e₀) * (1 - a) ^ n := by
  induction n with
  | zero => simp
  | succ n ih =>
    have hbelow : t - (t - e₀) * (1 - a) ^ n ≤ t :=
      sub_le_self t (mul_nonneg (sub_nonneg.2 h) (pow_nonneg (sub_nonneg.2 ha) n))
    rw [Function.iterate_succ_apply', ih, exact_envLevel_of_le_target hbelow]
    ring

/-- Release towards a constant target (42_envelope_follower.md R119). -/
theorem exact_envLevel_iterate_release {r t e₀ : ℝ} (a : ℝ) (hr : r ≤ 1) (h : t ≤ e₀) (n : Nat) :
    (fun e => envLevel (exactNum ℝ) { env := e, atk := a, rel := r } t)^[n] e₀ = t + (e₀ - t) * (1 - r) ^ n := by
  induction n with
  | zero => simp
  | succ n ih =>
    have habove : t ≤ t + (e₀ - t) * (1 - r) ^ n :=
      le_add_of_nonneg_right (mul_nonneg (sub_nonneg.2 h) (pow_nonneg (sub_nonneg.2 hr) n))
    rw [Function.iterate_succ_apply', ih, exact_envLevel_of_target_le habove]
    ring

section
variable {f : Follower ℝ} {t : ℝ} (ha : 0 ≤ f.atk) (ha' : f.atk ≤ 1) (hr : 0 ≤ f.rel) (hr' : f.rel ≤ 1)

include ha hr in
theorem branchCoeff_nonneg : 0 ≤ branchCoeff f t := by
  unfold branchCoeff
  split
  · exact ha
  · exact hr

theorem branchCoeff_le_max : branchCoeff f t ≤ max f.atk f.rel := by
  unfold branchCoeff
  split
  · exact le_max_left _ _
  · exact le_max_right _ _

include ha ha' hr hr'

/-- The new level lies between the old one and the target: a convex combination (42_envelope_follower.md R114). -/
theorem exact_envLevel_mem_uIcc : envLevel (exactNum ℝ) f t ∈ Set.uIcc f.env t := by
  have hc := branchCoeff_nonneg (t := t) ha hr
  have hc' : branchCoeff f t ≤ 1 := branchCoeff_le_max.trans (max_le ha' hr')
  rw [exact_envLevel, ← segment_eq_uIcc, segment_eq_image']
  exact ⟨branchCoeff f t, ⟨hc, hc'⟩, rfl⟩

end

/-- A coefficient in the reference reading (42_envelope_follower.md R111). -/
theorem exact_coeff {cfg : Config ℝ} (hexp : ∀ v, cfg.exp v = Real.exp v) (tc sr : ℝ) :
    coeff (exactNum ℝ) cfg tc sr = 1 - Real.exp (-1 / (tc * sr)) := by
  simp [coeff, hexp, neg_div]

theorem exact_envGain (cfg : Config ℝ) (e1 : ℝ) :
    envGain (exactNum ℝ) cfg e1 = if e1 < 5 / 1000 then cfg.gainCeil else 1 / e1 := by
  simp [envGain, gateClosed, gateThreshold]

theorem exact_envUpdateLevel (f : Follower ℝ) (x : ℝ) :
    envUpdateLevel (exactNum ℝ) f x = envLevel (exactNum ℝ) f |x| := by
  simp [envUpdateLevel, sanitiseSample]

end Sys2Proof.Machine
end

section
/-! PROOFS. The statements on the EnvelopeFollower (42_envelope_follower.md). -/

namespace Sys2Proof.Machine

/-- Settles O12: the range is that of `1 − EXP`, and at the two ends of `tc × sr` the value of `EXP` is fixed. -/
theorem coefficientsInUnit : Obligations.CoefficientsInUnit := by
  intro tc sr ht hr
  obtain ⟨hs, hf, _⟩ := positiveFiniteWord_dest ht
  exact ⟨coeff_unit hw_safe hs hf hr, coeff_isZero_of_overflow ht hr, coeff_eq_one_of_underflow ht hr⟩

/-- Settles O32: the gate compares strictly with the word of 0.005. -/
theorem gateBoundary : Obligations.GateBoundary :=
  ⟨fun _ h => (envGain_of_below h).trans hw_gainCeil, fun _ h => envGain_of_not_below h,
    envGain_of_not_below (by decide +kernel)⟩

/-- Settles O33: attack asks for a target strictly above, and a release to a target at or below the level is a move that
stays or goes down. -/
theorem branchOwnership : Obligations.BranchOwnership := fun _ _ hf ht =>
  ⟨envLevel_of_attack, envLevel_of_release, envLevel_of_sameValue hf,
    fun h => envLevel_le_of_release hf ht (fLe_of_fLt h)⟩

/-- Settles O31: a zero stays zero at every stage, since in symmetric mode the sign multiplies the quantized magnitude;
from level 0 the follower's target is its level, and level 0 is below the gate. -/
theorem symmetricSilence : Obligations.SymmetricSilence := by
  intro f x P hf hsym hx
  refine ⟨laneStepWith_symmetric_isZero hw_conforms P hf hsym hx, fun he => ?_⟩
  have hlevel := laneStepWith_env_isZero hw_conforms P hf he hx
  exact ⟨hlevel, (envGain_of_isZero hlevel).trans hw_gainCeil⟩

/-- Settles O52: the distance to the target shrinks by `1 − coeff` at each update, and that is `exp(−1 / (tc × sr))`. -/
theorem onePoleClosedForm : Obligations.OnePoleClosedForm := by
  refine ⟨fun a r t e₀ n _ ha _ hr => ⟨fun h => exact_envLevel_iterate_attack r ha h.le n,
    fun h => exact_envLevel_iterate_release a hr h n, ?_⟩, fun cfg tc sr hcfg htc hsr => ?_⟩
  · rw [exact_envLevel, sub_self, mul_zero, add_zero]
  · rw [exact_coeff hcfg.exp, sub_sub_cancel]
    refine ⟨rfl, ?_⟩
    rw [← Real.exp_mul, div_mul_cancel₀ _ (mul_pos htc hsr).ne']

/-- Settles O53: the new level is a convex combination, and `exp` of a number below 0 lies strictly between 0 and 1. -/
theorem levelMovesTowardTarget : Obligations.LevelMovesTowardTarget := by
  refine ⟨fun f t ha ha' hr hr' => ?_, fun cfg tc sr hcfg htc hsr => ?_⟩
  · obtain ⟨hlo, hhi⟩ := exact_envLevel_mem_uIcc (t := t) ha ha' hr hr'
    refine ⟨hlo, hhi, ?_⟩
    rw [exact_envLevel, add_sub_cancel_left, abs_mul, abs_of_nonneg (branchCoeff_nonneg ha hr)]
    exact mul_le_mul_of_nonneg_right branchCoeff_le_max (abs_nonneg _)
  · have hneg : -1 / (tc * sr) < 0 := div_neg_of_neg_of_pos (by norm_num) (mul_pos htc hsr)
    rw [exact_coeff hcfg.exp]
    exact ⟨sub_pos.2 (Real.exp_lt_one_iff.2 hneg), sub_lt_self 1 (Real.exp_pos _)⟩

/-- Settles O54: the level stays between two values of `[0, 1]`, and past the gate its reciprocal is at most 200. -/
theorem referenceGainRange : Obligations.ReferenceGainRange := by
  rintro cfg f x e1 hcfg he he' ha ha' hr hr' hx rfl
  rw [exact_envUpdateLevel]
  obtain ⟨hlo, hhi⟩ := exact_envLevel_mem_uIcc (t := |x|) ha ha' hr hr'
  have h0 := (le_min he (abs_nonneg x)).trans hlo
  have h1 := hhi.trans (max_le he' hx)
  refine ⟨h0, h1, ?_⟩
  rw [exact_envGain, hcfg.gainCeil]
  split
  · norm_num
  · rename_i hopen
    have hpos : 0 < envLevel (exactNum ℝ) f |x| := by linarith
    rw [le_div_iff₀ hpos, div_le_iff₀ hpos]
    constructor <;> linarith

end Sys2Proof.Machine
end

section
/-! SUPPORT. The channel in the datapath reading: what stage S0 passes on, the drive, and one bit of depth. -/

namespace Sys2Proof.Machine

/-! ### Stage S0 -/

/-- A word is finite unless its exponent field is all ones (43_bitcrusher_channel.md R127). -/
theorem fIsFinite_iff_exponent {x : Word} : fIsFinite x = true ↔ x.toNat / 2 ^ 23 % 2 ^ 8 ≠ 255 := by
  rw [fIsFinite, magBits, infBits, decide_eq_true_eq]; omega

theorem sanitiseSample_of_finite {x : Word} (h : fIsFinite x = true) : sanitiseSample b32 x = x := if_pos h

theorem sanitiseSample_of_not_finite {x : Word} (h : ¬ fIsFinite x = true) : sanitiseSample b32 x = 0#32 :=
  (if_neg h).trans fLit_zero

/-- A lane reads the sample and the snapshot through stage S0 only. -/
theorem laneStepWith_congr {cfg : Config Word} (f : Follower Word) {x x' : Word} {P P' : Snapshot Word}
    (hx : sanitiseSample b32 x = sanitiseSample b32 x') (hP : clampSnapshot b32 cfg P = clampSnapshot b32 cfg P') :
    laneStepWith cfg f x P = laneStepWith cfg f x' P' := by
  have hauto := congrArg Snapshot.autoGain hP
  change P.autoGain = P'.autoGain at hauto
  simp only [laneStepWith, processCh, zeroSignOf, hx, hP, hauto]

section
variable {lo hi : Word} (hlo : fIsFinite lo = true) (hhi : fIsFinite hi = true) (hle : fLe lo hi = true)

theorem limitTo_of_isNaN {v : Word} (h : fIsNaN v = true) : limitTo v lo hi = lo := if_pos h

theorem limitTo_of_below {v : Word} (h : fLt v lo = true) : limitTo v lo hi = lo := by
  obtain ⟨hn, _, _⟩ := fLt_dest h
  simp [limitTo, clampP, hn, h]

include hle

theorem limitTo_of_above {v : Word} (h : fLt hi v = true) : limitTo v lo hi = hi := by
  obtain ⟨hnhi, hn, hlt⟩ := fLt_dest h
  obtain ⟨hnlo, _, hv⟩ := fLe_dest hle
  have hnotBelow : fLt v lo = false := by simp [fLt, (hv.trans hlt.le).not_gt]
  simp [limitTo, clampP, hn, h, hnotBelow]

theorem limitTo_within (v : Word) : within b32 (limitTo v lo hi) lo hi = true := by
  obtain ⟨hnlo, hnhi, hv⟩ := fLe_dest hle
  exact (within_iff hnlo hnhi).2 (limitTo_spec v hnlo hnhi hv)

theorem limitTo_limitTo (v : Word) : limitTo (limitTo v lo hi) lo hi = limitTo v lo hi :=
  limitTo_of_within (limitTo_within hle v)

include hlo hhi

theorem finite_limitTo (v : Word) : fIsFinite (limitTo v lo hi) = true := by
  obtain ⟨hn, hge, hle⟩ := within_dest (limitTo_within hle v)
  obtain ⟨hlo', _⟩ := abs_lt.1 (abs_fVal_lt hlo)
  obtain ⟨_, hhi'⟩ := abs_lt.1 (abs_fVal_lt hhi)
  exact (finite_iff hn).2 (abs_lt.2 ⟨hlo'.trans_le hge, hle.trans_lt hhi'⟩)

end

/-! ### The four clamps of the machine (10_state.md R28) -/

theorem clampBitDepth_hw (v : Word) : clampBitDepth b32 hw v = limitTo v 0x3F800000#32 0x41800000#32 :=
  congrArg₂ (limitTo v) fLit_one (by decide +kernel)

theorem clampGamma_hw (v : Word) : clampGamma b32 hw v = limitTo v 0xBF800000#32 0x3F800000#32 :=
  congrArg₂ (limitTo v) (by decide +kernel) fLit_one

theorem clampSmoothing_hw (v : Word) : clampSmoothing b32 hw v = limitTo v 0x00000000#32 0x3F800000#32 :=
  congrArg₂ (limitTo v) fLit_zero fLit_one

theorem clampGainDb_hw (v : Word) : clampGainDb b32 hw v = limitTo v 0x00000000#32 0x41A00000#32 :=
  congrArg₂ (limitTo v) fLit_zero (by decide +kernel)

theorem clampSnapshot_clampSnapshot (P : Snapshot Word) :
    clampSnapshot b32 hw (clampSnapshot b32 hw P) = clampSnapshot b32 hw P := by
  simp only [clampSnapshot, clampBitDepth_hw, clampGamma_hw, clampSmoothing_hw, clampGainDb_hw, Snapshot.mk.injEq,
    and_true]
  exact ⟨limitTo_limitTo (by decide +kernel) _, limitTo_limitTo (by decide +kernel) _,
    limitTo_limitTo (by decide +kernel) _, limitTo_limitTo (by decide +kernel) _⟩

/-- A bit depth of at most one, or a NaN (log entry 5), becomes one. -/
theorem clampBitDepth_of_le_one {v : Word} (h : fIsNaN v = true ∨ fLe v 0x3F800000#32 = true) :
    clampBitDepth b32 hw v = 0x3F800000#32 := by
  rw [clampBitDepth_hw]
  obtain hn | hle := h
  · exact limitTo_of_isNaN hn
  obtain ⟨hv, hone, hle⟩ := fLe_dest hle
  obtain hlt | heq := hle.lt_or_eq
  · exact limitTo_of_below ((fLt_iff hv hone).2 hlt)
  · have hval : fVal v = 2 ^ 149 := by rw [heq, ← fLit_one, fVal_one]
    rw [eq_of_fVal_eq hv hone heq (by rw [hval]; norm_num)]
    exact limitTo_of_within (by decide +kernel)

/-! ### Zero factors -/

theorem fMul_isZero_of_right {a b : Word} (ha : fIsFinite a = true) (hb : fIsZero b = true) :
    fIsZero (fMul a b) = true := by
  obtain ⟨hn, hv⟩ := fMul_spec ha (finite_of_isZero hb)
  rw [isZero_iff hn, hv, fVal_of_isZero hb, mul_zero, roundVal_zero]

theorem fDiv_isZero_of_left {a b : Word} (ha : fIsZero a = true) (hb : fIsFinite b = true) (h0 : fVal b ≠ 0) :
    fIsZero (fDiv a b) = true := by
  obtain ⟨hn, hv⟩ := fDiv_spec (finite_of_isZero ha) hb h0
  rw [isZero_iff hn, hv, fVal_of_isZero ha, zero_mul, zero_mul, roundVal_zero]

/-- A crossfade of two zeros is a move between equal values. -/
theorem lerp_isZero {a b t : Word} (ha : fIsZero a = true) (hb : fIsZero b = true) (ht : fIsFinite t = true) :
    fIsZero (lerp b32 a b t) = true := by
  have hab : sameValue b32 b a = true :=
    sameValue_iff.2 ⟨notNaN_of_isZero hb, notNaN_of_isZero ha, by rw [fVal_of_isZero ha, fVal_of_isZero hb]⟩
  have hmove : sameValue b32 (lerp b32 a b t) a = true := move_of_sameValue (finite_of_isZero ha) ht hab
  exact sameValue_zero_iff.1 (sameValue_trans hmove (sameValue_zero_iff.2 ha))

/-! ### One bit of depth (43_bitcrusher_channel.md R142 (a)) -/

/-- At one bit both level counts are 1. -/
theorem crossfade_one_bit {quant : Word → Nat → Word → Word} {Q : Snapshot Word} {x : Word}
    (hbd : Q.bitDepth = 0x3F800000#32) (hq : fIsZero (quant x 1 Q.smoothing) = true) :
    fIsZero (crossfade b32 quant Q x) = true := by
  have hlow : levelsLow b32 0x3F800000#32 = 1 := by decide +kernel
  have hhigh : levelsHigh b32 0x3F800000#32 = 1 := by decide +kernel
  rw [crossfade, hbd, hlow, hhigh]
  exact lerp_isZero hq hq (by decide +kernel)

/-- Either quantizer gives zero on the single level (40_quantizer.md R83, [ZX-one]). -/
theorem crush_one_bit {cfg : Config Word} (hzx : ZxNamed b32 cfg.zx) {Q : Snapshot Word} (w : Word)
    (hbd : Q.bitDepth = 0x3F800000#32) : fIsZero (crush b32 cfg Q w) = true := by
  unfold crush
  split
  · refine fMul_isZero_of_right ((bounded_sign w).finite (by norm_num)) (crossfade_one_bit hbd ?_)
    rw [quantize, if_pos rfl, b32_toF, fLit_zero]
    decide
  · exact crossfade_one_bit hbd (sameValue_zero_iff.1 (hzx.one w Q.smoothing))

/-- Stages S5 to S7 keep the zero. -/
theorem laneStepWith_one_bit {cfg : Config Word} (hc : ConfigConforms cfg) {f : Follower Word}
    (hf : followerSafe f = true) (x : Word) {P : Snapshot Word}
    (hbd : (clampSnapshot b32 cfg P).bitDepth = 0x3F800000#32) : fIsZero (laneStepWith cfg f x P).2 = true := by
  have hw' := bounded_warped hc.safe P (finite_sanitise x)
  have hcrush := crush_one_bit hc.zx (warped b32 cfg (clampSnapshot b32 cfg P) (sanitiseSample b32 x)) hbd
  have hu := signedPow_isZero hc.pow (gammaValue_within hc.safe P.gammaParam) (bounded_of_isZero hcrush) hcrush
  exact settleZero_isZero _ (clampFullScale_isZero (gainStage_isZero hc hf hw' hu))

/-- With `AUTO = 1` the level is updated by the warped sample (43_bitcrusher_channel.md R140). -/
theorem laneStep_auto (f : Follower Word) (x : Word) {P : Snapshot Word} (h : P.autoGain = true) :
    (laneStep f x P).1 = autoFollower f x P :=
  congrArg (fun e => { f with env := e }) (if_pos (show (clampSnapshot b32 hw P).autoGain = true from h))

/-! ### The drive (43_bitcrusher_channel.md R129) -/

/-- Under the reading the spec takes, the drive gain does not read `AUTO` (log entry 6). -/
theorem driveGain_applied {cfg : Config Word} (h : cfg.pregainInAuto = .applied) (Q : Snapshot Word) :
    driveGain b32 cfg Q = cfg.exp10 (fDiv Q.gainDb (fLit 20 1)) :=
  if_neg fun hb => by simp [h] at hb

/-- With no gain in decibels the drive gain is 1 under either reading: `EXP10` of zero is 1 ([EXP10-zero]). -/
theorem driveGain_of_gainDb_isZero (reading : PregainInAuto) {Q : Snapshot Word} (h : fIsZero Q.gainDb = true) :
    driveGain b32 { hw with pregainInAuto := reading } Q = fLit 1 1 := by
  have hquot : fIsZero (fDiv Q.gainDb (fLit 20 1)) = true :=
    fDiv_isZero_of_left h (by decide +kernel) (by decide +kernel)
  unfold driveGain
  split
  · rfl
  · exact exp10Of_of_isZero hquot

/-- A product with 1 does not round. -/
theorem fMul_one {x : Word} (h : fIsFinite x = true) : fMul x (fLit 1 1) = x := by
  have hone : magVal (magBits (fLit 1 1)) = 2 ^ 149 := by decide +kernel
  have hsign : signBit (fLit 1 1) = false := by decide +kernel
  have hinf : fIsInf (fLit 1 1) = false := by decide +kernel
  have hround : roundMag (magVal (magBits x) * 2 ^ 149) (2 ^ 149) = magBits x :=
    (roundMag_magVal _ (by positivity)).trans (min_eq_left (notNaN_le (notNaN_of_finite h)))
  simp only [fMul, notNaN_of_finite h, notInf_of_finite h, notNaN_one, hone, hsign, hinf, hround, Bool.or_self,
    Bool.false_eq_true, if_false, Bool.bne_false, ofSignMag_self]

/-- The reading of the manual gain under auto-gain reaches a channel through the drive gain only. -/
theorem processCh_pregain {cfg : Config Word} (reading : PregainInAuto) (f : Follower Word) (x : Word)
    {P : Snapshot Word}
    (h : driveGain b32 { cfg with pregainInAuto := reading } (clampSnapshot b32 cfg P) =
      driveGain b32 cfg (clampSnapshot b32 cfg P)) :
    processCh b32 { cfg with pregainInAuto := reading } f x P = processCh b32 cfg f x P := by
  have hwarped (x0 : Word) : warped b32 { cfg with pregainInAuto := reading } (clampSnapshot b32 cfg P) x0 =
      warped b32 cfg (clampSnapshot b32 cfg P) x0 := by
    rw [warped, warped, drive, drive, h]; rfl
  have hclamp : clampSnapshot b32 { cfg with pregainInAuto := reading } P = clampSnapshot b32 cfg P := rfl
  rw [processCh, hclamp, hwarped]
  rfl

/-- The machine's configuration with another drive. -/
def hwWithDrive (exp10 : Word → Word) (reading : PregainInAuto) : Config Word :=
  { hw with exp10 := exp10, pregainInAuto := reading }

/-- Every `EXP10` with the named properties fits into the machine's configuration. -/
theorem hwWithDrive_conforms {exp10 : Word → Word} (hnamed : Exp10Named b32 exp10) (hmono : Exp10Mono b32 exp10)
    (reading : PregainInAuto) : ConfigConforms (hwWithDrive exp10 reading) :=
  { hw_conforms with exp10 := hnamed, exp10Mono := hmono }

/-- The drive gain reads `EXP10` and the reading of the manual gain alone, and of the snapshot `gainDb` and `AUTO`. -/
theorem driveGain_hwWithDrive (cfg : Config Word) {P Q : Snapshot Word} (hgain : Q.gainDb = P.gainDb)
    (hauto : Q.autoGain = P.autoGain) :
    driveGain b32 (hwWithDrive cfg.exp10 cfg.pregainInAuto) Q = driveGain b32 cfg P := by
  rw [driveGain, driveGain, hgain, hauto]; rfl

end Sys2Proof.Machine
end

section
/-! PROOFS. The statements on the channel in the datapath reading (43_bitcrusher_channel.md). -/

namespace Sys2Proof.Machine

/-- Settles O29: each clamp is `limitTo` its bounds, and clamping twice is clamping once. -/
theorem parametersAreClamped : Obligations.ParametersAreClamped := by
  refine ⟨fun g lo hi hmem v => ?_, fun f x P => laneStepWith_congr f rfl (clampSnapshot_clampSnapshot P).symm⟩
  obtain ⟨hg, hlo, hhi, hle⟩ : (∀ v, g v = limitTo v lo hi) ∧ fIsFinite lo = true ∧ fIsFinite hi = true ∧
      fLe lo hi = true := by
    simp only [List.mem_cons, List.not_mem_nil, or_false, Prod.mk.injEq] at hmem
    obtain ⟨rfl, rfl, rfl⟩ | ⟨rfl, rfl, rfl⟩ | ⟨rfl, rfl, rfl⟩ | ⟨rfl, rfl, rfl⟩ := hmem
    · exact ⟨clampBitDepth_hw, by decide, by decide, by decide +kernel⟩
    · exact ⟨clampGamma_hw, by decide, by decide, by decide +kernel⟩
    · exact ⟨clampSmoothing_hw, by decide, by decide, by decide +kernel⟩
    · exact ⟨clampGainDb_hw, by decide, by decide, by decide +kernel⟩
  obtain ⟨hge, hle'⟩ : fLe lo (limitTo v lo hi) = true ∧ fLe (limitTo v lo hi) hi = true :=
    (Bool.and_eq_true _ _).mp (limitTo_within hle v)
  rw [hg]
  exact ⟨limitTo_of_isNaN, limitTo_of_below, limitTo_of_above hle,
    fun h h' => limitTo_of_within ((Bool.and_eq_true _ _).mpr ⟨h, h'⟩), finite_limitTo hlo hhi hle v, hge, hle'⟩

/-- Settles O30: both level counts are 1, so both quantizers give zero, and the later stages keep it. -/
theorem oneBitDepthSilences : Obligations.OneBitDepthSilences := fun f x _ hf hbd =>
  ⟨laneStepWith_one_bit hw_conforms hf x (clampBitDepth_of_le_one hbd), laneStep_auto f x⟩

/-- Settles O34: the drive gain is 1 under either reading, and a product with 1 does not round. -/
theorem zeroGainDrivesNothing : Obligations.ZeroGainDrivesNothing := by
  intro f x P h
  have happlied : driveGain b32 hw (clampSnapshot b32 hw P) = fLit 1 1 := driveGain_of_gainDb_isZero .applied h
  refine ⟨fun hx => ?_, (processCh_pregain .bypassed f x ?_).symm⟩
  · rw [drive, happlied, b32_mul, fMul_one hx]; rfl
  · rw [happlied]; exact driveGain_of_gainDb_isZero .bypassed h

/-- Settles O35: the range holds of a clamped snapshot under a conforming configuration, and a gain in range passes the
clamp. -/
theorem driveGainRange : Obligations.DriveGainRange := by
  intro cfg P hnamed hmono hgain
  obtain ⟨hn, hlo, hhi⟩ := driveGain_spec (hwWithDrive_conforms hnamed hmono cfg.pregainInAuto).safe P
  have hpasses : (clampSnapshot b32 (hwWithDrive cfg.exp10 cfg.pregainInAuto) P).gainDb = P.gainDb :=
    limitTo_of_within hgain
  rw [driveGain_hwWithDrive (P := P) cfg hpasses rfl] at hn hlo hhi
  rw [ within_iff notNaN_one notNaN_ten, fVal_one, fVal_ten]
  exact ⟨hn, hlo, hhi⟩

/-- Settles O28: a word is finite unless its exponent field is all ones, and a lane reads the sample through S0 only. -/
theorem nonFiniteSampleActsAsZero : Obligations.NonFiniteSampleActsAsZero := by
  have hzero (x : Word) (h : x.toNat / 2 ^ 23 % 2 ^ 8 = 255) : sanitiseSample b32 x = 0#32 :=
    sanitiseSample_of_not_finite fun hf => fIsFinite_iff_exponent.1 hf h
  exact ⟨hzero, fun x h => sanitiseSample_of_finite (fIsFinite_iff_exponent.2 h), fun f x P h =>
    laneStepWith_congr f ((hzero x h).trans (sanitiseSample_of_finite (by decide)).symm) rfl⟩

/-- Settles O36: the follower reads the warped sample, which `SYM` does not reach, and the drive does not read
`AUTO`. -/
theorem modeSelectionsAreIndependent : Obligations.ModeSelectionsAreIndependent := by
  intro f x P b
  have hwarped : laneWarped x { P with autoGain := b } = laneWarped x P := by
    simp only [laneWarped, warped, drive, driveGain_applied (cfg := hw) rfl]; rfl
  refine ⟨rfl, hwarped, ?_⟩
  rw [laneCrushed, laneCrushed, hwarped]
  rfl

end Sys2Proof.Machine
end

section
/-! SUPPORT. The Quantizer at the level counts BCQ uses, the single level included, and the two named instances of `ZX`
(43_bitcrusher_channel.md R135, R136), in the reference reading. -/

namespace Sys2Proof.Machine

/-! ### The Quantizer at an odd level count -/

theorem odd_levels {b : Nat} (h : 1 ≤ b) : (2 ^ b - 1) % 2 = 1 := by
  have heven : 2 ∣ 2 ^ b := dvd_pow_self 2 (by omega)
  have hpos : 0 < 2 ^ b := by positivity
  omega

/-- Every level count BCQ uses is odd, so the grid has as many steps on either side of zero (00_scope.md R16). -/
theorem IsLevelCount.odd {L : Nat} (hL : IsLevelCount L) : L % 2 = 1 := by
  obtain ⟨b, hb, _, rfl⟩ := hL
  exact odd_levels hb

section
variable {L : Nat} {x s : ℝ} (hL : L % 2 = 1)

/-- Smoothing 0 is the identity, but on the single level (40_quantizer.md R89). -/
theorem quantize_soft_zero (h2 : 2 ≤ L) : quantize (exactNum ℝ) x L 0 = x := by
  rw [quantize_eq h2, blend_soft_zero, gridPhase_mul_gridStep h2, add_sub_cancel]

include hL

theorem quantize_zero_of_odd (s : ℝ) : quantize (exactNum ℝ) 0 L s = 0 := by
  obtain rfl | h3 : L = 1 ∨ 3 ≤ L := by omega
  · exact singleLevelGivesZero.2 0 s
  · obtain ⟨m, hm, _, hstep⟩ := gridStep_odd hL h3
    exact quantize_zero hm hstep s

theorem quantize_neg_of_odd (hx1 : -1 ≤ x) (hx2 : x ≤ 1) (h : gridPhase (exactNum ℝ) x L ≠ 1 / 2 ∨ s ≤ 1 / 2) :
    quantize (exactNum ℝ) (-x) L s = -quantize (exactNum ℝ) x L s := by
  obtain rfl | h3 : L = 1 ∨ 3 ≤ L := by omega
  · rw [singleLevelGivesZero.2, singleLevelGivesZero.2, neg_zero]
  · obtain ⟨m, hm, _, hstep⟩ := gridStep_odd hL h3
    exact quantize_odd hm hstep hx1 hx2 h

variable (h0 : 0 ≤ s) (h1 : s ≤ 1)
include h0 h1

theorem abs_quantize_le_one (hx1 : -1 ≤ x) (hx2 : x ≤ 1) : |quantize (exactNum ℝ) x L s| ≤ 1 := by
  obtain rfl | h3 : L = 1 ∨ 3 ≤ L := by omega
  · rw [singleLevelGivesZero.2, abs_zero]; exact zero_le_one
  · obtain ⟨m, hm, _, hstep⟩ := gridStep_odd hL h3
    exact abs_le.2 (quantize_mem_full hm hstep hx1 hx2 h0 h1)

/-- Monotone, and zero at zero. -/
theorem quantize_nonneg (hx1 : 0 ≤ x) (hx2 : x ≤ 1) : 0 ≤ quantize (exactNum ℝ) x L s := by
  obtain rfl | h3 : L = 1 ∨ 3 ≤ L := by omega
  · rw [singleLevelGivesZero.2]
  · obtain ⟨m, hm, _, hstep⟩ := gridStep_odd hL h3
    calc 0 = quantize (exactNum ℝ) 0 L s := (quantize_zero hm hstep s).symm
      _ ≤ quantize (exactNum ℝ) x L s :=
        quantize_monotoneOn hm hstep h0 h1 (by norm_num) ⟨by linarith, hx2⟩ hx1

theorem abs_quantize_sub_le_half_step (h3 : 3 ≤ L) (hx1 : -1 ≤ x) (hx2 : x ≤ 1) :
    |quantize (exactNum ℝ) x L s - x| ≤ gridStep (exactNum ℝ) L / 2 := by
  obtain ⟨m, hm, _, hstep⟩ := gridStep_odd hL h3
  exact (abs_quantize_sub_self_le (by omega) h0 h1 (gridPhase_mem_Icc hm hstep hx1 hx2)).1

end

/-! ### The zero-crossing function -/

@[simp] theorem exact_outsideZone (w : ℝ) (L : Nat) :
    outsideZone (exactNum ℝ) w L = true ↔ gridStep (exactNum ℝ) L ≤ |w| := by
  simp [outsideZone]

theorem exact_zxDomain_iff {w s : ℝ} {L : Nat} : ZxDomain (exactNum ℝ) w L s ↔
    (-1 ≤ w ∧ w ≤ 1) ∧ IsLevelCount L ∧ 0 ≤ s ∧ s ≤ 1 := by
  simp [ZxDomain]

/-- On the single level `ZX_REF` is zero whatever the softness. -/
theorem zxRef_one (w s : ℝ) : zxRef (exactNum ℝ) w 1 s = 0 := by
  rw [zxRef, if_pos rfl, exact_toF, Int.cast_zero]

/-- `ZX_REF` quantizes at a softness that inside the zone is below the frame's (43_bitcrusher_channel.md R136). -/
theorem zxRef_eq_quantize {w s : ℝ} {L : Nat} (hL : L % 2 = 1) (h0 : 0 ≤ s) (h1 : s ≤ 1) :
    ∃ s', (0 ≤ s' ∧ s' ≤ 1) ∧ zxRef (exactNum ℝ) w L s = quantize (exactNum ℝ) w L s' ∧
      (gridStep (exactNum ℝ) L ≤ |w| → s' = s) := by
  obtain rfl | h3 : L = 1 ∨ 3 ≤ L := by omega
  · exact ⟨s, ⟨h0, h1⟩, (zxRef_one w s).trans (singleLevelGivesZero.2 w s).symm, fun _ => rfl⟩
  rw [zxRef, if_neg (by omega)]
  simp only [exact_outsideZone]
  obtain hout | hin := le_or_gt (gridStep (exactNum ℝ) L) |w|
  · exact ⟨s, ⟨h0, h1⟩, if_pos hout, fun _ => rfl⟩
  · have hpos : 0 < gridStep (exactNum ℝ) L := gridStep_pos (by omega)
    have hr0 : 0 ≤ |w| / gridStep (exactNum ℝ) L := div_nonneg (abs_nonneg w) hpos.le
    have hr1 : |w| / gridStep (exactNum ℝ) L ≤ 1 := (div_le_one hpos).2 hin.le
    refine ⟨s * (3 / 4 + 1 / 4 * (|w| / gridStep (exactNum ℝ) L)), ⟨by positivity, ?_⟩, ?_,
      fun h => absurd h hin.not_ge⟩
    · exact mul_le_one₀ h1 (by positivity) (by linarith)
    · rw [if_neg hin.not_ge]; simp

section
variable {zx : ℝ → Nat → ℝ → ℝ} (hzx : zx = zxId (exactNum ℝ) ∨ zx = zxRef (exactNum ℝ))
include hzx

theorem namedZx_one (w s : ℝ) : zx w 1 s = 0 := by
  obtain rfl | rfl := hzx
  · exact singleLevelGivesZero.2 w s
  · exact zxRef_one w s

/-- Both named instances quantize, outside the zone with the softness given. -/
theorem namedZx_eq_quantize {w s : ℝ} {L : Nat} (hd : ZxDomain (exactNum ℝ) w L s) :
    ∃ s', (0 ≤ s' ∧ s' ≤ 1) ∧ zx w L s = quantize (exactNum ℝ) w L s' ∧
      (gridStep (exactNum ℝ) L ≤ |w| → s' = s) := by
  obtain ⟨_, hL, h0, h1⟩ := exact_zxDomain_iff.1 hd
  obtain rfl | rfl := hzx
  · exact ⟨s, ⟨h0, h1⟩, rfl, fun _ => rfl⟩
  · exact zxRef_eq_quantize hL.odd h0 h1

theorem abs_namedZx_le_one {w s : ℝ} {L : Nat} (hd : ZxDomain (exactNum ℝ) w L s) : |zx w L s| ≤ 1 := by
  obtain ⟨⟨hw1, hw2⟩, hL, _⟩ := exact_zxDomain_iff.1 hd
  obtain ⟨s', ⟨h0, h1⟩, heq, _⟩ := namedZx_eq_quantize hzx hd
  rw [heq]
  exact abs_quantize_le_one hL.odd h0 h1 hw1 hw2

end

/-- A conforming `ZX` is the Quantizer on the single level and outside the zone ([ZX-one], [ZX-local]). -/
theorem ZxNamed.eq_quantize {zx : ℝ → Nat → ℝ → ℝ} (hzx : ZxNamed (exactNum ℝ) zx) {w s : ℝ} {L : Nat}
    (hd : ZxDomain (exactNum ℝ) w L s) (h : L = 1 ∨ gridStep (exactNum ℝ) L ≤ |w|) :
    zx w L s = quantize (exactNum ℝ) w L s := by
  obtain rfl | h1 := eq_or_ne L 1
  · rw [singleLevelGivesZero.2]
    simpa using hzx.one w s
  · exact (exact_sameValue _ _).1 (hzx.locality w L s hd (hd.2.1.bounds.1.resolve_left h1)
      ((exact_outsideZone w L).2 (h.resolve_left h1)))

end Sys2Proof.Machine
end

section
/-! SUPPORT. The crossfade of two quantizations (43_bitcrusher_channel.md R132) in the reference reading: linear between
two integer bit depths; and the two crush modes (R133, R134). -/

namespace Sys2Proof.Machine

/-! ### Between two integer bit depths -/

theorem levels_integer {bd : ℝ} {b : Nat} (h : bd = b) :
    levelsLow (exactNum ℝ) bd = 2 ^ b - 1 ∧ levelsHigh (exactNum ℝ) bd = 2 ^ b - 1 := by
  simp [levelsLow, levelsHigh, levelsOf, h]

theorem levels_between {bd : ℝ} {b : Nat} (h0 : b < bd) (h1 : bd < b + 1) :
    levelsLow (exactNum ℝ) bd = 2 ^ b - 1 ∧ levelsHigh (exactNum ℝ) bd = 2 ^ (b + 1) - 1 := by
  have hfloor : ⌊bd⌋ = (b : ℤ) := Int.floor_eq_iff.2 ⟨h0.le, h1⟩
  have hceil : ⌈bd⌉ = ((b + 1 : Nat) : ℤ) := Int.ceil_eq_iff.2 ⟨by push_cast; linarith, by push_cast; linarith⟩
  rw [levelsLow, levelsHigh, exact_floor, exact_ceil, hfloor, hceil]
  exact ⟨rfl, rfl⟩

section
variable (quant : ℝ → Nat → ℝ → ℝ) {P : Snapshot ℝ} (x : ℝ)

theorem crossfade_integer {b : Nat} (h : P.bitDepth = b) :
    crossfade (exactNum ℝ) quant P x = quant x (2 ^ b - 1) P.smoothing := by
  obtain ⟨hlow, hhigh⟩ := levels_integer h
  rw [crossfade, hlow, hhigh, exact_lerp, sub_self, mul_zero, add_zero]

/-- From one integer to the next the crossfade runs linearly, both ends included. -/
theorem crossfade_cell {b : Nat} (h0 : b ≤ P.bitDepth) (h1 : P.bitDepth ≤ b + 1) :
    crossfade (exactNum ℝ) quant P x = quant x (2 ^ b - 1) P.smoothing +
      (P.bitDepth - b) * (quant x (2 ^ (b + 1) - 1) P.smoothing - quant x (2 ^ b - 1) P.smoothing) := by
  obtain heq | hlt0 := h0.eq_or_lt
  · rw [crossfade_integer quant x heq.symm, ← heq]; ring
  obtain heq | hlt1 := h1.eq_or_lt
  · rw [crossfade_integer (b := b + 1) quant x (by exact_mod_cast heq), heq]; ring
  · obtain ⟨hlow, hhigh⟩ := levels_between hlt0 hlt1
    have hfloor : ⌊P.bitDepth⌋ = (b : ℤ) := Int.floor_eq_iff.2 ⟨h0, hlt1⟩
    rw [crossfade, hlow, hhigh, exact_lerp, exact_frac, hfloor, Int.cast_natCast]

end

/-- Finitely many closed cells cover the range of the bit depth, and on each the crossfade is linear. -/
theorem continuousOn_crossfade (quant : ℝ → Nat → ℝ → ℝ) (P : Snapshot ℝ) (x : ℝ) :
    ContinuousOn (fun bd => crossfade (exactNum ℝ) quant { P with bitDepth := bd } x) (Set.Icc 1 16) := by
  have hcell (b : Nat) : ContinuousOn (fun bd => crossfade (exactNum ℝ) quant { P with bitDepth := bd } x)
      (Set.Icc (b : ℝ) (b + 1)) := by
    refine ContinuousOn.congr (f := fun bd => quant x (2 ^ b - 1) P.smoothing +
      (bd - b) * (quant x (2 ^ (b + 1) - 1) P.smoothing - quant x (2 ^ b - 1) P.smoothing)) (by fun_prop) ?_
    exact fun bd hbd => crossfade_cell (P := { P with bitDepth := bd }) quant x hbd.1 hbd.2
  refine ((locallyFinite_of_finite fun b : Fin 17 => Set.Icc (b : ℝ) (b + 1)).continuousOn_iUnion
    (fun _ => isClosed_Icc) fun b => hcell b).mono fun bd ⟨h1, h16⟩ => Set.mem_iUnion.2 ?_
  have hfloor : ⌊bd⌋₊ < 17 := (Nat.floor_lt (by linarith)).2 (by push_cast; linarith)
  exact ⟨⟨⌊bd⌋₊, hfloor⟩, Nat.floor_le (by linarith), (Nat.lt_floor_add_one bd).le⟩

/-! ### The level counts of a bit depth in range -/

section
variable {bd : ℝ} (h1 : 1 ≤ bd) (h16 : bd ≤ 16)
include h1 h16

theorem isLevelCount_levelsLow : IsLevelCount (levelsLow (exactNum ℝ) bd) :=
  isLevelCount_levelsOf (Int.le_floor.2 (by exact_mod_cast h1)) (by exact_mod_cast (Int.floor_le bd).trans h16)

theorem isLevelCount_levelsHigh : IsLevelCount (levelsHigh (exactNum ℝ) bd) :=
  isLevelCount_levelsOf (by exact_mod_cast h1.trans (Int.le_ceil bd)) (Int.ceil_le.2 (by exact_mod_cast h16))

end

/-! ### The two modes -/

theorem exact_crushSym (P : Snapshot ℝ) (w : ℝ) : crushSym (exactNum ℝ) P w =
    SignType.sign w * crossfade (exactNum ℝ) (quantize (exactNum ℝ)) P |w| := by
  rw [crushSym, exact_sign_eq_coe, exact_abs, exact_mul]

/-- A crossfade reads its quantizer at the two level counts only. -/
theorem crossfade_congr {quant quant' : ℝ → Nat → ℝ → ℝ} {P : Snapshot ℝ} {x x' c : ℝ}
    (hlow : quant x (levelsLow (exactNum ℝ) P.bitDepth) P.smoothing =
      c * quant' x' (levelsLow (exactNum ℝ) P.bitDepth) P.smoothing)
    (hhigh : quant x (levelsHigh (exactNum ℝ) P.bitDepth) P.smoothing =
      c * quant' x' (levelsHigh (exactNum ℝ) P.bitDepth) P.smoothing) :
    crossfade (exactNum ℝ) quant P x = c * crossfade (exactNum ℝ) quant' P x' := by
  rw [crossfade, crossfade, hlow, hhigh, exact_lerp, exact_lerp]; ring

section
variable {P : Snapshot ℝ} {w : ℝ} (h1 : 1 ≤ P.bitDepth) (h16 : P.bitDepth ≤ 16)
include h1 h16

/-- Where the staircase is odd at the sample, quantizing its magnitude and restoring the sign is quantizing the sample
(43_bitcrusher_channel.md R138). -/
theorem crushSym_eq_crossfade (hw1 : -1 ≤ w) (hw2 : w ≤ 1) (h : 0 ≤ w ∨ P.smoothing ≤ 1 / 2 ∨
      gridPhase (exactNum ℝ) |w| (levelsLow (exactNum ℝ) P.bitDepth) ≠ 1 / 2 ∧
      gridPhase (exactNum ℝ) |w| (levelsHigh (exactNum ℝ) P.bitDepth) ≠ 1 / 2) :
    crushSym (exactNum ℝ) P w = crossfade (exactNum ℝ) (quantize (exactNum ℝ)) P w := by
  have hlow := isLevelCount_levelsLow h1 h16
  have hhigh := isLevelCount_levelsHigh h1 h16
  rw [exact_crushSym]
  obtain hneg | rfl | hpos := lt_trichotomy w 0
  · have habs : |w| = -w := abs_of_neg hneg
    rw [habs] at h
    have hflip : (gridPhase (exactNum ℝ) (-w) (levelsLow (exactNum ℝ) P.bitDepth) ≠ 1 / 2 ∨ P.smoothing ≤ 1 / 2) ∧
        (gridPhase (exactNum ℝ) (-w) (levelsHigh (exactNum ℝ) P.bitDepth) ≠ 1 / 2 ∨ P.smoothing ≤ 1 / 2) := by
      obtain h | h | ⟨hl, hh⟩ := h
      · exact absurd h hneg.not_ge
      · exact ⟨.inr h, .inr h⟩
      · exact ⟨.inl hl, .inl hh⟩
    rw [habs, sign_neg hneg, SignType.coe_neg_one, eq_comm]
    refine crossfade_congr ?_ ?_
    · simpa using quantize_neg_of_odd hlow.odd (neg_le_neg hw2) (by linarith) hflip.1
    · simpa using quantize_neg_of_odd hhigh.odd (neg_le_neg hw2) (by linarith) hflip.2
  · rw [sign_zero, SignType.coe_zero, zero_mul, eq_comm, crossfade, quantize_zero_of_odd hlow.odd,
      quantize_zero_of_odd hhigh.odd, exact_lerp]
    ring
  · rw [sign_pos hpos, SignType.coe_one, one_mul, abs_of_pos hpos]

/-- Both modes crossfade the plain Quantizer where moreover a conforming `ZX` is the Quantizer: on the single level and
outside the zone. -/
theorem crush_eq_crossfade {cfg : Config ℝ} (hzx : ZxNamed (exactNum ℝ) cfg.zx) (h0 : 0 ≤ P.smoothing)
    (hs1 : P.smoothing ≤ 1) (hw1 : -1 ≤ w) (hw2 : w ≤ 1) (h : 0 ≤ w ∨ P.smoothing ≤ 1 / 2 ∨
      gridPhase (exactNum ℝ) |w| (levelsLow (exactNum ℝ) P.bitDepth) ≠ 1 / 2 ∧
      gridPhase (exactNum ℝ) |w| (levelsHigh (exactNum ℝ) P.bitDepth) ≠ 1 / 2)
    (hlow : levelsLow (exactNum ℝ) P.bitDepth = 1 ∨
      gridStep (exactNum ℝ) (levelsLow (exactNum ℝ) P.bitDepth) ≤ |w|)
    (hhigh : levelsHigh (exactNum ℝ) P.bitDepth = 1 ∨
      gridStep (exactNum ℝ) (levelsHigh (exactNum ℝ) P.bitDepth) ≤ |w|) :
    crush (exactNum ℝ) cfg P w = crossfade (exactNum ℝ) (quantize (exactNum ℝ)) P w := by
  unfold crush
  split
  · exact crushSym_eq_crossfade h1 h16 hw1 hw2 h
  · have hdomain {L : Nat} (hL : IsLevelCount L) : ZxDomain (exactNum ℝ) w L P.smoothing :=
      exact_zxDomain_iff.2 ⟨⟨hw1, hw2⟩, hL, h0, hs1⟩
    rw [crushAsym, crossfade, crossfade, hzx.eq_quantize (hdomain (isLevelCount_levelsLow h1 h16)) hlow,
      hzx.eq_quantize (hdomain (isLevelCount_levelsHigh h1 h16)) hhigh]

/-- The magnitude in symmetric mode is not negative. -/
theorem crossfade_nonneg (h0 : 0 ≤ P.smoothing) (hs1 : P.smoothing ≤ 1) (hw1 : 0 ≤ w) (hw2 : w ≤ 1) :
    0 ≤ crossfade (exactNum ℝ) (quantize (exactNum ℝ)) P w := by
  have hlow := quantize_nonneg (isLevelCount_levelsLow h1 h16).odd h0 hs1 hw1 hw2
  have hhigh := quantize_nonneg (isLevelCount_levelsHigh h1 h16).odd h0 hs1 hw1 hw2
  obtain ⟨ht0, ht1⟩ := sub_floor_mem_Icc P.bitDepth
  rw [crossfade, exact_lerp, exact_frac]
  nlinarith [mul_nonneg (sub_nonneg.2 ht1) hlow, mul_nonneg ht0 hhigh]

end

end Sys2Proof.Machine
end

section
/-! SUPPORT. The whole channel in the reference reading: the clamped snapshot, which stages keep the sign of their
operand (43_bitcrusher_channel.md R143), and the channel with no warp, no gain and `AUTO = 0`. -/

namespace Sys2Proof.Machine

/-! ### The clamped snapshot -/

section
variable (cfg : Config ℝ) (v : ℝ)

theorem exact_clampBitDepth_mem :
    1 ≤ clampBitDepth (exactNum ℝ) cfg v ∧ clampBitDepth (exactNum ℝ) cfg v ≤ 16 := by
  rw [clampBitDepth, exact_clampP]
  simpa using exact_clamp_mem v (by norm_num : (1 : ℝ) ≤ 16)

theorem exact_clampSmoothing_mem :
    0 ≤ clampSmoothing (exactNum ℝ) cfg v ∧ clampSmoothing (exactNum ℝ) cfg v ≤ 1 := by
  rw [clampSmoothing, exact_clampP]
  simpa using exact_clamp_mem v (zero_le_one (α := ℝ))

variable {v}

theorem exact_clampBitDepth_id (h1 : 1 ≤ v) (h16 : v ≤ 16) : clampBitDepth (exactNum ℝ) cfg v = v := by
  rw [clampBitDepth, exact_clampP]
  simpa using exact_clamp_id h1 h16

theorem exact_clampSmoothing_id (h0 : 0 ≤ v) (h1 : v ≤ 1) : clampSmoothing (exactNum ℝ) cfg v = v := by
  rw [clampSmoothing, exact_clampP]
  simpa using exact_clamp_id h0 h1

end

/-! ### Keeping the sign -/

/-- `y` never has the opposite sign of `x`, and is zero where `x` is (43_bitcrusher_channel.md R143). -/
def KeepsSign (y x : ℝ) : Prop := 0 ≤ y * x ∧ (x = 0 → y = 0)

theorem KeepsSign.trans {x y z : ℝ} (hzy : KeepsSign z y) (hyx : KeepsSign y x) : KeepsSign z x := by
  refine ⟨?_, fun h => hzy.2 (hyx.2 h)⟩
  obtain rfl | hy := eq_or_ne y 0
  · rw [hzy.2 rfl, zero_mul]
  · have hprod : z * x * (y * y) = z * y * (y * x) := by ring
    exact nonneg_of_mul_nonneg_left (hprod ▸ mul_nonneg hzy.1 hyx.1) (mul_self_pos.2 hy)

theorem keepsSign_mul (x : ℝ) {g : ℝ} (hg : 0 ≤ g) : KeepsSign (x * g) x :=
  ⟨by rw [mul_right_comm]; exact mul_nonneg (mul_self_nonneg x) hg, fun h => by rw [h, zero_mul]⟩

theorem keepsSign_sign_mul (x : ℝ) {g : ℝ} (hg : 0 ≤ g) : KeepsSign (SignType.sign x * g) x :=
  ⟨by rw [mul_right_comm, sign_mul_self]; exact mul_nonneg (abs_nonneg x) hg, fun h => by simp [h]⟩

theorem keepsSign_clamp (v : ℝ) :
    KeepsSign (clamp (exactNum ℝ) v (toF (exactNum ℝ) (-1)) (toF (exactNum ℝ) 1)) v := by
  simp only [clamp, exact_lt, exact_toF, decide_eq_true_eq, Int.cast_neg, Int.cast_one]
  split_ifs with hlo hhi
  · exact ⟨by linarith, fun h => by linarith⟩
  · exact ⟨by linarith, fun h => by linarith⟩
  · exact ⟨mul_self_nonneg v, id⟩

section
variable {cfg : Config ℝ} (hcfg : ReferenceConfig cfg)
include hcfg

theorem keepsSign_signedPow (x e : ℝ) : KeepsSign (signedPow (exactNum ℝ) cfg x e) x := by
  rw [exact_signedPow, hcfg.pow]
  exact keepsSign_sign_mul x (Real.rpow_nonneg (abs_nonneg x) e)

theorem exact_gammaValue_pos (gp : ℝ) : 0 < gammaValue cfg gp := by
  rw [gammaValue, hcfg.exp10]; positivity

theorem exact_driveGain (P : Snapshot ℝ) : driveGain (exactNum ℝ) cfg P = 10 ^ (P.gainDb / 20) := by
  simp [driveGain, hcfg.pregain, hcfg.exp10]

theorem keepsSign_warped (P : Snapshot ℝ) (x : ℝ) : KeepsSign (warped (exactNum ℝ) cfg P x) x := by
  refine (keepsSign_signedPow hcfg _ _).trans ((keepsSign_clamp _).trans ?_)
  rw [exact_driveGain hcfg]
  exact keepsSign_mul x (by positivity)

/-- The warped sample is of full scale: the drive clamps, and a power keeps `[0, 1]`. -/
theorem abs_warped_le_one (P : Snapshot ℝ) (x : ℝ) : |warped (exactNum ℝ) cfg P x| ≤ 1 := by
  have hdrive : |drive (exactNum ℝ) cfg P x| ≤ 1 := by
    rw [drive, exact_toF, exact_toF, Int.cast_neg, Int.cast_one]
    exact abs_le.2 (exact_clamp_mem _ (by norm_num))
  have hexp : 0 ≤ (exactNum ℝ).div (toF (exactNum ℝ) 1) (gammaValue cfg P.gammaParam) := by
    simpa using (exact_gammaValue_pos hcfg P.gammaParam).le
  have hsign : |((SignType.sign (drive (exactNum ℝ) cfg P x) : SignType) : ℝ)| ≤ 1 := by
    cases SignType.sign (drive (exactNum ℝ) cfg P x) <;> simp
  rw [warped, warp, exact_signedPow, hcfg.pow, abs_mul]
  exact mul_le_one₀ hsign (abs_nonneg _)
    (by rw [abs_of_nonneg (by positivity)]; exact Real.rpow_le_one (abs_nonneg _) hdrive hexp)

theorem exact_envGain_nonneg (e1 : ℝ) : 0 ≤ envGain (exactNum ℝ) cfg e1 := by
  rw [exact_envGain, hcfg.gainCeil]
  split
  · norm_num
  · exact one_div_nonneg.2 (by linarith)

theorem keepsSign_gainStage (f : Follower ℝ) (P : Snapshot ℝ) (w u : ℝ) :
    KeepsSign (gainStage (exactNum ℝ) cfg f P w u) u := by
  unfold gainStage
  split
  · exact keepsSign_mul u (exact_envGain_nonneg hcfg _)
  · exact ⟨mul_self_nonneg u, id⟩

/-- Stage S4 in symmetric mode is the sign of the sample times a quantized magnitude. -/
theorem keepsSign_crushed (P : Snapshot ℝ) (hsym : P.symmetric = true) {w : ℝ} (hw : |w| ≤ 1) :
    KeepsSign (crushed (exactNum ℝ) cfg (clampSnapshot (exactNum ℝ) cfg P) w) w := by
  obtain ⟨h1, h16⟩ := exact_clampBitDepth_mem cfg P.bitDepth
  obtain ⟨h0, hs1⟩ := exact_clampSmoothing_mem cfg P.smoothing
  refine (keepsSign_signedPow hcfg _ _).trans ?_
  rw [crush, if_pos (show (clampSnapshot (exactNum ℝ) cfg P).symmetric = true from hsym), exact_crushSym]
  exact keepsSign_sign_mul w (crossfade_nonneg h1 h16 h0 hs1 (abs_nonneg w) hw)

end

/-! ### The neutral channel -/

/-- A snapshot with no warp, no gain and `AUTO = 0` (43_bitcrusher_channel.md R142 (f), R147). -/
def neutralSnapshot (bd sm : ℝ) (sym : Bool) : Snapshot ℝ :=
  { bitDepth := bd, gammaParam := 0, smoothing := sm, gainDb := 0, autoGain := false, symmetric := sym }

theorem clampSnapshot_neutral (cfg : Config ℝ) (bd sm : ℝ) (sym : Bool) :
    clampSnapshot (exactNum ℝ) cfg (neutralSnapshot bd sm sym) =
      neutralSnapshot (clampBitDepth (exactNum ℝ) cfg bd) (clampSmoothing (exactNum ℝ) cfg sm) sym := by
  have hgamma : clampGamma (exactNum ℝ) cfg 0 = 0 := by
    rw [clampGamma, exact_clampP, exact_clamp_id] <;> simp
  have hgain : clampGainDb (exactNum ℝ) cfg 0 = 0 := by
    rw [clampGainDb, exact_clampP, exact_clamp_id] <;> simp
  simp only [clampSnapshot, neutralSnapshot, hgamma, hgain]

section
variable {cfg : Config ℝ} (hcfg : ReferenceConfig cfg) {x : ℝ} (hx1 : -1 ≤ x) (hx2 : x ≤ 1)
include hcfg

theorem exact_signedPow_one (y : ℝ) : signedPow (exactNum ℝ) cfg y 1 = y := by
  rw [exact_signedPow, hcfg.pow, Real.rpow_one, sign_mul_abs]

theorem exact_gammaValue_zero : gammaValue cfg 0 = 1 := by rw [gammaValue, hcfg.exp10, Real.rpow_zero]

include hx1 hx2

/-- Drive and warp leave a full-scale sample alone. -/
theorem warped_neutral (bd sm : ℝ) (sym : Bool) :
    warped (exactNum ℝ) cfg (neutralSnapshot bd sm sym) x = x := by
  have hdrive : drive (exactNum ℝ) cfg (neutralSnapshot bd sm sym) x = x := by
    simp [drive, exact_driveGain hcfg, neutralSnapshot, exact_clamp_id hx1 hx2]
  have hexp : (exactNum ℝ).div (toF (exactNum ℝ) 1) (gammaValue cfg 0) = 1 := by simp [exact_gammaValue_zero hcfg]
  rw [warped, hdrive, warp, show (neutralSnapshot bd sm sym).gammaParam = 0 from rfl, hexp, exact_signedPow_one hcfg]

/-- What is left of the channel is stage S4, clamped. -/
theorem processCh_neutral (f : Follower ℝ) (bd sm : ℝ) (sym : Bool) :
    (processCh (exactNum ℝ) cfg f x (neutralSnapshot bd sm sym)).2 = clamp (exactNum ℝ) (crush (exactNum ℝ) cfg
      (neutralSnapshot (clampBitDepth (exactNum ℝ) cfg bd) (clampSmoothing (exactNum ℝ) cfg sm) sym) x) (-1) 1 := by
  have hcrushed (bd sm : ℝ) : crushed (exactNum ℝ) cfg (neutralSnapshot bd sm sym) x =
      crush (exactNum ℝ) cfg (neutralSnapshot bd sm sym) x := by
    rw [crushed, unwarp, show (neutralSnapshot bd sm sym).gammaParam = 0 from rfl, exact_gammaValue_zero hcfg,
      exact_signedPow_one hcfg]
  have hsanitised : sanitiseSample (exactNum ℝ) x = x := if_pos rfl
  have hgain (Q : Snapshot ℝ) (hQ : Q.autoGain = false) (w u : ℝ) : gainStage (exactNum ℝ) cfg f Q w u = u :=
    if_neg (by simp [hQ])
  simp only [processCh, clampSnapshot_neutral, hsanitised, warped_neutral hcfg hx1 hx2, hcrushed]
  rw [hgain _ rfl, exact_toF, exact_toF, Int.cast_neg, Int.cast_one]

/-- Stage S0 clamps the smoothing, so clamping it before changes nothing. -/
theorem processCh_neutral_clampSmoothing (f : Follower ℝ) (bd sm : ℝ) (sym : Bool) :
    (processCh (exactNum ℝ) cfg f x (neutralSnapshot bd sm sym)).2 =
      (processCh (exactNum ℝ) cfg f x (neutralSnapshot bd (clampSmoothing (exactNum ℝ) cfg sm) sym)).2 := by
  obtain ⟨h0, hs1⟩ := exact_clampSmoothing_mem cfg sm
  rw [processCh_neutral hcfg hx1 hx2, processCh_neutral hcfg hx1 hx2, exact_clampSmoothing_id cfg h0 hs1]

/-- The same for parameters that pass stage S0 and a crushed sample of full scale. -/
theorem processCh_neutral_eq (f : Follower ℝ) {bd sm y : ℝ} {sym : Bool} (h1 : 1 ≤ bd) (h16 : bd ≤ 16)
    (h0 : 0 ≤ sm) (hs1 : sm ≤ 1) (hcrush : crush (exactNum ℝ) cfg (neutralSnapshot bd sm sym) x = y)
    (hy1 : -1 ≤ y) (hy2 : y ≤ 1) : (processCh (exactNum ℝ) cfg f x (neutralSnapshot bd sm sym)).2 = y := by
  rw [processCh_neutral hcfg hx1 hx2, exact_clampBitDepth_id cfg h1 h16, exact_clampSmoothing_id cfg h0 hs1, hcrush,
    exact_clamp_id hy1 hy2]

end

end Sys2Proof.Machine
end

section
/-! SUPPORT. The neutral channel at 16 bits and smoothing 0, where the grid has 65535 levels and the Quantizer is the
identity (43_bitcrusher_channel.md R142 (f)). -/

namespace Sys2Proof.Machine

theorem gridStep_sixteen_bits : gridStep (exactNum ℝ) 65535 = 1 / 32767 := by norm_num

section
variable {cfg : Config ℝ} {x : ℝ} (hx1 : -1 ≤ x) (hx2 : x ≤ 1)

theorem crossfade_sixteen_bits (quant : ℝ → Nat → ℝ → ℝ) (sym : Bool) (x : ℝ) :
    crossfade (exactNum ℝ) quant (neutralSnapshot 16 0 sym) x = quant x 65535 0 :=
  crossfade_integer (b := 16) quant x (by norm_num [neutralSnapshot])

theorem crush_sixteen_bits_asym : crush (exactNum ℝ) cfg (neutralSnapshot 16 0 false) x = cfg.zx x 65535 0 :=
  (if_neg (by simp [neutralSnapshot])).trans (crossfade_sixteen_bits cfg.zx false x)

include hx1 hx2

theorem crush_sixteen_bits_sym : crush (exactNum ℝ) cfg (neutralSnapshot 16 0 true) x = x := by
  have hsym : crushSym (exactNum ℝ) (neutralSnapshot 16 0 true) x =
      crossfade (exactNum ℝ) (quantize (exactNum ℝ)) (neutralSnapshot 16 0 true) x :=
    crushSym_eq_crossfade (by norm_num [neutralSnapshot]) le_rfl hx1 hx2 (.inr (.inl (by norm_num [neutralSnapshot])))
  rw [crush, if_pos (show (neutralSnapshot 16 0 true).symmetric = true from rfl), hsym, crossfade_sixteen_bits,
    quantize_soft_zero (by norm_num)]

variable (hcfg : ReferenceConfig cfg)
include hcfg

theorem zx_sixteen_bits_outside (h : 1 / 32767 ≤ |x|) : cfg.zx x 65535 0 = x := by
  have hdomain : ZxDomain (exactNum ℝ) x 65535 0 :=
    exact_zxDomain_iff.2 ⟨⟨hx1, hx2⟩, ⟨16, by norm_num⟩, le_rfl, zero_le_one⟩
  rw [hcfg.zx.eq_quantize hdomain (.inr (gridStep_sixteen_bits.trans_le h)), quantize_soft_zero (by norm_num)]

/-- Within one step of zero [ZX-range] and [ZX-bound] are all that is known. -/
theorem zx_sixteen_bits_inside (h : |x| < 1 / 32767) :
    (-1 ≤ cfg.zx x 65535 0 ∧ cfg.zx x 65535 0 ≤ 1) ∧ |cfg.zx x 65535 0 - x| ≤ 1 / 65534 := by
  have hdomain : ZxDomain (exactNum ℝ) x 65535 0 :=
    exact_zxDomain_iff.2 ⟨⟨hx1, hx2⟩, ⟨16, by norm_num⟩, le_rfl, zero_le_one⟩
  rw [← gridStep_sixteen_bits] at h
  have hinside : outsideZone (exactNum ℝ) x 65535 = false := by
    rw [Bool.eq_false_iff, ne_eq, exact_outsideZone]; exact h.not_ge
  refine ⟨by simpa using (hcfg.zx.range x 65535 0 hdomain (by norm_num) hinside).1, ?_⟩
  calc _ ≤ gridStep (exactNum ℝ) 65535 / 2 := hcfg.zxBound x 65535 0 hdomain (by norm_num) h
    _ = 1 / 65534 := by rw [gridStep_sixteen_bits]; norm_num

end

end Sys2Proof.Machine
end

section
/-! SUPPORT. The worked examples of a neutral channel (43_bitcrusher_channel.md R147): the hard staircase at the sample
`±0.7` on the grids of 3, 7 and 15 levels, and at `0.5` on the grid of 3. -/

namespace Sys2Proof.Machine

/-- At softness 1 the level nearest the sample, an exact half step up (40_quantizer.md R89). -/
theorem quantize_hard_eq {L m : Nat} {x : ℝ} {k : ℤ} (hm : 1 ≤ m) (hstep : gridStep (exactNum ℝ) L = 1 / m)
    (hx1 : -1 ≤ x) (hx2 : x ≤ 1) (h0 : k - 1 / 2 ≤ x * m) (h1 : x * m < k + 1 / 2) :
    quantize (exactNum ℝ) x L 1 = k / m := by
  rw [quantize_hard hm hstep hx1 hx2, round_eq_iff.2 ⟨h0, h1⟩]

theorem gridStep_three : gridStep (exactNum ℝ) 3 = 1 / (1 : Nat) := by norm_num
theorem gridStep_seven : gridStep (exactNum ℝ) 7 = 1 / (3 : Nat) := by norm_num
theorem gridStep_fifteen : gridStep (exactNum ℝ) 15 = 1 / (7 : Nat) := by norm_num

theorem quantize_three_half : quantize (exactNum ℝ) (1 / 2) 3 1 = 1 := by
  rw [quantize_hard_eq (k := 1) le_rfl gridStep_three] <;> norm_num

theorem quantize_three_seven_tenths : quantize (exactNum ℝ) (7 / 10) 3 1 = 1 := by
  rw [quantize_hard_eq (k := 1) le_rfl gridStep_three] <;> norm_num

theorem quantize_seven_seven_tenths : quantize (exactNum ℝ) (7 / 10) 7 1 = 2 / 3 := by
  rw [quantize_hard_eq (k := 2) (by norm_num) gridStep_seven] <;> norm_num

theorem quantize_fifteen_seven_tenths : quantize (exactNum ℝ) (7 / 10) 15 1 = 5 / 7 := by
  rw [quantize_hard_eq (k := 5) (by norm_num) gridStep_fifteen] <;> norm_num

/-- At 2 bits the crossfade is the grid of 3. -/
theorem crossfade_two_bits_half :
    crossfade (exactNum ℝ) (quantize (exactNum ℝ)) (neutralSnapshot 2 1 true) (1 / 2) = 1 :=
  (crossfade_integer (b := 2) _ _ (by norm_num [neutralSnapshot])).trans quantize_three_half

/-- Half way between 1 and 2 bits: half of what the grid of 3 gives, the single level being zero. -/
theorem crossfade_three_halves_bits :
    crossfade (exactNum ℝ) (quantize (exactNum ℝ)) (neutralSnapshot (3 / 2) 1 true) (7 / 10) = 1 / 2 := by
  rw [crossfade_cell (b := 1) _ _ (by norm_num [neutralSnapshot]) (by norm_num [neutralSnapshot]),
    show 2 ^ 1 - 1 = 1 from rfl, singleLevelGivesZero.2, show (neutralSnapshot (3 / 2) 1 true).smoothing = 1 from rfl,
    show 2 ^ (1 + 1) - 1 = 3 from rfl, quantize_three_seven_tenths]
  norm_num [neutralSnapshot]

/-- The sample `0.7` lies at no mid point: a tenth of a step above a level of the grid of 7, nine tenths on
that of 15. -/
theorem gridPhase_seven_tenths :
    gridPhase (exactNum ℝ) (7 / 10) 7 ≠ 1 / 2 ∧ gridPhase (exactNum ℝ) (7 / 10) 15 ≠ 1 / 2 := by
  rw [gridPhase_eq (by norm_num) gridStep_seven (by norm_num) (by norm_num),
    gridPhase_eq (by norm_num) gridStep_fifteen (by norm_num) (by norm_num)]
  norm_num

section
variable {cfg : Config ℝ} (hcfg : ReferenceConfig cfg) (f : Follower ℝ)
include hcfg

/-- Either mode, outside the zone and away from the mid points. -/
theorem neutral_both_modes (sym : Bool) {bd sm x y : ℝ} (h1 : 1 ≤ bd) (h16 : bd ≤ 16) (h0 : 0 ≤ sm) (hs1 : sm ≤ 1)
    (hx1 : -1 ≤ x) (hx2 : x ≤ 1) (h : 0 ≤ x ∨ gridPhase (exactNum ℝ) |x| (levelsLow (exactNum ℝ) bd) ≠ 1 / 2 ∧
      gridPhase (exactNum ℝ) |x| (levelsHigh (exactNum ℝ) bd) ≠ 1 / 2)
    (hlow : levelsLow (exactNum ℝ) bd = 1 ∨ gridStep (exactNum ℝ) (levelsLow (exactNum ℝ) bd) ≤ |x|)
    (hhigh : levelsHigh (exactNum ℝ) bd = 1 ∨ gridStep (exactNum ℝ) (levelsHigh (exactNum ℝ) bd) ≤ |x|)
    (hy : crossfade (exactNum ℝ) (quantize (exactNum ℝ)) (neutralSnapshot bd sm sym) x = y)
    (hy1 : -1 ≤ y) (hy2 : y ≤ 1) : (processCh (exactNum ℝ) cfg f x (neutralSnapshot bd sm sym)).2 = y :=
  processCh_neutral_eq hcfg hx1 hx2 f h1 h16 h0 hs1 ((crush_eq_crossfade (P := neutralSnapshot bd sm sym) h1 h16 hcfg.zx
    h0 hs1 hx1 hx2 (h.imp_right .inr) hlow hhigh).trans hy) hy1 hy2

theorem neutral_four_bits (sym : Bool) {sm y : ℝ} (h0 : 0 ≤ sm) (hs1 : sm ≤ 1)
    (hy : quantize (exactNum ℝ) (7 / 10) 15 sm = y) (hy1 : -1 ≤ y) (hy2 : y ≤ 1) :
    (processCh (exactNum ℝ) cfg f (7 / 10) (neutralSnapshot 4 sm sym)).2 = y := by
  obtain ⟨hlow, hhigh⟩ := levels_integer (bd := 4) (b := 4) (by norm_num)
  have hzone : gridStep (exactNum ℝ) (2 ^ 4 - 1) ≤ |(7 / 10 : ℝ)| := by
    rw [abs_of_pos (by norm_num)]; norm_num
  refine neutral_both_modes hcfg f sym (by norm_num) (by norm_num) h0 hs1 (by norm_num) (by norm_num)
    (.inl (by norm_num)) (.inr (by rwa [hlow])) (.inr (by rwa [hhigh])) ?_ hy1 hy2
  exact (crossfade_integer (b := 4) _ _ (by norm_num [neutralSnapshot])).trans hy

/-- Half way between 3 and 4 bits. -/
theorem neutral_three_and_a_half_bits (sym : Bool) {x : ℝ} (hx : |x| = 7 / 10) :
    (processCh (exactNum ℝ) cfg f x (neutralSnapshot (7 / 2) 1 sym)).2 =
      (quantize (exactNum ℝ) x 7 1 + quantize (exactNum ℝ) x 15 1) / 2 := by
  obtain ⟨hx1, hx2⟩ := abs_le.1 (hx.le.trans (by norm_num : (7 / 10 : ℝ) ≤ 1))
  obtain ⟨hlow, hhigh⟩ := levels_between (bd := 7 / 2) (b := 3) (by norm_num) (by norm_num)
  have hq7 := abs_le.1 (abs_quantize_le_one (L := 7) (s := 1) (by norm_num) zero_le_one le_rfl hx1 hx2)
  have hq15 := abs_le.1 (abs_quantize_le_one (L := 15) (s := 1) (by norm_num) zero_le_one le_rfl hx1 hx2)
  refine neutral_both_modes hcfg f sym (by norm_num) (by norm_num) zero_le_one le_rfl hx1 hx2 (.inr ?_) (.inr ?_)
    (.inr ?_) ?_ (by linarith) (by linarith)
  · rw [hlow, hhigh, hx]; exact gridPhase_seven_tenths
  · rw [hlow, hx]; norm_num
  · rw [hhigh, hx]; norm_num
  · rw [crossfade_cell (b := 3) _ _ (by norm_num [neutralSnapshot]) (by norm_num [neutralSnapshot])]
    norm_num [neutralSnapshot]
    ring

/-- Symmetric mode, at any sample. -/
theorem neutral_symmetric {bd x c y : ℝ} (h1 : 1 ≤ bd) (h16 : bd ≤ 16) (hx1 : -1 ≤ x) (hx2 : x ≤ 1)
    (hc : crossfade (exactNum ℝ) (quantize (exactNum ℝ)) (neutralSnapshot bd 1 true) |x| = c)
    (hy : SignType.sign x * c = y) (hy1 : -1 ≤ y) (hy2 : y ≤ 1) :
    (processCh (exactNum ℝ) cfg f x (neutralSnapshot bd 1 true)).2 = y := by
  refine processCh_neutral_eq hcfg hx1 hx2 f h1 h16 zero_le_one le_rfl ?_ hy1 hy2
  rw [crush, if_pos (show (neutralSnapshot bd 1 true).symmetric = true from rfl), exact_crushSym, hc, hy]

/-- One bit of depth silences either mode at every smoothing (43_bitcrusher_channel.md R142 (a)). -/
theorem neutral_one_bit (sym : Bool) (sm : ℝ) {x : ℝ} (hx1 : 0 ≤ x) (hx2 : x ≤ 1) :
    (processCh (exactNum ℝ) cfg f x (neutralSnapshot 1 sm sym)).2 = 0 := by
  have hx0 : -1 ≤ x := by linarith
  obtain ⟨h0, hs1⟩ := exact_clampSmoothing_mem cfg sm
  obtain ⟨hlow, hhigh⟩ := levels_integer (bd := 1) (b := 1) (by norm_num)
  rw [processCh_neutral_clampSmoothing hcfg hx0 hx2]
  refine neutral_both_modes hcfg f sym le_rfl (by norm_num) h0 hs1 hx0 hx2 (.inl hx1) (.inl hlow) (.inl hhigh) ?_
    (by norm_num) (by norm_num)
  exact (crossfade_integer (b := 1) _ _ (by norm_num [neutralSnapshot])).trans (singleLevelGivesZero.2 _ _)

end

end Sys2Proof.Machine
end

section
/-! PROOFS. The statements on the channel in the reference reading (43_bitcrusher_channel.md). -/

namespace Sys2Proof.Machine

/-- Settles O55: both instances are the Quantizer at some softness, outside the zone at the one given. -/
theorem namedZxInstancesConform : Obligations.NamedZxInstancesConform := by
  intro zx hzx
  refine ⟨⟨fun w s => ?_, fun w L s hd _ hout => ?_, fun w L s hd _ _ => ?_⟩, fun w L s hd h3 _ => ?_,
    fun w L s => abs_namedZx_le_one hzx, fun L s hd => ?_⟩
  · rw [exact_sameValue, namedZx_one hzx, exact_toF, Int.cast_zero]
  · obtain ⟨s', _, heq, hsoft⟩ := namedZx_eq_quantize hzx hd
    rw [exact_sameValue, heq, hsoft ((exact_outsideZone w L).1 hout)]
  · simpa using abs_le.1 (abs_namedZx_le_one hzx hd)
  · obtain ⟨⟨hw1, hw2⟩, hL, _⟩ := exact_zxDomain_iff.1 hd
    obtain ⟨s', ⟨h0, h1⟩, heq, _⟩ := namedZx_eq_quantize hzx hd
    rw [heq]
    exact abs_quantize_sub_le_half_step hL.odd h0 h1 h3 hw1 hw2
  · obtain ⟨s', _, heq, _⟩ := namedZx_eq_quantize hzx hd
    rw [heq, quantize_zero_of_odd hd.2.1.odd]

/-- Settles O56: the crossfade is linear on each cell, and each quantization is within half its step of the sample. -/
theorem bitDepthContinuity : Obligations.BitDepthContinuity := by
  refine ⟨fun quant P x => ⟨continuousOn_crossfade quant P x, fun b t _ h0 h1 => ?_⟩, fun b x s hb hx1 hx2 h0 h1 => ?_⟩
  · rw [crossfade_cell (b := b) quant x (by simpa using h0) (by simpa using h1), add_sub_cancel_left]
  · have hlevels (b : Nat) (h : 2 ≤ b) : (2 ^ b - 1) % 2 = 1 ∧ 3 ≤ 2 ^ b - 1 :=
      ⟨odd_levels (by omega), by have := Nat.pow_le_pow_right two_pos h; omega⟩
    obtain ⟨hodd, h3⟩ := hlevels b hb
    obtain ⟨hodd', h3'⟩ := hlevels (b + 1) (by omega)
    have hclose := abs_quantize_sub_le_half_step hodd h0 h1 h3 hx1 hx2
    have hclose' := abs_quantize_sub_le_half_step hodd' h0 h1 h3' hx1 hx2
    rw [abs_sub_comm] at hclose
    calc _ ≤ _ := abs_sub_le _ x _
      _ ≤ _ := add_le_add hclose' hclose
      _ = _ := by ring

/-- Settles O57: the conditions are those under which the staircase is odd at the sample. -/
theorem crushModesAgree : Obligations.CrushModesAgree := by
  intro cfg P w hzx h1 h16 _ _ hw1 hw2 h
  rw [crushSym_eq_crossfade h1 h16 hw1 hw2 h, crushAsym, hzx]
  rfl

/-- Settles O58: every stage keeps the sign of its operand. -/
theorem symmetricSignNeverOpposite : Obligations.SymmetricSignNeverOpposite := by
  intro cfg f x P hcfg hsym
  have hw := abs_warped_le_one hcfg (clampSnapshot (exactNum ℝ) cfg P) x
  exact (keepsSign_clamp _).trans ((keepsSign_gainStage hcfg f _ _ _).trans
    ((keepsSign_crushed hcfg P hsym hw).trans (keepsSign_warped hcfg _ x)))

/-- Settles O59: at smoothing 0 the Quantizer is the identity, and a conforming `ZX` is the Quantizer but within one
step of zero, where it is within half a step of the sample ([ZX-bound]). -/
theorem smoothingTransparency : Obligations.SmoothingTransparency := by
  intro cfg f x sym y hcfg hx1 hx2 hy
  have hout {z : ℝ} (hcrush : crush (exactNum ℝ) cfg (neutralSnapshot 16 0 sym) x = z) (hz1 : -1 ≤ z) (hz2 : z ≤ 1) :
      y = z :=
    hy.trans (processCh_neutral_eq hcfg hx1 hx2 f (by norm_num) le_rfl le_rfl zero_le_one hcrush hz1 hz2)
  cases sym with
  | true => exact ⟨fun _ => hout (crush_sixteen_bits_sym hx1 hx2) hx1 hx2, nofun⟩
  | false =>
    refine ⟨nofun, fun _ => ?_⟩
    obtain h | h := le_or_gt (1 / 32767) |x|
    · have hsame : y = x := hout (crush_sixteen_bits_asym.trans (zx_sixteen_bits_outside hx1 hx2 hcfg h)) hx1 hx2
      exact ⟨by rw [hsame, sub_self, abs_zero]; norm_num, fun _ => hsame⟩
    · obtain ⟨⟨hz1, hz2⟩, hclose⟩ := zx_sixteen_bits_inside hx1 hx2 hcfg h
      rw [hout crush_sixteen_bits_asym hz1 hz2]
      exact ⟨hclose, fun h' => absurd h' h.not_ge⟩

/-- Settles O60: the channel is its crossfade, of levels read off the hard staircase. -/
theorem referenceWorkedExamples : Obligations.ReferenceWorkedExamples := by
  rintro cfg f _ hcfg rfl
  refine ⟨fun sym => ?_, fun sym => ?_, fun sym => ?_, fun sym => ?_, ?_, ?_, ?_, fun sym sm => ?_⟩
  · exact neutral_four_bits hcfg f sym zero_le_one le_rfl quantize_fifteen_seven_tenths (by norm_num) (by norm_num)
  · exact neutral_four_bits hcfg f sym le_rfl zero_le_one (quantize_soft_zero (by norm_num)) (by norm_num) (by norm_num)
  · refine (neutral_three_and_a_half_bits hcfg f sym (abs_of_pos (by norm_num))).trans ?_
    rw [quantize_seven_seven_tenths, quantize_fifteen_seven_tenths]; norm_num
  · obtain ⟨h7, h15⟩ := gridPhase_seven_tenths
    refine (neutral_three_and_a_half_bits hcfg f sym (by rw [abs_of_neg] <;> norm_num)).trans ?_
    rw [neg_div, quantize_neg_of_odd (by norm_num) (by norm_num) (by norm_num) (.inl h7),
      quantize_neg_of_odd (by norm_num) (by norm_num) (by norm_num) (.inl h15), quantize_seven_seven_tenths,
      quantize_fifteen_seven_tenths]
    norm_num
  · have habs : |(7 / 10 : ℝ)| = 7 / 10 := abs_of_pos (by norm_num)
    exact neutral_symmetric hcfg f (by norm_num) (by norm_num) (by norm_num) (by norm_num)
      (habs ▸ crossfade_three_halves_bits) (by simp) (by norm_num) (by norm_num)
  · have habs : |(-1 / 2 : ℝ)| = 1 / 2 := by rw [abs_of_neg] <;> norm_num
    have hsign : SignType.sign (-1 / 2 : ℝ) = -1 := sign_neg (by norm_num)
    exact neutral_symmetric hcfg f (by norm_num) (by norm_num) (by norm_num) (by norm_num)
      (habs ▸ crossfade_two_bits_half) (by simp [hsign]) le_rfl (by norm_num)
  · have habs : |(1 / 2 : ℝ)| = 1 / 2 := abs_of_pos (by norm_num)
    exact neutral_symmetric hcfg f (by norm_num) (by norm_num) (by norm_num) (by norm_num)
      (habs ▸ crossfade_two_bits_half) (by simp) (by norm_num) le_rfl
  · exact neutral_one_bit hcfg f sym sm (by norm_num) (by norm_num)

end Sys2Proof.Machine
end

section
/-! SUPPORT. What a row of the engine answers: the eight PROC rows by their flags, one lane's work with `AUTO` at either
value, and the commands of `UNINIT`. -/

namespace Sys2Proof.Machine

/-! ### The rows by their flags -/

section
variable (sym auto : Bool) (bd gp sm gdb xL xR : Word) (s : State)

theorem exec_procMono : exec (procMono sym auto bd gp sm gdb xL) s = execProc sym auto bd gp sm gdb xL none s := by
  cases auto <;> cases sym <;> rfl

theorem exec_procStereo :
    exec (procStereo sym auto bd gp sm gdb xL xR) s = execProc sym auto bd gp sm gdb xL (some xR) s := by
  cases auto <;> cases sym <;> rfl

end

theorem execProc_of_ready {s : State} (h : s.ready = true) (sym auto : Bool) (bd gp sm gdb xL : Word)
    (xR : Option Word) : execProc sym auto bd gp sm gdb xL xR s =
      .next (s.afterProc (snapshotOf sym auto bd gp sm gdb) xL xR) :=
  if_pos h

theorem isProc_of_isMono {i : Instr} (h : isMono i = true) : isProc i = true := by
  cases i
  case init => cases h
  case tdwn => cases h
  all_goals rfl

/-! ### One lane's work -/

section
variable (f : Follower Word) (x : Word) {P : Snapshot Word}

/-- Stage S7 after S6, with a zero's sign bit settled (43_bitcrusher_channel.md R141). -/
theorem laneStep_output (P : Snapshot Word) : (laneStep f x P).2 = settleZero (zeroSignOf hw f x P)
    (clamp b32 (gainStage b32 hw f (clampSnapshot b32 hw P) (laneWarped x P) (laneCrushed x P))
      (fLit (-1) 1) (fLit 1 1)) := rfl

theorem laneStep_manual (h : P.autoGain = false) : laneStep f x P = (f, manualOut x P) := by
  have hQ : (clampSnapshot b32 hw P).autoGain = false := h
  refine Prod.ext (laneStepWith_manual hw f x h) ?_
  simp [laneStep_output, gainStage, zeroSignOf, manualOut, h, hQ]

theorem laneStep_auto_output (h : P.autoGain = true) : (laneStep f x P).2 = autoOut f x P := by
  have hQ : (clampSnapshot b32 hw P).autoGain = true := h
  simp [laneStep_output, gainStage, zeroSignOf, autoOut, autoFollower, h, hQ]

end

section
variable (s : State) {P : Snapshot Word} (xL : Word) (xR : Option Word)

/-- A frame with `AUTO = 0` writes `OUT` alone (44_stereo_engine.md R161). -/
theorem afterProc_manual (h : P.autoGain = false) : s.afterProc P xL xR =
    { s with out := some { y0 := manualOut xL P, y1 := manualOut (rightInput xL xR) P } } := by
  apply State.ext_fields <;> simp [laneStep_manual, h]

/-- A frame with `AUTO = 1` writes both levels and `OUT` (44_stereo_engine.md R163). -/
theorem afterProc_auto (h : P.autoGain = true) : s.afterProc P xL xR =
    { s with laneL := autoFollower s.laneL xL P, laneR := autoFollower s.laneR (rightInput xL xR) P,
             out := some { y0 := autoOut s.laneL xL P, y1 := autoOut s.laneR (rightInput xL xR) P } } := by
  apply State.ext_fields <;> simp [laneStep_auto, laneStep_auto_output, h]

end

/-! ### `INIT`, and `UNINIT` -/

theorem exec_init_of_rate {sr : Word} (h : positiveFiniteWord sr = true) (s : State) : exec (.init sr) s =
    .next { s with ready := true, laneL := envInit b32 hw sr, laneR := envInit b32 hw sr, out := none } :=
  if_pos ((rateValid_eq sr).trans h)

theorem exec_init_of_bad_rate {sr : Word} (h : positiveFiniteWord sr = false) (s : State) :
    exec (.init sr) s = .refused .badSampleRate :=
  if_neg (by rw [rateValid_eq, h]; exact Bool.false_ne_true)

/-- What `INIT` leaves in a lane, with the words of the literals (42_envelope_follower.md R111, 00_scope.md R9). -/
theorem envInit_words (sr : Word) : envInit b32 hw sr =
    { env := 0#32,
      atk := fSub 0x3F800000#32 (hw.exp (fNeg (fDiv 0x3F800000#32 (fMul 0x3A03126F#32 sr)))),
      rel := fSub 0x3F800000#32 (hw.exp (fNeg (fDiv 0x3F800000#32 (fMul 0x3D4CCCCD#32 sr)))) } := by
  have hattack : tcAttack b32 = 0x3A03126F#32 := by decide +kernel
  have hrelease : tcRelease b32 = 0x3D4CCCCD#32 := by decide +kernel
  simp [envInit, coeff, hattack, hrelease, fLit_zero, fLit_one]

/-- While `READY = 0` every command but `INIT` is refused (60_exceptions.md R189). -/
theorem exec_of_uninit {i : Instr} {s : State} (hi : ∀ sr, i ≠ .init sr) (h : s.ready = false) :
    exec i s = .refused .notReady := by
  have hn : ¬ s.ready = true := by simp [h]
  obtain ⟨sr, rfl⟩ | ⟨_, _, _, _, _, _, _, _, _, _, _, e⟩ | rfl := exec_cases i
  · exact absurd rfl (hi sr)
  · rw [e]; exact if_neg hn
  · exact if_neg hn

end Sys2Proof.Machine
end

section
/-! SUPPORT. The coefficients at 48000 Hz in the reference reading (42_envelope_follower.md R111), by the exponential
series with its remainder. -/

namespace Sys2Proof.Machine

/-- The exponential series with its remainder decides how near `1 - exp x` is to `a`. -/
theorem abs_one_sub_exp_sub_lt {x a ε : ℝ} (hx : |x| ≤ 1) {n : ℕ} (hn : 0 < n)
    (h : |1 - ∑ m ∈ Finset.range n, x ^ m / m.factorial - a| + |x| ^ n * (n.succ / (n.factorial * n)) < ε) :
    |1 - Real.exp x - a| < ε := by
  have hrest := Real.exp_bound hx hn
  rw [abs_sub_comm] at hrest
  calc |1 - Real.exp x - a|
      = |(1 - ∑ m ∈ Finset.range n, x ^ m / m.factorial - a)
          + (∑ m ∈ Finset.range n, x ^ m / m.factorial - Real.exp x)| := by congr 1; ring
    _ ≤ _ := abs_add_le _ _
    _ < ε := lt_of_le_of_lt (by gcongr) h

theorem abs_attack_sub_lt : |1 - Real.exp (-1 / 24) - 408105429 / 10 ^ 10| < 1 / 10 ^ 10 :=
  abs_one_sub_exp_sub_lt (by norm_num) (n := 6) (by norm_num) (by norm_num [Finset.sum_range_succ, Nat.factorial])

theorem abs_release_sub_lt : |1 - Real.exp (-1 / 2400) - 416579873 / 10 ^ 12| < 1 / 10 ^ 12 :=
  abs_one_sub_exp_sub_lt (by norm_num) (n := 4) (by norm_num) (by norm_num [Finset.sum_range_succ, Nat.factorial])

end Sys2Proof.Machine
end

section
/-! SUPPORT. Stereo independence (44_stereo_engine.md R157) as a simulation: two machines that are one to a lane answer
alike, command by command, step by step, and so over a run. -/

namespace Sys2Proof.Machine

/-! ### One command to a lane -/

theorem isProc_laneView (c : Lane) (i : Instr) : isProc (laneView c i) = isProc i := by cases i <;> rfl

theorem laneView_of_not_isProc (c : Lane) {i : Instr} (h : isProc i = false) : laneView c i = i := by
  cases i
  case init => rfl
  case tdwn => rfl
  all_goals cases h

/-- Commands that lane `c` sees alike are one command, or two PROC rows of one snapshot that give it one sample. -/
theorem eq_or_proc_of_laneView_eq {c : Lane} {i j : Instr} (h : laneView c i = laneView c j) :
    (isProc i = false ∧ i = j) ∨
    ∃ sym auto bd gp sm gdb xL xR xL' xR', laneInput xL xR c = laneInput xL' xR' c ∧
      (∀ s, exec i s = execProc sym auto bd gp sm gdb xL xR s) ∧
      ∀ s, exec j s = execProc sym auto bd gp sm gdb xL' xR' s := by
  have hproc : isProc i = isProc j := by rw [← isProc_laneView c i, h, isProc_laneView]
  cases hi : isProc i with
  | false => exact .inl ⟨rfl, by rwa [laneView_of_not_isProc c hi, laneView_of_not_isProc c (hproc ▸ hi)] at h⟩
  | true =>
    obtain ⟨sym, auto, bd, gp, sm, gdb, xL, xR, hexec, hview, _⟩ := exec_laneView hi
    obtain ⟨_, _, _, _, _, _, xL', xR', hexec', hview', _⟩ := exec_laneView (hproc ▸ hi)
    rw [hview, hview'] at h
    obtain ⟨rfl, rfl, rfl, rfl, rfl, rfl, hx⟩ := procMono_inj h
    exact .inr ⟨sym, auto, bd, gp, sm, gdb, xL, xR, xL', xR', hx, hexec, hexec'⟩

/-! ### One machine to a lane -/

/-- To lane `c` the two states are one, and so is all that their hosts still issue. -/
structure SameToLane (c : Lane) (s t : State) : Prop where
  ready : s.ready = t.ready
  lane : s.lane c = t.lane c
  draws : s.draws = t.draws
  out : s.out.map (·.lane c) = t.out.map (·.lane c)
  cmd : List.Forall₂ (sameForLane c) s.cmd t.cmd

section
variable (c : Lane) (s : State) (f : Follower Word) (P : Snapshot Word) (xL : Word) (xR : Option Word)

theorem State.afterProc_lane :
    (s.afterProc P xL xR).lane c = (laneStep (s.lane c) (laneInput xL xR c) P).1 := by
  cases c <;> rfl

theorem State.afterProc_out_lane :
    (s.afterProc P xL xR).out.map (·.lane c) = some (laneStep (s.lane c) (laneInput xL xR c) P).2 := by
  cases c <;> rfl

theorem State.withLanes_lane (o : Option OutFrame) : (s.withLanes f f o).lane c = f := by cases c <;> rfl

theorem State.losingLanes_lane {t : State} (h : s.draws = t.draws) : s.losingLanes.lane c = t.losingLanes.lane c := by
  cases c <;> simp [h]

end

namespace SameToLane
variable {c : Lane} {s t : State}

theorem withReady (h : SameToLane c s t) (b : Bool) : SameToLane c (s.withReady b) (t.withReady b) :=
  { h with ready := rfl }

theorem consumed (h : SameToLane c s t) : SameToLane c s.consumed t.consumed :=
  { h with cmd := by simpa only [State.consumed_cmd, List.drop_one] using List.forall₂_drop 1 h.cmd }

theorem accepted (h : SameToLane c s t) : SameToLane c s.accepted t.accepted :=
  { h.consumed with }

theorem losingLanes (h : SameToLane c s t) : SameToLane c s.losingLanes t.losingLanes :=
  { h with lane := s.losingLanes_lane c h.draws, draws := by simp [h.draws], out := rfl }

theorem hardReset (h : SameToLane c s t) : SameToLane c s.hardReset t.hardReset :=
  { h.losingLanes with ready := rfl }

theorem withLanes (h : SameToLane c s t) (f : Follower Word) :
    SameToLane c (s.withLanes f f none) (t.withLanes f f none) :=
  { h with lane := by rw [s.withLanes_lane, t.withLanes_lane], out := rfl }

theorem afterProc (h : SameToLane c s t) (P : Snapshot Word) {xL xL' : Word} {xR xR' : Option Word}
    (hx : laneInput xL xR c = laneInput xL' xR' c) : SameToLane c (s.afterProc P xL xR) (t.afterProc P xL' xR') :=
  { h with lane := by rw [s.afterProc_lane, t.afterProc_lane, h.lane, hx]
           out := by rw [s.afterProc_out_lane, t.afterProc_out_lane, h.lane, hx] }

end SameToLane

/-! ### The simulation -/

/-- Two answers alike: next states in the relation `R`, or refused for one reason. BCQ has no fault. -/
inductive SameAnswer (R : State → State → Prop) : Result → Result → Prop where
  | next {u v : State} (h : R u v) : SameAnswer R (.next u) (.next v)
  | refused (r : Refusal) : SameAnswer R (.refused r) (.refused r)

section
variable {c : Lane} {s t : State}

/-- Commands that lane `c` sees alike are both refused, or leave machines that are one to the lane. -/
theorem exec_sameToLane (h : SameToLane c s t) {i j : Instr} (hij : laneView c i = laneView c j) :
    SameAnswer (SameToLane c) (exec i s) (exec j t) := by
  obtain ⟨hp, rfl⟩ | ⟨sym, auto, bd, gp, sm, gdb, xL, xR, xL', xR', hx, hi, hj⟩ := eq_or_proc_of_laneView_eq hij
  · obtain ⟨sr, rfl⟩ | ⟨hp', _⟩ | rfl := exec_cases i
    · simp only [exec_init, execInit, execInitWith]
      split
      · exact .next ((h.withLanes _).withReady true)
      · exact .refused _
    · simp [hp] at hp'
    · simp only [exec_tdwn, execTdwn, ← h.ready]
      split
      · exact .next (h.losingLanes.withReady false)
      · exact .refused _
  · rw [hi, hj]
    simp only [execProc, execProcWith, ← h.ready]
    split
    · exact .next (h.afterProc _ hx)
    · exact .refused _

theorem SameAnswer.acceptResult {a b : Result} (h : SameAnswer (SameToLane c) a b) :
    SameAnswer (SameToLane c) (acceptResult a) (acceptResult b) := by
  cases h with
  | next h => exact .next h.accepted
  | refused r => exact .refused r

theorem step_of_idle (hc : s.cmd = []) : step s = .next s := by
  simp [step, stepBy, State.fetch, hc]

theorem step_of_hardReset {rest : List HostEvent} (hc : s.cmd = .hardReset :: rest) :
    step s = .next s.hardReset.consumed := by
  simp [step, stepBy, State.fetch, hc]

theorem step_sameToLane (h : SameToLane c s t) : SameAnswer (SameToLane c) (step s) (step t) := by
  have hcmd := h.cmd
  generalize hs : s.cmd = l, ht : t.cmd = m at hcmd
  cases hcmd with
  | nil =>
    rw [step_of_idle hs, step_of_idle ht]
    exact .next h
  | @cons e e' _ _ he _ =>
    cases e <;> cases e'
    case hardReset.hardReset =>
      rw [step_of_hardReset hs, step_of_hardReset ht]
      exact .next h.hardReset.consumed
    case frame.frame =>
      obtain ⟨i, j, rfl, rfl, hij⟩ := he
      rw [step_of_command hs (decode_encode i), step_of_command ht (decode_encode j)]
      exact (exec_sameToLane h hij).acceptResult
    all_goals exact he.elim

theorem run_sameToLane (k : Nat) : ∀ {s t : State}, SameToLane c s t →
    SameAnswer (SameToLane c) (Sys2Proof.core.run k s) (Sys2Proof.core.run k t) := by
  induction k with
  | zero => exact fun h => .next h
  | succ k ih =>
    intro s t h
    have hstep := step_sameToLane h
    generalize hs : step s = a, ht : step t = b at hstep
    cases hstep with
    | next h' => rw [run_next k hs, run_next k ht]; exact ih h'
    | refused r => rw [run_refused k hs, run_refused k ht]; exact .refused r

end

end Sys2Proof.Machine
end

section
/-! PROOFS. The statements on the stereo engine (44_stereo_engine.md). -/

namespace Sys2Proof.Machine

/-- Settles O27: machines that are one to lane `c` run alike, however long. -/
theorem laneIndependence : Obligations.LaneIndependence := by
  intro c k s t hready hlane hdraws hout hcmd
  have hrun := run_sameToLane k ⟨hready, hlane, hdraws, hout, hcmd⟩
  refine ⟨fun u hu => ?_, fun r hr => ?_⟩
  · rw [hu] at hrun
    generalize Sys2Proof.core.run k t = b at hrun
    cases hrun with
    | next h => exact ⟨_, rfl, h.ready, h.lane, h.out⟩
  · rw [hr] at hrun
    generalize Sys2Proof.core.run k t = b at hrun
    cases hrun with
    | refused => rfl

/-- Settles O11: the two answers of `INIT`, with the literals' words, and the example from the exponential series. -/
theorem initResult : Obligations.InitResult := by
  refine ⟨fun sr s => ⟨rfl, fun h E hE => ?_, fun h => exec_init_of_bad_rate h s⟩, ?_⟩
  · rw [hE, ← envInit_words]
    exact exec_init_of_rate h s
  · rintro cfg f hcfg rfl
    have hattack : tcAttack (exactNum ℝ) * 48000 = 24 := by norm_num [tcAttack]
    have hrelease : tcRelease (exactNum ℝ) * 48000 = 2400 := by norm_num [tcRelease]
    simp only [envInit, exact_coeff hcfg.exp, hattack, hrelease]
    exact ⟨by simp, abs_attack_sub_lt, abs_release_sub_lt⟩

/-- Settles O17: after `TDWN` the machine is in `UNINIT`, which refuses all but `INIT`, and `INIT` writes level 0. -/
theorem tdwnResult : Obligations.TdwnResult := by
  refine ⟨rfl, fun s => ⟨fun h => exec_of_uninit nofun h, fun h => ⟨_, _, _, if_pos h⟩, fun t ht => ?_⟩⟩
  obtain ⟨_, e⟩ | ⟨_, e⟩ := execTdwn_eq s <;> rw [exec_tdwn, e] at ht <;> cases ht
  exact ⟨fun i hi => exec_of_uninit hi rfl,
    fun sr hsr => ⟨_, exec_init_of_rate hsr _, by rw [envInit_words], by rw [envInit_words]⟩⟩

/-- Settles O19, row by row from what a frame with `AUTO = 0` writes. -/
theorem manualRowsResult : Obligations.ManualRowsResult := by
  rintro s bd gp sm gdb xL xR hready P Q rfl rfl
  refine ⟨?_, ?_, ?_, ?_⟩ <;>
    exact (execProc_of_ready hready _ _ _ _ _ _ _ _).trans (congrArg _ (afterProc_manual s xL _ rfl))

/-- Settles O20, row by row from what a frame with `AUTO = 1` writes. -/
theorem autoRowsResult : Obligations.AutoRowsResult := by
  rintro s bd gp sm gdb xL xR hready P Q rfl rfl
  refine ⟨?_, ?_, ?_, ?_⟩ <;>
    exact (execProc_of_ready hready _ _ _ _ _ _ _ _).trans (congrArg _ (afterProc_auto s xL _ rfl))

/-- Settles O22: on a mono frame both lanes work on one sample. -/
theorem equalLanesGiveEqualOutputs : Obligations.EqualLanesGiveEqualOutputs := by
  intro i s t hmono h
  obtain ⟨sym, auto, bd, gp, sm, gdb, xL, xR, e, _, hmanual, hnone⟩ := exec_laneView (isProc_of_isMono hmono)
  obtain rfl : xR = none := by simpa [hmono] using hnone
  obtain ⟨_, e'⟩ | ⟨_, e'⟩ := execProc_eq sym auto bd gp sm gdb xL none s <;> rw [e, e'] at h <;> cases h
  refine ⟨fun hlanes => ?_, fun hm => ?_⟩
  · simp [hlanes]
  · have hauto : auto = false := by simpa [hm] using hmanual
    exact ⟨_, congrArg State.out (afterProc_manual s xL none hauto)⟩

/-- Settles O16: `UNINIT` refuses every PROC row. -/
theorem procIsRefusedBeforeInit : Obligations.ProcIsRefusedBeforeInit := by
  intro i s hproc hready
  refine exec_of_uninit ?_ hready
  rintro sr rfl
  cases hproc

/-- Settles O21: a missing right sample and a repeated left one give lane R the same input. -/
theorem monoIsStereoDuplicated : Obligations.MonoIsStereoDuplicated := by
  intro sym auto bd gp sm gdb xL s
  rw [exec_procMono, exec_procStereo]
  rfl

end Sys2Proof.Machine
end

section
/-! SUPPORT. The lifecycle (60_exceptions.md R189): what it says of a command and of a step, and the rule that lifts a step
to runs. -/

namespace Sys2Proof.Machine
variable {s : State}

/-- The two answers of a command: the lifecycle state admits it and it leads to the next one, or it is refused. -/
theorem exec_lifecycle (i : Instr) (s : State) :
    (admitted s.ready i = true ∧ ∃ t, exec i s = .next t ∧ t.ready = readyAfter i s.ready) ∨
    (admitted s.ready i = false ∧ ∃ r, exec i s = .refused r) := by
  obtain ⟨sr, rfl⟩ | ⟨_, hafter, hadmitted, sym, auto, bd, gp, sm, gdb, xL, xR, hexec⟩ | rfl := exec_cases i
  · cases h : positiveFiniteWord sr
    · exact .inr ⟨h, _, exec_init_of_bad_rate h s⟩
    · exact .inl ⟨h, _, exec_init_of_rate h s, rfl⟩
  · rw [hexec, hafter, hadmitted]
    exact (execProc_eq sym auto bd gp sm gdb xL xR s).imp
      (fun ⟨h, e⟩ => ⟨h, _, e, rfl⟩) (fun ⟨h, e⟩ => ⟨h, _, e⟩)
  · exact (execTdwn_eq s).imp (fun ⟨h, e⟩ => ⟨h, _, e, rfl⟩) (fun ⟨h, e⟩ => ⟨h, _, e⟩)

theorem step_of_rejected {ws : Frame} {rest : List HostEvent} {r : DecodeReject} (hc : s.cmd = .frame ws :: rest)
    (hd : decode ws = .error r) : step s = .refused (refusalOf r) := by
  have hfetch : s.fetch = .rejected r := by simp [State.fetch, hc, hd]
  simp [step, stepBy, hfetch]

/-- A dutiful host's next step completes, and what it issues after it is dutiful from the state reached. -/
theorem step_of_dutiful (h : dutiful s.ready s.cmd) : ∃ t, step s = .next t ∧ dutiful t.ready t.cmd := by
  match hc : s.cmd with
  | [] => exact ⟨s, step_of_idle hc, h⟩
  | .hardReset :: rest =>
    refine ⟨_, step_of_hardReset hc, ?_⟩
    simpa [hc, dutiful] using h
  | .frame ws :: rest =>
    rw [hc] at h
    obtain ⟨i, rfl, hadmitted, hrest⟩ := h
    obtain ⟨_, t, ht, hready⟩ | ⟨hnot, _⟩ := exec_lifecycle i s
    · obtain ⟨hnext, _⟩ := stepRunsDecodedCommand s _ rest i hc (decode_encode i)
      exact ⟨_, hnext t ht, hready ▸ hrest⟩
    · simp [hadmitted] at hnot

/-- A property under which every step completes, and which it keeps, makes every run complete. -/
theorem run_completes {I : State → Prop} (hstep : ∀ s, I s → ∃ t, step s = .next t ∧ I t) (k : Nat) :
    ∀ s, I s → ∃ t : State, Sys2Proof.core.run k s = .next t := by
  induction k with
  | zero => exact fun s _ => ⟨s, rfl⟩
  | succ k ih =>
    intro s hs
    obtain ⟨t, hnext, ht⟩ := hstep s hs
    rw [run_next k hnext]
    exact ih t ht

end Sys2Proof.Machine
end

section
/-! PROOFS. The statements on refusals and the lifecycle (60_exceptions.md). -/

namespace Sys2Proof.Machine

/-- Settles O15: a command is admitted and completes, or is refused; and the reset pin clears `READY`. -/
theorem lifecycleAcceptance : Obligations.LifecycleAcceptance := by
  refine ⟨fun i s => ?_, fun s rest hc => ⟨_, step_of_hardReset hc, rfl⟩⟩
  obtain ⟨hadmitted, t, ht, hready⟩ | ⟨hnot, r, hr⟩ := exec_lifecycle i s
  · refine ⟨⟨fun _ => hadmitted, fun _ => ⟨t, ht⟩⟩, fun u hu => ?_⟩
    cases ht.symm.trans hu
    exact hready
  · simp [hr, hnot]

/-- Settles O18: being dutiful is an invariant under which every step completes. -/
theorem dutifulHostIsNeverRefused : Obligations.DutifulHostIsNeverRefused :=
  run_completes (I := fun s => dutiful s.ready s.cmd) fun _ => step_of_dutiful

/-- Settles O6: each reason of the decoder is the step's refusal. -/
theorem stepRefusesRejectedFrames : Obligations.StepRefusesRejectedFrames := fun _ _ _ hc =>
  ⟨step_of_rejected hc, step_of_rejected hc, step_of_rejected hc⟩

/-- Settles O7: with nothing on `CMD` the step is idle. -/
theorem stepHoldsStateWhenIdle : Obligations.StepHoldsStateWhenIdle := fun _ => step_of_idle

end Sys2Proof.Machine
end

section
/-! PROOFS. The statements on reset and hazards (70_reset_and_hazards.md). -/

namespace Sys2Proof.Machine

/-- Settles O10: in `UNINIT` the only command that can complete is `INIT`, which reads no follower register and writes all
six; every other command is refused for `READY` alone. -/
theorem unspecifiedRegistersAreUnobservable : Obligations.UnspecifiedRegistersAreUnobservable := by
  intro i s l r d hready
  by_cases hinit : ∃ sr, i = .init sr
  · obtain ⟨sr, rfl⟩ := hinit
    cases hrate : positiveFiniteWord sr
    · simp only [exec_init_of_bad_rate hrate]
      exact ⟨nofun, fun _ h => h⟩
    · simp only [exec_init_of_rate hrate]
      exact ⟨by rintro _ ⟨⟩; rfl, nofun⟩
  · have hrefused (u : State) (hu : u.ready = false) : exec i u = .refused .notReady :=
      exec_of_uninit (fun sr hi => hinit ⟨sr, hi⟩) hu
    rw [hrefused s hready, hrefused { s with laneL := l, laneR := r, draws := d } hready]
    exact ⟨nofun, fun _ h => h⟩

/-- Settles O8: the reset pin leaves free words in the six registers and takes the event off `CMD`. -/
theorem hardwareResetStep : Obligations.HardwareResetStep := by
  intro s rest hc
  refine ⟨freeLane s.draws, freeLane (s.draws + 3), s.draws + 6, ?_⟩
  rw [step_of_hardReset hc]
  exact congrArg _ (State.ext_fields rfl rfl rfl (by simp [hc]) rfl rfl rfl)

end Sys2Proof.Machine
end
